-- ==== Sys2Proof/Word.lean ====
section
/-! DEFINITION. The byte and the 32-bit register word of the BPRC frame codec (00_scope.md R6 to R8). -/

namespace Sys2Proof

/-- One byte of a buffer or of the DMA memory, bit 0 the least significant (R6, R7). -/
abbrev Byte := BitVec 8

/-- One 32-bit register of the window, one command word, one DMA address or length (R5). -/
abbrev Word := BitVec 32

end Sys2Proof
end

