-- ==== Sys2Proof/Config.lean ====
section
/-! DEFINITION. What is fixed outside the block: the numeric literals of the spec (93_implementation_defined.md I1),
the platform parameters that R5 leaves OPEN, and the free values (opaque constants, no body). -/

namespace Sys2Proof

/-- A stretch of `len` consecutive byte addresses from `base` on, computed without wrap-around (R65). -/
structure Region where
  base : Nat
  len : Nat
deriving DecidableEq, Repr

/-- The platform parameters of R5: `REG_BASE` (held as its 128-byte window number, since it is aligned to 128),
`MemAdmit` (held as the list of the stretches it admits: every predicate on the 2^32 addresses is such a list)
and `DMA_COHERENT`. They are configuration, not state of the block (R47); no step changes them. -/
structure Platform where
  windowNumber : Nat
  admitted : List Region
  coherent : Bool
deriving DecidableEq, Repr

namespace Config

/-! ### Literals of the source (I1: named once, so that a corrected value changes one definition) -/

/-- The DMA space has `2^ADDR_WIDTH` = 2^32 byte addresses (R60). -/
abbrev spaceSize : Nat := 4294967296

/-- The register window is 128 bytes (R22). -/
abbrev windowBytes : Nat := 128

/-- A rotation group is 8 bytes (R100). -/
abbrev groupBytes : Nat := 8

/-- A literal token holds at most 128 bytes (R161). -/
abbrev literalLimit : Nat := 128

/-- What a CHAIN header 0x7F adds to a zero run (R162). -/
abbrev chainStep : Nat := 127

/-- What a CONT continuation byte 0xFF adds to a zero run (R163). -/
abbrev contStep : Nat := 255

/-- The longest zero run of one SPLIT header (R164). -/
abbrev splitLimit : Nat := 128

/-- The cap of a length block's first byte (R200). -/
abbrev lengthHead : Nat := 127

/-- What a following byte 255 of a length block adds (R200). -/
abbrev lengthStep : Nat := 255

/-- The value ID reads at all times (R23). -/
abbrev idValue : Word := 0x42500700

/-- ROT_PERM at reset: the identity permutation (R39). -/
abbrev identityPerm : BitVec 24 := 0xFAC688

/-- FRAME_W at reset (R33). -/
abbrev resetFrameW : Word := 0x000003C0

/-- FRAME_H at reset (R34). -/
abbrev resetFrameH : Word := 0x0000021C

/-! ### The OPEN parameters of R5 (notes/assumptions/1.md) -/

/-- OPEN: `REG_BASE / 128`. -/
opaque windowNumber : Nat

/-- OPEN: the stretches of DMA addresses that `MemAdmit` admits. -/
opaque admitted : List Region

/-- OPEN: `DMA_COHERENT`. -/
opaque dmaCoherent : Bool

/-- The platform the machine right after reset sits in: every parameter left OPEN. -/
def platform : Platform := ⟨windowNumber, admitted, dmaCoherent⟩

/-! ### Free values (notes/assumptions/4.md and 5.md). The first argument is the number of the draw. -/

/-- A byte that the spec lets be any value: draw number, address (R67, R68, R283, R311). -/
opaque anyByte : Nat → Nat → Byte

/-- Whether a raced run that fails a check of R282 takes that check's fault (true) or ends as R77 admits (false). -/
opaque raceChecked : Nat → Bool

/-- Whether a raced run completes (true) or faults (false) (R77). -/
opaque raceCompletes : Nat → Bool

/-- The RESULT_LEN of a raced completion, before it is bounded by DST_CAP (R77). -/
opaque raceLength : Nat → Nat

/-- STATUS.TRAIL after a raced run (R77). -/
opaque raceTrail : Nat → Bool

/-- Which of the causes of R277 to R281 a raced fault reports (R77). -/
opaque raceCause : Nat → Nat

/-- FAULT_INFO of a raced fault (R77). -/
opaque raceInfo : Nat → Word

end Config

end Sys2Proof
end

