-- ==== Sys2Proof/Syntax.lean ====
section
/-! DEFINITION. The commands of the block: one constructor for each row of spec/opcode_table.json (30_encoding.md R81). -/

namespace Sys2Proof

/-- The 11 commands (R81). A command word carries no immediate and no register field (R83), so no constructor
has an argument: every operand is read from the latched operand set. -/
inductive Instr where
  /-- NOP, OP 0x00 (R243). -/
  | nop
  /-- ROT, OP 0x01 (R107). -/
  | rot
  /-- UNROT, OP 0x02 (R108). -/
  | unrot
  /-- FOLD, OP 0x03 (R135). -/
  | fold
  /-- UNFOLD, OP 0x04 (R136). -/
  | unfold
  /-- DENC, OP 0x05 (R137). -/
  | denc
  /-- DDEC, OP 0x06 (R138). -/
  | ddec
  /-- SPENC, OP 0x07 (R172). -/
  | spenc
  /-- SPDEC, OP 0x08 (R173). -/
  | spdec
  /-- COMPRESS, OP 0x09 (R203). -/
  | compress
  /-- DECOMPRESS, OP 0x0A (R204). -/
  | decompress
deriving DecidableEq, Repr

/-- The two fields of a command word (R80): OP in bits 7:0 and RSVD in bits 31:8. -/
structure RawCommand where
  op : Byte
  rsvd : BitVec 24
deriving DecidableEq, Repr

end Sys2Proof
end

