-- ==== Sys2Proof/WellFormed.lean ====
section
/-! DEFINITION. Which command words are legal (30_encoding.md R80, R82). -/

namespace Sys2Proof

/-- RSVD must be 0 (R80). -/
def RawCommand.reservedBitsClear (r : RawCommand) : Bool := r.rsvd == 0

/-- OP values 0x0B to 0xFF are reserved (R82). -/
def RawCommand.opcodeAssigned (r : RawCommand) : Bool := decide (r.op.toNat ≤ 0x0A)

/-- A raw command is well-formed when neither condition of R82 makes it illegal. -/
def RawCommand.wellFormed (r : RawCommand) : Bool := r.reservedBitsClear && r.opcodeAssigned

/-- Every command is well-formed as it stands: it has no operand field that could be out of range (R83).
What can be ill-formed is a word, see `RawCommand.wellFormed`. -/
def Instr.wellFormed (_ : Instr) : Bool := true

end Sys2Proof
end

