-- ==== Sys2Proof/Decode.lean ====
section
/-! DEFINITION. The command word's decoder and encoder (30_encoding.md R80 to R82), total on any word and on any bytes. -/

namespace Sys2Proof

/-- Why a word is no command. -/
inductive Reject where
  /-- Fewer than the four bytes of a command word. -/
  | shortWord
  /-- Some bit of RSVD, bits 31:8, is set (R82). -/
  | reservedBits (w : Word)
  /-- OP is 0x0B or above (R82). -/
  | reservedOpcode (op : Byte)
deriving DecidableEq, Repr

/-- The fields of a command word (R80). -/
def rawCommand (w : Word) : RawCommand := ⟨w.extractLsb' 0 8, w.extractLsb' 8 24⟩

/-- The command word with these fields (R80). -/
def rawWord (r : RawCommand) : Word := r.rsvd ++ r.op

/-- The opcode map of R81, from OP to the command. -/
def commandOf (op : Byte) : Option Instr :=
  match op.toNat with
  | 0x00 => some .nop
  | 0x01 => some .rot
  | 0x02 => some .unrot
  | 0x03 => some .fold
  | 0x04 => some .unfold
  | 0x05 => some .denc
  | 0x06 => some .ddec
  | 0x07 => some .spenc
  | 0x08 => some .spdec
  | 0x09 => some .compress
  | 0x0A => some .decompress
  | _ => none

/-- A command word's meaning, or why it is illegal: RSVD must be 0 and OP assigned (R80 to R82). -/
def decode (w : Word) : Except Reject Instr :=
  let r := rawCommand w
  if r.reservedBitsClear then
    match commandOf r.op with
    | some i => .ok i
    | none => .error (.reservedOpcode r.op)
  else .error (.reservedBits w)

/-- The opcode map of R81, from the command to OP. -/
def opcode : Instr → Byte
  | .nop => 0x00
  | .rot => 0x01
  | .unrot => 0x02
  | .fold => 0x03
  | .unfold => 0x04
  | .denc => 0x05
  | .ddec => 0x06
  | .spenc => 0x07
  | .spdec => 0x08
  | .compress => 0x09
  | .decompress => 0x0A

/-- The command word of a command (R80, R81). -/
def encode (i : Instr) : Word := rawWord ⟨opcode i, 0⟩

/-- Byte `b` of a register word as the little-endian window shows it: bits `8b+7 : 8b` (R62). -/
def byteLane (w : Word) (b : Nat) : Byte := w.extractLsb' (8 * b) 8

/-- The four bytes of a command word in the window's byte order (R62). -/
def wordBytes (w : Word) : List Byte := [byteLane w 0, byteLane w 1, byteLane w 2, byteLane w 3]

/-- Reads one command word from bytes laid out in the window's byte order, and the bytes after it. -/
def decodeBytes : List Byte → Except Reject (Instr × List Byte)
  | b0 :: b1 :: b2 :: b3 :: rest =>
    match decode (b3 ++ b2 ++ b1 ++ b0) with
    | .ok i => .ok (i, rest)
    | .error e => .error e
  | _ => .error .shortWord

/-- The number of an opcode-table row's word as a command word: bits at and above `nbits` are 0. -/
def tableWord (nbits w : Nat) : Word := BitVec.ofNat 32 (w % 2 ^ nbits)

/-- The command the decoder reads from the `nbits`-bit word `w` of spec/opcode_table.json. -/
def decodeTableWord (nbits w : Nat) : Option Instr :=
  match decodeBytes (wordBytes (tableWord nbits w)) with
  | .ok (i, _) => some i
  | .error _ => none

end Sys2Proof
end

