-- ==== Sys2Proof/Machine/State.lean ====
section
/-! DEFINITION. The state of the block, the DMA memory it works on, what the outside can do to it, and reset
(10_state.md, 20_memory.md, 70_reset_and_hazards.md). Plain data throughout. -/

namespace Sys2Proof.Machine

/-! ### Registers -/

/-- The zero-run coding CTRL.ZMODE (R24). The reserved value 0b11 is never held (R25, R46), so it has no constructor. -/
inductive ZMode where
  /-- 0b00 (R162). -/
  | chain
  /-- 0b01 (R163). -/
  | cont
  /-- 0b10 (R164). -/
  | split
deriving DecidableEq, Repr

/-- The fields of CTRL (R24); bits 31:5 read 0 and are not held. -/
structure Ctrl where
  irqEn : Bool
  dseg : Bool
  zmode : ZMode
  tailm : Bool
deriving DecidableEq, Repr

/-- The held bits of STATUS (R26). BUSY is the engine phase and IRQ is derived, so neither is held here. -/
structure Status where
  done : Bool
  err : Bool
  trail : Bool
  skip : Bool
deriving DecidableEq, Repr

/-- The cause codes of R271, in code order 0x0 to 0xA. Codes 0xB to 0xF are never written. -/
inductive Cause where
  | none
  | illegalCmd
  | badGeometry
  | addrRange
  | overlap
  | busError
  | dstOverflow
  | srcTruncated
  | decOverrun
  | malformed
  | lenMismatch
deriving DecidableEq, Repr

/-- What `raise Fault(CAUSE, info)` carries (R11). -/
structure FaultRecord where
  cause : Cause
  info : Word
deriving DecidableEq, Repr

/-- The latched operand set `L` of R44. `L.OP` is bits 7:0 of `word`. -/
structure Latched where
  word : Word
  dseg : Bool
  zmode : ZMode
  tailm : Bool
  srcAddr : Word
  srcLen : Word
  dstAddr : Word
  dstCap : Word
  frameW : Word
  frameH : Word
  expLen : Word
  perm : BitVec 24
deriving DecidableEq, Repr

/-- The engine phase (R21). `raced` is the model's own bookkeeping of R77: whether an agent other than the engine
has written a byte of the command's source or destination region since acceptance. -/
inductive Phase where
  | idle
  | busy (l : Latched) (raced : Bool)
deriving DecidableEq, Repr

/-! ### DMA memory -/

/-- A stretch of bytes that hold any value: the byte at address `a` is the free value `Config.anyByte draw a`. -/
structure AnyRegion where
  region : Region
  draw : Nat
deriving DecidableEq, Repr

/-- The DMA memory (R60): the listed cells, addresses strictly rising, and the stretches whose bytes are any value
(R67, R283, R311), rising and apart from each other and from the cells. An address in neither reads 0x00
(notes/assumptions/2.md). -/
structure Memory where
  cells : List Host.Cell
  anys : List AnyRegion
deriving DecidableEq, Repr

/-! ### What the outside does (R20, R71, R289) -/

/-- The width of a host access to the register window (R63). -/
inductive AccessWidth where
  | bits8
  | bits16
  | bits32
  | bits64
deriving DecidableEq, Repr

/-- One bus access of a host (R20, R61, R85) or of another agent that writes the DMA memory (R77). Window
addresses are the host's, DMA addresses the block's. The two cache operations are the host's duties of R69 and R70
on a platform whose DMA is not coherent. -/
inductive HostAccess where
  | regRead (width : AccessWidth) (addr : Nat)
  | regWrite (width : AccessWidth) (addr : Nat) (data : Word)
  | memRead (addr : Nat) (len : Nat)
  | memWrite (addr : Nat) (bytes : List Byte)
  | cacheClean (addr : Nat) (len : Nat)
  | cacheInvalidate (addr : Nat) (len : Nat)
deriving DecidableEq, Repr

/-- What falls at one instant (R289): the reset input, at most one host access, and whether the scheduler of R315
lets the engine's completion or fault step fall here. -/
structure Instant where
  reset : Bool
  access : Option HostAccess
  engine : Bool
deriving DecidableEq, Repr

/-- What the block or the memory answers to a host read. -/
inductive Answer where
  | word (v : Word)
  | bytes (bs : List Byte)
deriving DecidableEq, Repr

/-! ### The state -/

/-- The whole machine: the registers of R22, the engine phase of R21, the DMA memory, and the model's own fields
(from `dirty` on) that hold the outside: see INVENTORY.md, '## State'. -/
structure State where
  ctrl : Ctrl
  status : Status
  srcAddr : Word
  srcLen : Word
  dstAddr : Word
  dstCap : Word
  frameW : Word
  frameH : Word
  expLen : Word
  resultLen : Word
  faultCause : Cause
  faultInfo : Word
  rotPerm : BitVec 24
  skipCnt : Word
  lutIndex : Byte
  phase : Phase
  mem : Memory
  /-- Host writes not yet cleaned out of the hosts' caches, one list for all hosts; used only where DMA is not coherent
  (R69, notes/assumptions/7.md). -/
  dirty : List Region
  /-- Destination regions of ended runs, of which the hosts' caches may hold old copies, one list for all hosts; used only
  where DMA is not coherent (R70, notes/assumptions/7.md). -/
  stale : List Region
  /-- The platform parameters (R5, R47). -/
  platform : Platform
  /-- The instants still to come, in the order the bus delivers them (R71). -/
  inputs : List Instant
  /-- The answer to the last host read. -/
  answer : Option Answer
  /-- How many free values have been drawn. -/
  draws : Nat
deriving DecidableEq, Repr

/-! ### How a step can stop -/

/-- A step stops with a fault. The block's own faults (R271) are no such stop: they are recorded in FAULT_CAUSE and
the machine goes on. -/
inductive Fault where
  /-- Raised by a host memory access, read or write or cache operation, that names an address outside the
  2^32-byte DMA space or one that `MemAdmit` rejects: no memory is there (R5, R60; I11, I18). Safe: the spec gives
  such an access no effect. -/
  | unbackedHostAddress
deriving DecidableEq, Repr

/-- A step has no meaning. -/
inductive Refusal where
  /-- Answered by an arm of `exec` whose instruction has no meaning yet. Safe. No arm answers it. -/
  | notModelled (mnemonic : String)
  /-- Answered by a host access to an address of the register window that is not an aligned 32-bit access: the
  spec calls it undefined and has a model refuse it (R63, I7). Safe. -/
  | undefinedRegisterAccess
  /-- Answered by a host register access to an address outside the window: it does not reach the block (R61, R63).
  Safe. -/
  | outsideWindow
deriving DecidableEq, Repr

/-! ### Reset -/

/-- DMA memory with nothing written: every byte reads 0x00 (notes/assumptions/2.md). -/
def Memory.empty : Memory := ⟨[], []⟩

/-- The machine right after reset: every register at the value of R48 (R310), the phase IDLE, memory with nothing
listed, the platform parameters OPEN (R5), and nothing yet to come from outside. -/
def State.reset : State where
  ctrl := ⟨false, false, .chain, false⟩
  status := ⟨false, false, false, false⟩
  srcAddr := 0
  srcLen := 0
  dstAddr := 0
  dstCap := 0
  frameW := Config.resetFrameW
  frameH := Config.resetFrameH
  expLen := 0
  resultLen := 0
  faultCause := .none
  faultInfo := 0
  rotPerm := Config.identityPerm
  skipCnt := 0
  lutIndex := 0
  phase := .idle
  mem := Memory.empty
  dirty := []
  stale := []
  platform := Config.platform
  inputs := []
  answer := none
  draws := 0

end Sys2Proof.Machine
end

