-- ==== Sys2Proof/Machine/Ops.lean ====
section
/-! DEFINITION. The named operations over regions and the DMA memory (20_memory.md), and the shared operations that
begin and end a run: acceptance, drop, completion, taking a fault and acknowledging it (44_control.md, 60_exceptions.md). -/

namespace Sys2Proof.Machine

/-! ### Regions (R65) -/

/-- The first address after the region. -/
def regionStop (r : Region) : Nat := r.base + r.len

/-- Whether the address lies in the region. -/
def inRegion (r : Region) (a : Nat) : Bool := decide (r.base ≤ a) && decide (a < r.base + r.len)

/-- Whether the address lies in one of the regions. -/
def inRegions (rs : List Region) (a : Nat) : Bool := rs.any (inRegion · a)

/-- A region is in range iff it ends at or below 2^32 or is empty (R65). -/
def regionInRange (r : Region) : Bool := r.len == 0 || decide (regionStop r ≤ Config.spaceSize)

/-- Two regions overlap iff both are non-empty and they share an address (R65). -/
def regionsOverlap (r q : Region) : Bool :=
  decide (0 < r.len) && decide (0 < q.len) && decide (r.base < q.base + q.len) && decide (q.base < r.base + r.len)

/-- The part of `r` below `hi`. -/
def regionBelow (r : Region) (hi : Nat) : Region := ⟨r.base, min (regionStop r) hi - r.base⟩

/-- The part of `r` at and above `lo`. -/
def regionFrom (r : Region) (lo : Nat) : Region := ⟨max r.base lo, regionStop r - max r.base lo⟩

/-- The addresses common to both regions. -/
def regionCommon (r q : Region) : Region := regionFrom (regionBelow r (regionStop q)) q.base

/-- The addresses of `r` that are not in `cut`, as at most two non-empty regions. -/
def regionMinus (r cut : Region) : List Region :=
  if regionsOverlap r cut then [regionBelow r cut.base, regionFrom r (regionStop cut)].filter (fun q => decide (0 < q.len))
  else [r]

/-- The addresses of the regions that are not in `cut`. -/
def regionsMinus (rs : List Region) (cut : Region) : List Region := rs.flatMap (regionMinus · cut)

/-- The non-empty parts of the regions that lie in `r`. -/
def regionsCommon (rs : List Region) (r : Region) : List Region :=
  (rs.map (regionCommon · r)).filter (fun q => decide (0 < q.len))

/-! ### The platform (R5) -/

/-- `REG_BASE`, aligned to 128 (R5). -/
def regBase (p : Platform) : Nat := Config.windowBytes * p.windowNumber

/-- `MemAdmit(a)` (R5). -/
def memAdmit (p : Platform) (a : Nat) : Bool := inRegions p.admitted a

/-- The lowest address of the region that `MemAdmit` rejects, if there is one (R276). It is the region's first
address or the end of an admitted stretch, so only those are looked at. -/
def lowestRejected (p : Platform) (r : Region) : Option Nat :=
  if r.len = 0 then none
  else ((r.base :: p.admitted.map regionStop).filter (fun a => inRegion r a && !memAdmit p a)).min?

/-! ### Memory (R10, R60, R67) -/

/-- The byte at the address in the listed cells; an unlisted address reads 0x00 (notes/assumptions/2.md). -/
def readCell : List Host.Cell → Nat → Byte
  | [], _ => 0
  | (a', b) :: t, a => if a = a' then b else readCell t a

/-- The cells with `b` at address `a`: addresses stay strictly rising, and 0x00, which an unlisted address reads as,
is not listed. -/
def setCell : List Host.Cell → Nat → Byte → List Host.Cell
  | [], a, b => if b = 0 then [] else [(a, b)]
  | (a', b') :: t, a, b =>
    if a < a' then if b = 0 then (a', b') :: t else (a, b) :: (a', b') :: t
    else if a = a' then if b = 0 then t else (a, b) :: t
    else (a', b') :: setCell t a b

/-- The stretches of any value without the addresses of `cut`. -/
def cutAnys (anys : List AnyRegion) (cut : Region) : List AnyRegion :=
  anys.flatMap (fun r => (regionMinus r.region cut).map (fun q => ⟨q, r.draw⟩))

/-- The stretches with `n` put in its place in address order. -/
def insertAny : List AnyRegion → AnyRegion → List AnyRegion
  | [], n => [n]
  | r :: t, n => if n.region.base < r.region.base then n :: r :: t else r :: insertAny t n

/-- The byte at the address (R10). -/
def Memory.read (m : Memory) (a : Nat) : Byte :=
  match m.anys.find? (fun r => inRegion r.region a) with
  | some r => Config.anyByte r.draw a
  | none => readCell m.cells a

/-- The memory with the byte `b` at address `a`. -/
def Memory.writeByte (m : Memory) (a : Nat) (b : Byte) : Memory :=
  ⟨setCell m.cells a b, cutAnys m.anys ⟨a, 1⟩⟩

/-- `MemWrite` (R10): the bytes at `a`, `a+1`, and so on, the first at the lowest address. -/
def Memory.writeBytes (m : Memory) (a : Nat) : List Byte → Memory
  | [] => m
  | b :: bs => (m.writeByte a b).writeBytes (a + 1) bs

/-- `MemRead` (R10): the `n` bytes from address `a` on. -/
def Memory.readBytes (m : Memory) (a n : Nat) : List Byte := (List.range n).map (fun k => m.read (a + k))

/-- The memory after which every byte of the region holds any value, drawn as number `draw` (R67). -/
def Memory.markAny (m : Memory) (r : Region) (draw : Nat) : Memory :=
  if r.len = 0 then m
  else ⟨m.cells.filter (fun c => !inRegion r c.1), insertAny (cutAnys m.anys r) ⟨r, draw⟩⟩

/-- `Memory.markAny` of several regions, in one draw. -/
def Memory.markAnys (m : Memory) (rs : List Region) (draw : Nat) : Memory :=
  rs.foldl (fun m r => m.markAny r draw) m

/-- The canonical form: cells strictly rising, none 0x00, none in a stretch of any value; the stretches non-empty,
rising and apart. -/
def Memory.wf (m : Memory) : Bool :=
  decide (m.cells.Pairwise (fun c d => c.1 < d.1)) &&
  m.cells.all (fun c => c.2 != 0 && !inRegions (m.anys.map AnyRegion.region) c.1) &&
  m.anys.all (fun r => decide (0 < r.region.len)) &&
  decide (m.anys.Pairwise (fun r q => regionStop r.region ≤ q.region.base))

/-! ### The latched operand set's regions (R65) -/

/-- `L.OP`, bits 7:0 of the command word (R44). -/
def Latched.op (l : Latched) : Byte := l.word.extractLsb' 0 8

/-- The source region (R65). -/
def Latched.source (l : Latched) : Region := ⟨l.srcAddr.toNat, l.srcLen.toNat⟩

/-- The destination region: the whole capacity, not only the bytes the command writes (R65, R275). -/
def Latched.destination (l : Latched) : Region := ⟨l.dstAddr.toNat, l.dstCap.toNat⟩

/-- Where the engine may write in a run whose checks may not have passed: the destination region's addresses below
2^32 that are no source addresses (R60, R67; notes/assumptions/11.md). Where the checks pass it is the whole
destination region. -/
def Latched.footprint (l : Latched) : List Region := regionMinus (regionBelow l.destination Config.spaceSize) l.source

/-- NOP, OP 0x00, uses no region (R65); every other command uses both. -/
def Latched.usesMemory (l : Latched) : Bool := l.op != opcode .nop

/-! ### The host's caches on a platform whose DMA is not coherent (R69, R70, R75) -/

/-- What the engine reads at an address: on a platform whose DMA is not coherent, a byte the host has written and
not cleaned is any value (R69, I13). -/
def State.engineByte (s : State) (a : Nat) : Byte :=
  if !s.platform.coherent && inRegions s.dirty a then Config.anyByte s.draws a else s.mem.read a

/-- `M0`: the source bytes the command computes with (R66, R240). Between acceptance and the engine's step a write to
the source is a race (R77), so the source at the engine's step is the source at acceptance. -/
def State.sourceBytes (s : State) (l : Latched) : List Byte :=
  (List.range l.srcLen.toNat).map (fun k => s.engineByte (l.srcAddr.toNat + k))

/-- The regions whose host copies are stale once a run has used the regions `rs` as its destination (R70). -/
def State.staleAfter (s : State) (rs : List Region) : List Region :=
  if s.platform.coherent then s.stale else rs ++ rs.foldl regionsMinus s.stale

/-! ### A run's beginning -/

/-- The latched operand set that acceptance of the word `w` takes from the registers (R44, R240). -/
def State.latch (s : State) (w : Word) : Latched where
  word := w
  dseg := s.ctrl.dseg
  zmode := s.ctrl.zmode
  tailm := s.ctrl.tailm
  srcAddr := s.srcAddr
  srcLen := s.srcLen
  dstAddr := s.dstAddr
  dstCap := s.dstCap
  frameW := s.frameW
  frameH := s.frameH
  expLen := s.expLen
  perm := s.rotPerm

/-- The register effect of acceptance (R240): the operands are latched, DONE and TRAIL are cleared, the phase is
BUSY. RESULT_LEN, FAULT_CAUSE, FAULT_INFO, SKIP and SKIP_CNT are not changed. -/
def beginRun (w : Word) (s : State) : State :=
  { s with
    status := { s.status with done := false, trail := false }
    phase := .busy (s.latch w) false }

/-! ### A run's end -/

/-- The completion step (R242): the result stands at `L.DST_ADDR`, RESULT_LEN is its length, TRAIL and DONE are
published, the phase is IDLE. -/
def complete (l : Latched) (out : List Byte) (trail : Bool) (s : State) : State :=
  { s with
    mem := s.mem.writeBytes l.dstAddr.toNat out
    resultLen := BitVec.ofNat 32 out.length
    status := { s.status with trail := trail, done := true }
    phase := .idle
    draws := s.draws + 1 }

/-- The host's copies of the whole destination region are stale where DMA is not coherent: R70's duty to invalidate
covers the region and I13 gives a host that breaks it any value, also at a byte beyond RESULT_LEN, which the engine left
as it was. That such a copy counts as stale is the model's choice, the wider reading (DESIGN CHOICE,
notes/assumptions/7.md). -/
def exposeDestination (l : Latched) (s : State) : State := { s with stale := s.staleAfter [l.destination] }

/-- Taking a fault, the block's one exception entry (R283): cause and info are recorded, RESULT_LEN, TRAIL and DONE
cleared, ERR set, the phase IDLE. Nothing else changes: no register is saved, control goes nowhere. -/
def takeFault (f : FaultRecord) (s : State) : State :=
  { s with
    faultCause := f.cause
    faultInfo := f.info
    resultLen := 0
    status := { s.status with trail := false, done := false, err := true }
    phase := .idle }

/-- Every byte of the regions, which the engine may have written, holds any value (R67, R283, R311), in one draw; on
a platform whose DMA is not coherent the host's copies of it are stale. -/
def scramble (rs : List Region) (s : State) : State :=
  { s with
    mem := s.mem.markAnys rs s.draws
    stale := s.staleAfter rs
    draws := s.draws + 1 }

/-- Taking a data-dependent fault: every destination byte holds any value (R67, R283). -/
def takeDataFault (l : Latched) (f : FaultRecord) (s : State) : State := takeFault f (scramble [l.destination] s)

/-- The return from a fault, and the acknowledgement of a completion: the host's write of `v` to STATUS (R27, R284).
A written 1 clears DONE (bit 1), ERR (bit 2), SKIP (bit 5); the other bits are ignored. FAULT_CAUSE and FAULT_INFO
keep their values. -/
def acknowledge (v : Word) (s : State) : State :=
  { s with
    status := { s.status with
      done := s.status.done && !v.getLsbD 1
      err := s.status.err && !v.getLsbD 2
      skip := s.status.skip && !v.getLsbD 5 } }

/-- The causes a raced run may report: R277 to R281, in code order (R77). -/
def racedCause (n : Nat) : Cause :=
  match n % 5 with
  | 0 => .dstOverflow
  | 1 => .srcTruncated
  | 2 => .decOverrun
  | 3 => .malformed
  | _ => .lenMismatch

/-- The engine's step of a raced run (R77): it completes with any RESULT_LEN from 0 to `L.DST_CAP` or faults with any
cause of R277 to R281 and any FAULT_INFO, TRAIL reads either value also after a fault (notes/assumptions/12.md), and the
destination holds any value. A completion leaves FAULT_CAUSE and FAULT_INFO as they are (notes/assumptions/5.md). -/
def finishRaced (l : Latched) (s : State) : State :=
  let n := Config.raceLength s.draws % (l.dstCap.toNat + 1)
  let t := scramble l.footprint s
  if Config.raceCompletes s.draws then
    { t with
      resultLen := BitVec.ofNat 32 n
      status := { t.status with trail := Config.raceTrail s.draws, done := true }
      phase := .idle }
  else
    let f := takeFault ⟨racedCause (Config.raceCause s.draws), Config.raceInfo s.draws⟩ t
    { f with status := { f.status with trail := Config.raceTrail s.draws } }

end Sys2Proof.Machine
end

