-- ==== Sys2Proof/Machine/Operands.lean ====
section
/-! DEFINITION. The operand checks every command shares (60_exceptions.md R282) and the shape of a command over the
latched operand set (00_scope.md R12, 30_encoding.md R83). -/

namespace Sys2Proof.Machine

/-- A 32-bit FAULT_INFO word from a number. -/
def infoWord (n : Nat) : Word := BitVec.ofNat 32 n

/-- What a command's pseudocode ends in when it does not raise: `Ok(out, trail)` (R12, R242). -/
structure CommandResult where
  out : List Byte
  trail : Bool
deriving DecidableEq, Repr

/-- The range check (R274): the source region first. -/
def rangeFault (l : Latched) : Option FaultRecord :=
  if Config.spaceSize < l.srcAddr.toNat + l.srcLen.toNat then some ⟨.addrRange, 0⟩
  else if Config.spaceSize < l.dstAddr.toNat + l.dstCap.toNat then some ⟨.addrRange, 1⟩
  else none

/-- The overlap check (R275): FAULT_INFO is the lowest address common to both regions. -/
def overlapFault (l : Latched) : Option FaultRecord :=
  if regionsOverlap l.source l.destination then some ⟨.overlap, infoWord (max l.srcAddr.toNat l.dstAddr.toNat)⟩
  else none

/-- The `MemAdmit` check over both whole regions (R276): the source region first. -/
def busFault (p : Platform) (l : Latched) : Option FaultRecord :=
  match lowestRejected p l.source with
  | some a => some ⟨.busError, infoWord a⟩
  | none =>
    match lowestRejected p l.destination with
    | some a => some ⟨.busError, infoWord a⟩
    | none => none

/-- DST_OVERFLOW's record (R277). -/
def overflowRecord (l : Latched) : FaultRecord := ⟨.dstOverflow, l.dstCap⟩

/-- The static capacity check of a command whose output length is known from the operands (R277). -/
def capacityFault (need : Option Nat) (l : Latched) : Option FaultRecord :=
  match need with
  | some n => if l.dstCap.toNat < n then some (overflowRecord l) else none
  | none => none

/-- `Checks(L)` of R282 after its first line, for a command that uses memory: geometry, range, overlap, bus, static
capacity, in that order, the first that applies. No memory is accessed. -/
def checkFault (p : Platform) (geometry : Option FaultRecord) (need : Option Nat) (l : Latched) : Option FaultRecord :=
  match geometry with
  | some f => some f
  | none =>
    match rangeFault l with
    | some f => some f
    | none =>
      match overlapFault l with
      | some f => some f
      | none =>
        match busFault p l with
        | some f => some f
        | none => capacityFault need l

/-- The dynamic capacity check of SPENC and COMPRESS (R277): after the output is computed, before it is written. -/
def fitOutput (l : Latched) (out : List Byte) : Except FaultRecord CommandResult :=
  if l.dstCap.toNat < out.length then .error (overflowRecord l) else .ok ⟨out, false⟩

/-- The end of a run in which a check of R282 finds the fault `f`: that fault. A raced run ends so or in any way R77
admits, as the free value of the draw says (notes/assumptions/5.md). -/
def finishChecked (f : FaultRecord) (l : Latched) (raced : Bool) (s : State) : State :=
  if raced then
    if Config.raceChecked s.draws then { takeFault f s with draws := s.draws + 1 } else finishRaced l s
  else takeFault f s

/-- The engine's completion or fault step (R242) for a command that uses memory: its checks (R282), then its
transform of the source bytes. A fault of the checks leaves memory and the host's copies as they are, a fault of the transform is
data-dependent (R283). A raced run ends in any way R77 admits (notes/assumptions/5.md). -/
def finishRun (geometry : Option FaultRecord) (need : Option Nat)
    (transform : List Byte → Except FaultRecord CommandResult) (l : Latched) (raced : Bool) (s : State) : State :=
  match checkFault s.platform geometry need l with
  | some f => finishChecked f l raced s
  | none =>
    if raced then finishRaced l s
    else
      match transform (s.sourceBytes l) with
      | .ok r => complete l r.out r.trail (exposeDestination l s)
      | .error f => takeDataFault l f s

/-- The engine evaluates a command only while the phase is `BUSY(L)`; IDLE does nothing (R242, R250). -/
def whileBusy (finish : Latched → Bool → State → State) (s : State) : Host.Outcome State Fault Refusal :=
  match s.phase with
  | .idle => .next s
  | .busy l raced => .next (finish l raced s)

end Sys2Proof.Machine
end

