-- ==== Sys2Proof/Machine/Flags.lean ====
section
/-! DEFINITION. The register words made of fields: STATUS with its derived bits, CTRL, FAULT_CAUSE, ROT_PERM, and the
interrupt output (10_state.md R24 to R27, R37 to R40; 60_exceptions.md R287). -/

namespace Sys2Proof.Machine

/-- STATUS.BUSY: the engine phase (R21, R26). -/
def State.isBusy (s : State) : Bool :=
  match s.phase with
  | .idle => false
  | .busy _ _ => true

/-- The interrupt output `irq`, and STATUS.IRQ: `CTRL.IRQ_EN AND (DONE OR ERR)` at every instant (R26, R287). -/
def State.irq (s : State) : Bool := s.ctrl.irqEn && (s.status.done || s.status.err)

/-- Bit `k` of a register word. -/
def bitAt (k : Nat) (b : Bool) : Word := BitVec.ofNat 32 (b.toNat * 2 ^ k)

/-- What STATUS reads (R26). -/
def statusWord (s : State) : Word :=
  bitAt 0 s.isBusy ||| bitAt 1 s.status.done ||| bitAt 2 s.status.err ||| bitAt 3 s.irq |||
    bitAt 4 s.status.trail ||| bitAt 5 s.status.skip

/-- The two bits of ZMODE (R24). -/
def zmodeBits : ZMode → Word
  | .chain => 0
  | .cont => 1
  | .split => 2

/-- What CTRL reads (R24): bits 31:5 are 0. -/
def ctrlWord (c : Ctrl) : Word :=
  bitAt 0 c.irqEn ||| bitAt 1 c.dseg ||| (zmodeBits c.zmode <<< 2) ||| bitAt 4 c.tailm

/-- ZMODE after a write of the two bits `v` (R25): 0b11 keeps the old value. -/
def zmodeWritten (old : ZMode) (v : Nat) : ZMode :=
  match v with
  | 0 => .chain
  | 1 => .cont
  | 2 => .split
  | _ => old

/-- CTRL after a host write of `v` (R25). -/
def ctrlWritten (c : Ctrl) (v : Word) : Ctrl where
  irqEn := v.getLsbD 0
  dseg := v.getLsbD 1
  zmode := zmodeWritten c.zmode (v.extractLsb' 2 2).toNat
  tailm := v.getLsbD 4

/-- The cause codes (R271). -/
def causeCode : Cause → Word
  | .none => 0x0
  | .illegalCmd => 0x1
  | .badGeometry => 0x2
  | .addrRange => 0x3
  | .overlap => 0x4
  | .busError => 0x5
  | .dstOverflow => 0x6
  | .srcTruncated => 0x7
  | .decOverrun => 0x8
  | .malformed => 0x9
  | .lenMismatch => 0xA

/-- `π(p)`: field `p` of ROT_PERM, bits `3p+2 : 3p` (R39). -/
def permField (v : BitVec 24) (p : Nat) : Nat := (v.extractLsb' (3 * p) 3).toNat

/-- The eight fields of ROT_PERM. -/
def permFields (v : BitVec 24) : List Nat := (List.range 8).map (permField v)

/-- Whether the eight fields are pairwise distinct (R40). -/
def isPermutation (v : BitVec 24) : Bool := decide (permFields v).Nodup

/-- ROT_PERM after a host write of `v` (R40). -/
def permWritten (old : BitVec 24) (v : Word) : BitVec 24 :=
  if isPermutation (v.extractLsb' 0 24) then v.extractLsb' 0 24 else old

end Sys2Proof.Machine
end

