-- ==== Sys2Proof/Machine/DeltaSign.lean ====
section
/-! DEFINITION. The sign-fold tables and the delta encoder: FOLD, UNFOLD, DENC, DDEC (41_delta_sign.md). -/

namespace Sys2Proof.Machine

/-- The FOLD table (R130); the byte width is the `mod 256`. -/
def foldByte (i : Byte) : Byte := if i.getLsbD 7 then ((i ^^^ 0x7F) <<< 1) ||| 1 else i <<< 1

/-- The UNFOLD table (R132). -/
def unfoldByte (c : Byte) : Byte := if c.getLsbD 0 then 0xFF - (c >>> 1) else c >>> 1

/-- The predecessor of byte `i`: 0 where a segment starts (R133). -/
def chainPrev (dseg : Bool) (w i : Nat) (prev : Byte) : Byte := if !dseg && i % w == 0 then 0 else prev

/-- The loop of R133 from index `i` on, `prev` the byte before. -/
def deltaEncodeFrom (dseg : Bool) (w : Nat) : Nat → Byte → List Byte → List Byte
  | _, _, [] => []
  | i, prev, b :: t => foldByte (b - chainPrev dseg w i prev) :: deltaEncodeFrom dseg w (i + 1) b t

/-- The loop of R134 from index `i` on, `prev` the byte last put out. -/
def deltaDecodeFrom (dseg : Bool) (w : Nat) : Nat → Byte → List Byte → List Byte
  | _, _, [] => []
  | i, prev, e :: t =>
    let f := chainPrev dseg w i prev + unfoldByte e
    f :: deltaDecodeFrom dseg w (i + 1) f t

/-- `DeltaEncode` (R133). -/
def deltaEncode (dseg : Bool) (w : Nat) (s : List Byte) : List Byte := deltaEncodeFrom dseg w 0 0 s

/-- `DeltaDecode` (R134). -/
def deltaDecode (dseg : Bool) (w : Nat) (e : List Byte) : List Byte := deltaDecodeFrom dseg w 0 0 e

/-- The geometry check of DENC and DDEC (R273): only with DSEG = 0, and only FRAME_W = 0. -/
def rowFault (l : Latched) : Option FaultRecord :=
  if !l.dseg && l.frameW.toNat == 0 then some ⟨.badGeometry, 1⟩ else none

/-- FOLD (R135). -/
def execFold (s : State) : Host.Outcome State Fault Refusal :=
  whileBusy (fun l => finishRun none (some l.srcLen.toNat) (fun src => .ok ⟨src.map foldByte, false⟩) l) s

/-- UNFOLD (R136). -/
def execUnfold (s : State) : Host.Outcome State Fault Refusal :=
  whileBusy (fun l => finishRun none (some l.srcLen.toNat) (fun src => .ok ⟨src.map unfoldByte, false⟩) l) s

/-- DENC (R137). -/
def execDenc (s : State) : Host.Outcome State Fault Refusal :=
  whileBusy (fun l => finishRun (rowFault l) (some l.srcLen.toNat)
    (fun src => .ok ⟨deltaEncode l.dseg l.frameW.toNat src, false⟩) l) s

/-- DDEC (R138). -/
def execDdec (s : State) : Host.Outcome State Fault Refusal :=
  whileBusy (fun l => finishRun (rowFault l) (some l.srcLen.toNat)
    (fun src => .ok ⟨deltaDecode l.dseg l.frameW.toNat src, false⟩) l) s

end Sys2Proof.Machine
end

