-- ==== Sys2Proof/Machine/Rotator.lean ====
section
/-! DEFINITION. The bit-plane rotator: ROT and UNROT (40_rotator.md). -/

namespace Sys2Proof.Machine

/-- `bit(b, k)` (R6). -/
def bitOf (b : Byte) (k : Nat) : Bool := b.getLsbD k

/-- The byte whose bit `p` is `f p`: `Σ_{p=0..7} f(p) << p` (R101). -/
def packByte (f : Nat → Bool) : Byte :=
  BitVec.ofNat 8 ((f 0).toNat + 2 * (f 1).toNat + 4 * (f 2).toNat + 8 * (f 3).toNat +
    16 * (f 4).toNat + 32 * (f 5).toNat + 64 * (f 6).toNat + 128 * (f 7).toNat)

/-- Byte `j` of a group or tail. -/
def byteAt (x : List Byte) (j : Nat) : Byte := x.getD j 0

/-- `π⁻¹(j)`: the `p` with `π(p) = j` (R102). -/
def permInverse (perm : BitVec 24) (j : Nat) : Nat := (permFields perm).idxOf j

/-- `RotG_π` (R101): output byte `k` collects bit `k` of every input byte, bit position `p` that of input byte `π(p)`. -/
def rotateGroup (perm : BitVec 24) (x : List Byte) : List Byte :=
  (List.range 8).map (fun k => packByte (fun p => bitOf (byteAt x (permField perm p)) k))

/-- `UnrotG_π` (R102). -/
def unrotateGroup (perm : BitVec 24) (y : List Byte) : List Byte :=
  (List.range 8).map (fun j => packByte (fun k => bitOf (byteAt y k) (permInverse perm j)))

/-- `RotT` (R103): with TAILM = 0 bit `i = k·m + j` of the output string is bit `k` of byte `j`; with TAILM = 1 a copy. -/
def rotateTail (tailm : Bool) (x : List Byte) : List Byte :=
  if tailm then x
  else (List.range x.length).map (fun q =>
    packByte (fun r => bitOf (byteAt x ((8 * q + r) % x.length)) ((8 * q + r) / x.length)))

/-- `UnrotT` (R104). -/
def unrotateTail (tailm : Bool) (y : List Byte) : List Byte :=
  if tailm then y
  else (List.range y.length).map (fun j =>
    packByte (fun k => bitOf (byteAt y ((k * y.length + j) / 8)) ((k * y.length + j) % 8)))

/-- `g` groups through `group`, then what is left through `tail` (R100, R105). -/
def mapGroups (group tail : List Byte → List Byte) : Nat → List Byte → List Byte
  | 0, s => tail s
  | g + 1, s => group (s.take Config.groupBytes) ++ mapGroups group tail g (s.drop Config.groupBytes)

/-- `Rotate_{π,tm}` (R105). -/
def rotateBuffer (perm : BitVec 24) (tailm : Bool) (s : List Byte) : List Byte :=
  mapGroups (rotateGroup perm) (rotateTail tailm) (s.length / Config.groupBytes) s

/-- `Unrotate_{π,tm}` (R105). -/
def unrotateBuffer (perm : BitVec 24) (tailm : Bool) (s : List Byte) : List Byte :=
  mapGroups (unrotateGroup perm) (unrotateTail tailm) (s.length / Config.groupBytes) s

/-- ROT (R107). -/
def execRot (s : State) : Host.Outcome State Fault Refusal :=
  whileBusy (fun l => finishRun none (some l.srcLen.toNat)
    (fun src => .ok ⟨rotateBuffer l.perm l.tailm src, false⟩) l) s

/-- UNROT (R108). -/
def execUnrot (s : State) : Host.Outcome State Fault Refusal :=
  whileBusy (fun l => finishRun none (some l.srcLen.toNat)
    (fun src => .ok ⟨unrotateBuffer l.perm l.tailm src, false⟩) l) s

end Sys2Proof.Machine
end

