-- ==== Sys2Proof/Machine/Span.lean ====
section
/-! DEFINITION. The span/run-length encoder and decoder: SPENC, SPDEC (42_span.md). -/

namespace Sys2Proof.Machine

/-- A byte from a number. -/
def byteOf (n : Nat) : Byte := BitVec.ofNat 8 n

/-- `ZeroRunCode(n, z)` for a run of `n ≥ 1` zeros (R162 to R165). -/
def zeroRunCode (z : ZMode) (n : Nat) : List Byte :=
  match z with
  | .chain => List.replicate ((n - 1) / Config.chainStep) 0x7F ++ [byteOf ((n - 1) % Config.chainStep)]
  | .cont =>
    if n - 1 < Config.chainStep then [byteOf (n - 1)]
    else 0x7F :: (List.replicate ((n - 1 - Config.chainStep) / Config.contStep) 0xFF ++
      [byteOf ((n - 1 - Config.chainStep) % Config.contStep)])
  | .split =>
    List.replicate (n / Config.splitLimit) 0x7F ++
      (if n % Config.splitLimit = 0 then [] else [byteOf (n % Config.splitLimit - 1)])

/-- The length of the zero run the bytes start with: always the whole maximal run (R166). -/
def zeroRunLength : List Byte → Nat
  | [] => 0
  | b :: t => if b = 0 then zeroRunLength t + 1 else 0

/-- Whether a literal span ends before this point: a zero byte followed by another zero or by the end (R166). -/
def literalEnds : List Byte → Bool
  | [] => true
  | b :: t => b == 0 && (match t with | [] => true | c :: _ => c == 0)

/-- The length of the literal span the bytes start with, at most `limit` (R166). -/
def literalLength : Nat → List Byte → Nat
  | 0, _ => 0
  | _, [] => 0
  | limit + 1, b :: t => if literalEnds (b :: t) then 0 else literalLength limit t + 1

/-- The loop of R166; `fuel` bounds the number of tokens, of which each takes at least one byte. -/
def spanEncodeFrom (z : ZMode) : Nat → List Byte → List Byte
  | 0, _ => []
  | _, [] => []
  | fuel + 1, b :: t =>
    if b = 0 then
      let n := zeroRunLength (b :: t)
      zeroRunCode z n ++ spanEncodeFrom z fuel ((b :: t).drop n)
    else
      let n := literalLength Config.literalLimit (b :: t)
      byteOf (0x80 + (n - 1)) :: ((b :: t).take n ++ spanEncodeFrom z fuel ((b :: t).drop n))

/-- `SpanEncode` (R166). -/
def spanEncode (z : ZMode) (r : List Byte) : List Byte := spanEncodeFrom z r.length r

/-- A zero-run token once read: the sum `v` of its bytes (its run is `v + 1` zeros), the offset after it, the bytes
after it. -/
structure RunToken where
  v : Nat
  next : Nat
  rest : List Byte
deriving DecidableEq, Repr

/-- The continuation bytes of a CHAIN zero run (R162, R168): `ho` the header's offset, `i` the next byte's. -/
def chainRest (ho : Nat) : Nat → Nat → List Byte → Except FaultRecord RunToken
  | _, _, [] => .error ⟨.srcTruncated, infoWord ho⟩
  | i, v, h :: t =>
    if h.getLsbD 7 then .error ⟨.malformed, infoWord i⟩
    else if h = 0x7F then chainRest ho (i + 1) (v + h.toNat) t
    else .ok ⟨v + h.toNat, i + 1, t⟩

/-- The continuation bytes of a CONT zero run (R163, R168). -/
def contRest (ho : Nat) : Nat → Nat → List Byte → Except FaultRecord RunToken
  | _, _, [] => .error ⟨.srcTruncated, infoWord ho⟩
  | i, v, c :: t => if c = 0xFF then contRest ho (i + 1) (v + c.toNat) t else .ok ⟨v + c.toNat, i + 1, t⟩

/-- The rest of the zero-run token whose header `h` stood at offset `ho` (R162 to R164, R168). -/
def runToken (z : ZMode) (ho : Nat) (h : Byte) (t : List Byte) : Except FaultRecord RunToken :=
  match z with
  | .chain => if h = 0x7F then chainRest ho (ho + 1) h.toNat t else .ok ⟨h.toNat, ho + 1, t⟩
  | .cont => if h = 0x7F then contRest ho (ho + 1) h.toNat t else .ok ⟨h.toNat, ho + 1, t⟩
  | .split => .ok ⟨h.toNat, ho + 1, t⟩

/-- `out` put before a decoder's further output. -/
def prependOutput (out : List Byte) : Except FaultRecord CommandResult → Except FaultRecord CommandResult
  | .ok r => .ok ⟨out ++ r.out, r.trail⟩
  | .error f => .error f

/-- The loop of R168 at offset `i`, with the bytes `rest` of the stream left and `need` output bytes to go. `fuel`
bounds the number of tokens, of which each takes at least one byte; where it is 0, `rest` is empty. -/
def spanDecodeFrom (z : ZMode) : Nat → Nat → List Byte → Nat → Except FaultRecord CommandResult
  | _, _, rest, 0 => .ok ⟨[], !rest.isEmpty⟩
  | 0, i, _, _ + 1 => .error ⟨.srcTruncated, infoWord i⟩
  | _, i, [], _ + 1 => .error ⟨.srcTruncated, infoWord i⟩
  | fuel + 1, i, h :: t, need + 1 =>
    if h.getLsbD 7 then
      let n := (h.extractLsb' 0 7).toNat + 1
      if need + 1 < n then .error ⟨.decOverrun, infoWord i⟩
      else if t.length < n then .error ⟨.srcTruncated, infoWord i⟩
      else prependOutput (t.take n) (spanDecodeFrom z fuel (i + 1 + n) (t.drop n) (need + 1 - n))
    else
      match runToken z i h t with
      | .error f => .error f
      | .ok k =>
        if need + 1 < k.v + 1 then .error ⟨.decOverrun, infoWord i⟩
        else prependOutput (List.replicate (k.v + 1) 0) (spanDecodeFrom z fuel k.next k.rest (need + 1 - (k.v + 1)))

/-- `SpanDecode(S, X)` (R168); `trail` says whether bytes of `S` are left (R169). -/
def spanDecode (z : ZMode) (x : Nat) (s : List Byte) : Except FaultRecord CommandResult :=
  spanDecodeFrom z s.length 0 s x

/-- SPENC (R172). -/
def execSpenc (s : State) : Host.Outcome State Fault Refusal :=
  whileBusy (fun l => finishRun none none (fun src => fitOutput l (spanEncode l.zmode src)) l) s

/-- SPDEC (R173). -/
def execSpdec (s : State) : Host.Outcome State Fault Refusal :=
  whileBusy (fun l => finishRun none (some l.expLen.toNat) (fun src => spanDecode l.zmode l.expLen.toNat src) l) s

end Sys2Proof.Machine
end

