-- ==== Sys2Proof/Machine/Frame.lean ====
section
/-! DEFINITION. The frame pipeline: COMPRESS, DECOMPRESS (43_frame.md). -/

namespace Sys2Proof.Machine

/-- The length block `LB(v)` (R200). -/
def lengthBlock (v : Nat) : List Byte :=
  if v < Config.lengthHead then [byteOf v]
  else byteOf Config.lengthHead :: (List.replicate ((v - Config.lengthHead) / Config.lengthStep) (byteOf Config.lengthStep) ++
    [byteOf ((v - Config.lengthHead) % Config.lengthStep)])

/-- `|LB(v)|` (R201). -/
def lengthBlockSize (v : Nat) : Nat :=
  if v < Config.lengthHead then 1 else 2 + (v - Config.lengthHead) / Config.lengthStep

/-- `N = W × H`, a mathematical integer (R203). -/
def frameBytes (l : Latched) : Nat := l.frameW.toNat * l.frameH.toNat

/-- `T = |LB(N)| + N` (R202). -/
def bufferBytes (l : Latched) : Nat := lengthBlockSize (frameBytes l) + frameBytes l

/-- The geometry check of COMPRESS (`withSource`, sub-codes 1 to 5) and of DECOMPRESS (1, 2, 3, 5) (R273). -/
def frameFault (withSource : Bool) (l : Latched) : Option FaultRecord :=
  if l.frameW.toNat = 0 then some ⟨.badGeometry, 1⟩
  else if l.frameH.toNat = 0 then some ⟨.badGeometry, 2⟩
  else if Config.spaceSize ≤ frameBytes l then some ⟨.badGeometry, 3⟩
  else if withSource && l.srcLen.toNat != frameBytes l then some ⟨.badGeometry, 4⟩
  else if Config.spaceSize ≤ bufferBytes l then some ⟨.badGeometry, 5⟩
  else none

/-- The pre-rotation buffer `P` (R202). -/
def frameBuffer (l : Latched) (frame : List Byte) : List Byte :=
  lengthBlock (frameBytes l) ++ deltaEncode l.dseg l.frameW.toNat frame

/-- COMPRESS's transform of a frame (R203). -/
def compressBytes (l : Latched) (frame : List Byte) : List Byte :=
  spanEncode l.zmode (rotateBuffer l.perm l.tailm (frameBuffer l frame))

/-- The index from `k` on of the first byte of the block that the buffer does not have (R204). -/
def firstMismatch : Nat → List Byte → List Byte → Option Nat
  | _, _, [] => none
  | k, [], _ :: _ => some k
  | k, p :: ps, b :: bs => if p = b then firstMismatch (k + 1) ps bs else some k

/-- DECOMPRESS's steps after the span decoding (R204): unrotate, compare the length block, decode the deltas. -/
def rebuildFrame (l : Latched) (r : CommandResult) : Except FaultRecord CommandResult :=
  let p := unrotateBuffer l.perm l.tailm r.out
  let b := lengthBlock (frameBytes l)
  match firstMismatch 0 p b with
  | some k => .error ⟨.lenMismatch, infoWord k⟩
  | none => .ok ⟨deltaDecode l.dseg l.frameW.toNat (p.drop b.length), r.trail⟩

/-- DECOMPRESS's transform of a compressed frame (R204). -/
def decompressBytes (l : Latched) (s : List Byte) : Except FaultRecord CommandResult :=
  match spanDecode l.zmode (bufferBytes l) s with
  | .error f => .error f
  | .ok r => rebuildFrame l r

/-- COMPRESS (R203). -/
def execCompress (s : State) : Host.Outcome State Fault Refusal :=
  whileBusy (fun l => finishRun (frameFault true l) none (fun src => fitOutput l (compressBytes l src)) l) s

/-- DECOMPRESS (R204). -/
def execDecompress (s : State) : Host.Outcome State Fault Refusal :=
  whileBusy (fun l => finishRun (frameFault false l) (some (frameBytes l)) (decompressBytes l) l) s

end Sys2Proof.Machine
end

