-- ==== Sys2Proof/Machine/Control.lean ====
section
/-! DEFINITION. Command control: NOP, acceptance and drop of a CMD write, the engine's choice of the command it runs,
reset (44_control.md, 70_reset_and_hazards.md). -/

namespace Sys2Proof.Machine

/-- NOP (R243): no region check runs and no memory is touched; RESULT_LEN 0, TRAIL 0. -/
def execNop (s : State) : Host.Outcome State Fault Refusal :=
  whileBusy (fun l _ => complete l [] false) s

/-- The record of an illegal word's fault: FAULT_INFO is the whole word (R272). -/
def illegalRecord (w : Word) : FaultRecord := ⟨.illegalCmd, w⟩

/-- Acceptance of the word `w` (R240): an illegal word (R82) takes its fault in the same atomic step. -/
def acceptCommand (w : Word) (s : State) : State :=
  match decode w with
  | .ok _ => beginRun w s
  | .error _ => takeFault (illegalRecord w) (beginRun w s)

/-- A dropped CMD write (R241): SKIP is set and SKIP_CNT counts it, modulo 2^32; nothing else. -/
def dropCommand (s : State) : State :=
  { s with
    status := { s.status with skip := true }
    skipCnt := s.skipCnt + 1 }

/-- A host write of the word `w` to CMD: accepted iff the phase is IDLE and ERR = 0 (R240), else dropped (R241). -/
def offerCommand (w : Word) (s : State) : State :=
  if s.isBusy || s.status.err then dropCommand s else acceptCommand w s

/-- The engine's step (R242, R250): while the phase is `BUSY(L)` it runs the command that `L.WORD` decodes to; IDLE
does nothing. A word that is no command takes its fault, the first line of R282; acceptance lets none through. -/
def runLatched (run : Instr → State → Host.Outcome State Fault Refusal) (s : State) : Host.Outcome State Fault Refusal :=
  match s.phase with
  | .idle => .next s
  | .busy l _ =>
    match decode l.word with
    | .ok i => run i s
    | .error _ => .next (takeFault (illegalRecord l.word) s)

/-- Where the engine may have written in the run in flight: its destination region, never its source (R67, R311). -/
def runFootprint (s : State) : List Region :=
  match s.phase with
  | .idle => []
  | .busy l _ =>
    if l.usesMemory then l.footprint else []

/-- Reset (R310, R311): every register takes its reset value and the phase is IDLE. DMA memory is not written, but
the destination of a run that reset ends holds any value. -/
def resetBlock (s : State) : State :=
  let t := if s.isBusy then scramble (runFootprint s) s else s
  { State.reset with
    mem := t.mem
    dirty := t.dirty
    stale := t.stale
    platform := t.platform
    inputs := t.inputs
    answer := t.answer
    draws := t.draws }

/-- An instant at which only the engine's step falls. -/
def engineInstant : Instant := ⟨false, none, true⟩

/-- The machine with the word `w` just accepted and the engine's step next: the phase is BUSY with `w` latched
(R240), ERR is 0 as it is in every run, and the engine's step falls at the next instant. -/
def placeCommand (w : Word) (s : State) : State :=
  let t := beginRun w { s with status := { s.status with err := false } }
  { t with
    inputs := match s.inputs with
      | [] => []
      | is => engineInstant :: is }

end Sys2Proof.Machine
end

