-- ==== Sys2Proof/Machine/Host.lean ====
section
/-! DEFINITION. The host's side: the register window, host accesses to it and to the DMA memory, and the order of
simultaneous events (10_state.md R22 to R43, 20_memory.md, 60_exceptions.md R289). -/

namespace Sys2Proof.Machine

/-- The registers of the window (R22). -/
inductive Reg where
  | id
  | ctrl
  | status
  | cmd
  | srcAddr
  | srcLen
  | dstAddr
  | dstCap
  | frameW
  | frameH
  | expLen
  | resultLen
  | faultCause
  | faultInfo
  | rotPerm
  | skipCnt
  | lutProbe
  /-- Offsets 0x44 to 0x7C (R43). -/
  | unassigned
deriving DecidableEq, Repr

/-- The register at a byte offset of the window (R22). -/
def regAt (off : Nat) : Reg :=
  match off with
  | 0x00 => .id
  | 0x04 => .ctrl
  | 0x08 => .status
  | 0x0C => .cmd
  | 0x10 => .srcAddr
  | 0x14 => .srcLen
  | 0x18 => .dstAddr
  | 0x1C => .dstCap
  | 0x20 => .frameW
  | 0x24 => .frameH
  | 0x28 => .expLen
  | 0x2C => .resultLen
  | 0x30 => .faultCause
  | 0x34 => .faultInfo
  | 0x38 => .rotPerm
  | 0x3C => .skipCnt
  | 0x40 => .lutProbe
  | _ => .unassigned

/-- What LUT_PROBE reads (R42). -/
def lutWord (idx : Byte) : Word :=
  (idx.setWidth 32 <<< 16) ||| ((unfoldByte idx).setWidth 32 <<< 8) ||| (foldByte idx).setWidth 32

/-- What a host read of the register returns; it has no effect on the block (R22 to R43, R245). -/
def readReg (r : Reg) (s : State) : Word :=
  match r with
  | .id => Config.idValue
  | .ctrl => ctrlWord s.ctrl
  | .status => statusWord s
  | .cmd => 0
  | .srcAddr => s.srcAddr
  | .srcLen => s.srcLen
  | .dstAddr => s.dstAddr
  | .dstCap => s.dstCap
  | .frameW => s.frameW
  | .frameH => s.frameH
  | .expLen => s.expLen
  | .resultLen => s.resultLen
  | .faultCause => causeCode s.faultCause
  | .faultInfo => s.faultInfo
  | .rotPerm => s.rotPerm.setWidth 32
  | .skipCnt => s.skipCnt
  | .lutProbe => lutWord s.lutIndex
  | .unassigned => 0

/-- The effect of a host write of `v` to the register, whatever the phase (R22 to R43, R244). A write to a read-only
or unassigned register is ignored. -/
def writeReg (r : Reg) (v : Word) (s : State) : State :=
  match r with
  | .id => s
  | .ctrl => { s with ctrl := ctrlWritten s.ctrl v }
  | .status => acknowledge v s
  | .cmd => offerCommand v s
  | .srcAddr => { s with srcAddr := v }
  | .srcLen => { s with srcLen := v }
  | .dstAddr => { s with dstAddr := v }
  | .dstCap => { s with dstCap := v }
  | .frameW => { s with frameW := v }
  | .frameH => { s with frameH := v }
  | .expLen => { s with expLen := v }
  | .resultLen => s
  | .faultCause => s
  | .faultInfo => s
  | .rotPerm => { s with rotPerm := permWritten s.rotPerm v }
  | .skipCnt => s
  | .lutProbe => { s with lutIndex := v.extractLsb' 0 8 }
  | .unassigned => s

/-- The register a host access names: defined only for an aligned 32-bit access inside the window (R63). -/
def windowReg (p : Platform) (width : AccessWidth) (addr : Nat) : Except Refusal Reg :=
  if addr < regBase p ∨ regBase p + Config.windowBytes ≤ addr then .error .outsideWindow
  else if width = .bits32 ∧ (addr - regBase p) % 4 = 0 then .ok (regAt (addr - regBase p))
  else .error .undefinedRegisterAccess

/-- Whether every address of the region is backed DMA memory (R5, R60, R65). -/
def backed (p : Platform) (r : Region) : Bool := regionInRange r && (lowestRejected p r).isNone

/-- The phase after an agent other than the engine has written the regions: a run that uses one of their bytes is
raced (R77). -/
def phaseAfterWrite (rs : List Region) : Phase → Phase
  | .idle => .idle
  | .busy l raced =>
    .busy l (raced || (l.usesMemory && rs.any (fun r => regionsOverlap r l.source || regionsOverlap r l.destination)))

/-- Whether the byte is one of the running command's destination region (R68). -/
def inRunDestination (s : State) (a : Nat) : Bool :=
  match s.phase with
  | .idle => false
  | .busy l _ => l.usesMemory && inRegion l.destination a

/-- What a host reads at a DMA address: any value in the destination of a run (R68), or where the host's copy is
stale on a platform whose DMA is not coherent (R70, I13); else the memory's byte. The hosts share one list of stale
copies and one of uncleaned writes, whichever host reads (DESIGN CHOICE, notes/assumptions/7.md). -/
def hostByte (s : State) (a : Nat) : Byte :=
  if inRunDestination s a || (!s.platform.coherent && inRegions s.stale a) then Config.anyByte s.draws a
  else s.mem.read a

/-- A host read of a register: the answer, and no effect on the block. -/
def hostRegRead (width : AccessWidth) (addr : Nat) (s : State) : Host.Outcome State Fault Refusal :=
  match windowReg s.platform width addr with
  | .ok r => .next { s with answer := some (.word (readReg r s)) }
  | .error e => .refused e

/-- A host write of a register. -/
def hostRegWrite (width : AccessWidth) (addr : Nat) (v : Word) (s : State) : Host.Outcome State Fault Refusal :=
  match windowReg s.platform width addr with
  | .ok r => .next (writeReg r v s)
  | .error e => .refused e

/-- A host access that needs the region to be backed memory. -/
def onBacked (s : State) (r : Region) (t : State) : Host.Outcome State Fault Refusal :=
  if backed s.platform r then .next t else .fault .unbackedHostAddress

/-- A host read of DMA memory (R68, R70). -/
def hostMemRead (addr len : Nat) (s : State) : Host.Outcome State Fault Refusal :=
  onBacked s ⟨addr, len⟩
    { s with
      answer := some (.bytes ((List.range len).map (fun k => hostByte s (addr + k))))
      draws := s.draws + 1 }

/-- A host write, or another agent's, to DMA memory (R69, R77). -/
def hostMemWrite (addr : Nat) (bytes : List Byte) (s : State) : Host.Outcome State Fault Refusal :=
  let r : Region := ⟨addr, bytes.length⟩
  onBacked s r
    { s with
      mem := s.mem.writeBytes addr bytes
      phase := phaseAfterWrite [r] s.phase
      dirty := if s.platform.coherent then s.dirty else r :: regionsMinus s.dirty r
      stale := if s.platform.coherent then s.stale else regionsMinus s.stale r }

/-- The host cleans its caches over a region (R69): its writes there reach memory, which races a run that uses one of
those bytes. A byte the engine has written over an uncleaned host write holds any value afterwards. On a coherent
platform nothing happens. All of this is the model's choice, and so is that one host's clean cleans for all
hosts, whose caches the model does not tell apart (DESIGN CHOICE, notes/assumptions/7.md). -/
def hostClean (addr len : Nat) (s : State) : Host.Outcome State Fault Refusal :=
  let r : Region := ⟨addr, len⟩
  let hits := regionsCommon s.dirty r
  onBacked s r
    (if s.platform.coherent then s
     else
      { s with
        mem := s.mem.markAnys (hits.flatMap (fun h => regionsCommon s.stale h)) s.draws
        phase := phaseAfterWrite hits s.phase
        dirty := regionsMinus s.dirty r
        draws := s.draws + 1 })

/-- The host invalidates its cached copies over a region (R70): later reads show memory. A host write not cleaned
before is lost or not, so its bytes hold any value afterwards. The spec does not say whether that is another agent's
write to a running command's regions; the model takes it as one, as for a clean, so such a run is raced. Nor does it say
whether several hosts share their caches; the model has one for all, so one host's invalidate ends the staleness for
every host (DESIGN CHOICE, notes/assumptions/7.md). On a coherent platform nothing happens. -/
def hostInvalidate (addr len : Nat) (s : State) : Host.Outcome State Fault Refusal :=
  let r : Region := ⟨addr, len⟩
  let hits := regionsCommon s.dirty r
  onBacked s r
    (if s.platform.coherent then s
     else
      { s with
        mem := s.mem.markAnys hits s.draws
        phase := phaseAfterWrite hits s.phase
        dirty := regionsMinus s.dirty r
        stale := regionsMinus s.stale r
        draws := s.draws + 1 })

/-- One host access. -/
def hostAccess (a : HostAccess) (s : State) : Host.Outcome State Fault Refusal :=
  match a with
  | .regRead width addr => hostRegRead width addr s
  | .regWrite width addr v => hostRegWrite width addr v s
  | .memRead addr len => hostMemRead addr len s
  | .memWrite addr bytes => hostMemWrite addr bytes s
  | .cacheClean addr len => hostClean addr len s
  | .cacheInvalidate addr len => hostInvalidate addr len s

/-- The host access of an instant, if there is one. -/
def hostStep (a : Option HostAccess) (s : State) : Host.Outcome State Fault Refusal :=
  match a with
  | none => .next s
  | some x => hostAccess x s

/-- What falls at one instant, in the order of R289: reset first, and it overrides everything; then the host's
access; then the engine's step, if the scheduler lets it fall here and a run was open when the instant began. R289
orders register accesses; that a memory access or a cache operation of the host falls before the engine's step too, and
is discarded where reset falls, is the model's choice (DESIGN CHOICE, notes/assumptions/21.md). -/
def instantStep (engine : State → Host.Outcome State Fault Refusal) (i : Instant) (s : State) :
    Host.Outcome State Fault Refusal :=
  if i.reset then .next (resetBlock s)
  else
    match hostStep i.access s with
    | .next t => if i.engine && s.isBusy then engine t else .next t
    | .fault f => .fault f
    | .refused r => .refused r

/-- One step: the next instant that comes from outside (R71), or, where none is left, the engine's step, so that
every accepted command ends after finitely many steps (R248, R315). -/
def advance (engine : State → Host.Outcome State Fault Refusal) (s : State) : Host.Outcome State Fault Refusal :=
  match s.inputs with
  | [] => engine s
  | i :: rest => instantStep engine i { s with inputs := rest }

end Sys2Proof.Machine
end

