-- ==== Sys2Proof/Machine/Dispatch.lean ====
section
/-! DEFINITION. The command's meaning: the engine's completion or fault step while the command is in flight (R242). -/

namespace Sys2Proof.Machine

def exec (i : Instr) (s : State) : Host.Outcome State Fault Refusal :=
  match i with
  | .nop => Sys2Proof.Machine.execNop s
  | .rot => Sys2Proof.Machine.execRot s
  | .unrot => Sys2Proof.Machine.execUnrot s
  | .fold => Sys2Proof.Machine.execFold s
  | .unfold => Sys2Proof.Machine.execUnfold s
  | .denc => Sys2Proof.Machine.execDenc s
  | .ddec => Sys2Proof.Machine.execDdec s
  | .spenc => Sys2Proof.Machine.execSpenc s
  | .spdec => Sys2Proof.Machine.execSpdec s
  | .compress => Sys2Proof.Machine.execCompress s
  | .decompress => Sys2Proof.Machine.execDecompress s

end Sys2Proof.Machine
end

