-- ==== Sys2Proof/Machine/Step.lean ====
section
/-! DEFINITION. One step of the machine: one instant of the outside and of the engine (R242, R250, R289). -/

namespace Sys2Proof.Machine

/-- One step (R250). -/
def step (s : State) : Host.Outcome State Fault Refusal := advance (runLatched exec) s

/-- `s` with the opcode-table word placed where the engine's next step takes its command from: the latched operand
set, with the phase BUSY (R44, R240; notes/assumptions/3.md). -/
def State.withFetchWord (s : State) (nbits w : Nat) : State := placeCommand (tableWord nbits w) s

end Sys2Proof.Machine
end

