-- ==== Sys2Proof/Machine/HostNotation.lean ====
section
/-! DEFINITION. The host notation (30_encoding.md R85, R86): host programs as lists of lines, each line the bus accesses
it stands for, run against the block. It is not an instruction set of the block; it drives `step` from outside. -/

namespace Sys2Proof.Machine

/-- What a line writes, compares with or names: a constant, or the host's temporary `tN`. -/
inductive HostValue where
  | const (v : Word)
  | temp (n : Nat)
deriving DecidableEq, Repr

/-- The forms of R85. A label is a number. R85 says "a constant, or a temporary" of `v` in its WR row alone; that `v` of
BEQ and BNE, `m` of BIT and `a` and `n` of MW and MR are either too, as 32-bit values, and that the bytes of MW are
constants, is the model's choice (DESIGN CHOICE, notes/assumptions/13.md). -/
inductive HostLine where
  | label (name : Nat)
  | wr (r : Reg) (v : HostValue)
  | rd (t : Nat) (r : Reg)
  | mw (addr : HostValue) (bytes : List Byte)
  | mr (t : Nat) (addr len : HostValue)
  | bit (t : Nat) (mask : HostValue) (target : Nat)
  | beq (t : Nat) (v : HostValue) (target : Nat)
  | bne (t : Nat) (v : HostValue) (target : Nat)
  | jmp (target : Nat)
  | halt
deriving DecidableEq, Repr

/-- A host in the middle of its program: the next line, the temporaries `t0` to `t7`, and the machine it drives. -/
structure HostRun where
  line : Nat
  temps : List Answer
  halted : Bool
  machine : State
deriving DecidableEq, Repr

/-- `offset(NAME)` of R22. -/
def offsetOf (r : Reg) : Nat :=
  match r with
  | .id => 0x00
  | .ctrl => 0x04
  | .status => 0x08
  | .cmd => 0x0C
  | .srcAddr => 0x10
  | .srcLen => 0x14
  | .dstAddr => 0x18
  | .dstCap => 0x1C
  | .frameW => 0x20
  | .frameH => 0x24
  | .expLen => 0x28
  | .resultLen => 0x2C
  | .faultCause => 0x30
  | .faultInfo => 0x34
  | .rotPerm => 0x38
  | .skipCnt => 0x3C
  | .lutProbe => 0x40
  | .unassigned => 0x44

/-- The word a temporary holds; a temporary that holds bytes, or none, counts as 0. -/
def tempWord (temps : List Answer) (n : Nat) : Word :=
  match temps[n]? with
  | some (.word v) => v
  | _ => 0

/-- The word a line writes, compares with or names. -/
def hostValue (temps : List Answer) (v : HostValue) : Word :=
  match v with
  | .const w => w
  | .temp n => tempWord temps n

/-- What `MW` does: the host memory write of R85, and the clean by which the host keeps the order of R69 between an MW
and a later WR CMD. That it cleans at once, not only before the WR CMD, is the model's choice, since R69 leaves how it
cleans outside the block (DESIGN CHOICE, notes/assumptions/13.md). A clean does nothing where DMA is coherent. -/
def writeAccesses (addr : Nat) (bytes : List Byte) : List HostAccess :=
  [.memWrite addr bytes, .cacheClean addr bytes.length]

/-- What `MR` does: the host memory read of R85, after the invalidate that R70 asks of a host that reads a result. That
every MR invalidates, and cleans before so that no write of the host is lost by it, is the model's choice (DESIGN CHOICE,
notes/assumptions/13.md). Both do nothing where DMA is coherent. -/
def readAccesses (addr len : Nat) : List HostAccess :=
  [.cacheClean addr len, .cacheInvalidate addr len, .memRead addr len]

/-- The accesses a line makes, in order (R85): a register is named by `REG_BASE + offset(NAME)`. -/
def lineAccess (p : Platform) (temps : List Answer) (line : HostLine) : List HostAccess :=
  match line with
  | .label _ => []
  | .wr r v => [.regWrite .bits32 (regBase p + offsetOf r) (hostValue temps v)]
  | .rd _ r => [.regRead .bits32 (regBase p + offsetOf r)]
  | .mw addr bytes => writeAccesses (hostValue temps addr).toNat bytes
  | .mr _ addr len => readAccesses (hostValue temps addr).toNat (hostValue temps len).toNat
  | .bit _ _ _ => []
  | .beq _ _ _ => []
  | .bne _ _ _ => []
  | .jmp _ => []
  | .halt => []

/-- The temporary a read line fills. -/
def lineTemp (line : HostLine) : Option Nat :=
  match line with
  | .rd t _ => some t
  | .mr t _ _ => some t
  | _ => none

/-- The temporaries after the line, with the answer the bus gave. -/
def tempsAfter (line : HostLine) (answer : Option Answer) (temps : List Answer) : List Answer :=
  match lineTemp line, answer with
  | some t, some a => temps.set t a
  | _, _ => temps

/-- The position of a label, the first of that name; a label that is not there ends the program (DESIGN CHOICE,
notes/assumptions/13.md). -/
def labelLine (program : List HostLine) (name : Nat) : Nat := program.findIdx (fun x => x == .label name)

/-- The line after this one. -/
def nextLine (program : List HostLine) (temps : List Answer) (line : HostLine) (here : Nat) : Nat :=
  match line with
  | .bit t m target => if tempWord temps t &&& hostValue temps m = 0 then here + 1 else labelLine program target
  | .beq t v target => if tempWord temps t = hostValue temps v then labelLine program target else here + 1
  | .bne t v target => if tempWord temps t = hostValue temps v then here + 1 else labelLine program target
  | .jmp target => labelLine program target
  | .halt => here
  | _ => here + 1

/-- The machine after one instant of its own. -/
def stepInstant (i : Instant) (s : State) : Host.Outcome State Fault Refusal := step { s with inputs := i :: s.inputs }

/-- The machine after the accesses, each at an instant of its own. -/
def stepAccesses : List HostAccess → State → Host.Outcome State Fault Refusal
  | [], s => .next s
  | a :: rest, s =>
    match stepInstant ⟨false, some a, false⟩ s with
    | .next t => stepAccesses rest t
    | .fault f => .fault f
    | .refused e => .refused e

/-- The machine after the line's accesses. The engine's step falls between lines, not between the accesses of one
(DESIGN CHOICE, notes/assumptions/13.md). -/
def stepLine (line : HostLine) (r : HostRun) : Host.Outcome State Fault Refusal :=
  stepAccesses (lineAccess r.machine.platform r.temps line) r.machine

/-- One line of a host program. R85 gives HALT as the end of the program and does not say what happens past the last
line of one that has no HALT there: the model ends it (DESIGN CHOICE, notes/assumptions/13.md). -/
def hostLine (program : List HostLine) (r : HostRun) : Host.Outcome HostRun Fault Refusal :=
  match program[r.line]? with
  | none => .next { r with halted := true }
  | some line =>
    match stepLine line r with
    | .next t => .next
        { line := nextLine program r.temps line r.line
          temps := tempsAfter line t.answer r.temps
          halted := r.halted || line == .halt
          machine := t }
    | .fault f => .fault f
    | .refused e => .refused e

/-- A host program run for one line per entry of the schedule; `true` lets the engine's step fall before the line
(R315). -/
def runHost (program : List HostLine) : List Bool → HostRun → Host.Outcome HostRun Fault Refusal
  | [], r => .next r
  | e :: schedule, r =>
    match (if e then stepInstant engineInstant r.machine else .next r.machine) with
    | .next t =>
      match hostLine program { r with machine := t } with
      | .next r' => runHost program schedule r'
      | .fault f => .fault f
      | .refused x => .refused x
    | .fault f => .fault f
    | .refused x => .refused x

/-- A host at the first line of its program, its temporaries 0. -/
def hostStart (s : State) : HostRun := ⟨0, List.replicate 8 (.word 0), false, s⟩

/-! ### Pseudo-instructions (R86) -/

/-- `CMD MNEM`. -/
def pseudoCmd (i : Instr) : List HostLine := [.wr .cmd (.const (encode i))]

/-- `WAIT`, with the number its label takes. -/
def pseudoWait (w : Nat) : List HostLine := [.label w, .rd 7 .status, .bit 7 (.const 0x1) w]

/-- `ACK`. -/
def pseudoAck : List HostLine := [.wr .status (.const 0x00000026)]

/-- `SETPERM π0..π7`. -/
def pseudoSetPerm (perm : List Nat) : List HostLine :=
  [.wr .rotPerm (.const (BitVec.ofNat 32 (perm.foldr (fun p acc => p + 8 * acc) 0)))]

/-- `MODE irq, dseg, zmode, tailm`. -/
def pseudoMode (irq dseg zmode tailm : Nat) : List HostLine :=
  [.wr .ctrl (.const (BitVec.ofNat 32 (irq ||| dseg <<< 1 ||| zmode <<< 2 ||| tailm <<< 4)))]

/-- `RUN MNEM`. -/
def pseudoRun (i : Instr) (w : Nat) : List HostLine := pseudoCmd i ++ pseudoWait w

end Sys2Proof.Machine
end

