-- ==== Sys2Proof/Safety.lean ====
section
/-! DEFINITION. The terms the claims use: when a command may run, what its completion and its fault leave, and the
invariant of the machine (10_state.md R46, 44_control.md, 60_exceptions.md). -/

namespace Sys2Proof.Machine

/-! ### When a command may run -/

/-- The range, overlap and `MemAdmit` conditions of R282 hold for both regions of the latched operand set. -/
structure RegionsUsable (p : Platform) (l : Latched) : Prop where
  source_in_range : l.srcAddr.toNat + l.srcLen.toNat ≤ Config.spaceSize
  destination_in_range : l.dstAddr.toNat + l.dstCap.toNat ≤ Config.spaceSize
  apart : ∀ a, inRegion l.source a = true → inRegion l.destination a = false
  source_admitted : ∀ a, inRegion l.source a = true → memAdmit p a = true
  destination_admitted : ∀ a, inRegion l.destination a = true → memAdmit p a = true

/-- The geometry conditions that COMPRESS and DECOMPRESS share (R203, R204; sub-codes 1, 2, 3, 5 of R273). -/
structure FrameUsable (l : Latched) : Prop where
  width_pos : 0 < l.frameW.toNat
  height_pos : 0 < l.frameH.toNat
  frame_fits : frameBytes l < Config.spaceSize
  buffer_fits : bufferBytes l < Config.spaceSize

/-- The row condition of DENC and DDEC (R273). -/
def RowsUsable (l : Latched) : Prop := l.dseg = true ∨ 0 < l.frameW.toNat

/-- The geometry check of each command, the second line of R282. -/
def geometryFault (i : Instr) (l : Latched) : Option FaultRecord :=
  match i with
  | .nop => none
  | .rot => none
  | .unrot => none
  | .fold => none
  | .unfold => none
  | .denc => rowFault l
  | .ddec => rowFault l
  | .spenc => none
  | .spdec => none
  | .compress => frameFault true l
  | .decompress => frameFault false l

/-- The output length that a command's static capacity check compares with `L.DST_CAP` (R277). -/
def staticNeed (i : Instr) (l : Latched) : Option Nat :=
  match i with
  | .nop => none
  | .rot => some l.srcLen.toNat
  | .unrot => some l.srcLen.toNat
  | .fold => some l.srcLen.toNat
  | .unfold => some l.srcLen.toNat
  | .denc => some l.srcLen.toNat
  | .ddec => some l.srcLen.toNat
  | .spenc => none
  | .spdec => some l.expLen.toNat
  | .compress => none
  | .decompress => some (frameBytes l)

/-- Every check of R282 lets the command through. -/
structure ChecksPass (i : Instr) (p : Platform) (l : Latched) : Prop where
  geometry : geometryFault i l = none
  regions : RegionsUsable p l
  capacity : ∀ n, staticNeed i l = some n → n ≤ l.dstCap.toNat

/-! ### What a step leaves -/

/-- The registers of R22 that neither a completion nor a fault writes. -/
structure RegistersKept (s t : State) : Prop where
  ctrl : t.ctrl = s.ctrl
  srcAddr : t.srcAddr = s.srcAddr
  srcLen : t.srcLen = s.srcLen
  dstAddr : t.dstAddr = s.dstAddr
  dstCap : t.dstCap = s.dstCap
  frameW : t.frameW = s.frameW
  frameH : t.frameH = s.frameH
  expLen : t.expLen = s.expLen
  rotPerm : t.rotPerm = s.rotPerm
  skipCnt : t.skipCnt = s.skipCnt
  lutIndex : t.lutIndex = s.lutIndex
  skip : t.status.skip = s.status.skip

/-- What stands outside the block and its memory. -/
structure OutsideKept (s t : State) : Prop where
  platform : t.platform = s.platform
  inputs : t.inputs = s.inputs
  dirty : t.dirty = s.dirty
  answer : t.answer = s.answer

/-- Every byte outside the region reads in `t` as it did in `s`. -/
def MemoryKeptOutside (r : Region) (s t : State) : Prop := ∀ a, inRegion r a = false → t.mem.read a = s.mem.read a

/-- The host's copies of the region are stale where DMA is not coherent, and no other copy changes (R70). -/
def HostCopiesStale (r : Region) (s t : State) : Prop :=
  (s.platform.coherent = true → t.stale = s.stale) ∧
  (s.platform.coherent = false → ∀ a, inRegions t.stale a = (inRegion r a || inRegions s.stale a))

/-- `t` is `s` after the completion step of a command with the result `out` and `trail` (R67, R242); nothing is said
of the host's copies. -/
structure Published (l : Latched) (out : List Byte) (trail : Bool) (s t : State) : Prop where
  result : ∀ k (h : k < out.length), t.mem.read (l.dstAddr.toNat + k) = out[k]
  elsewhere : MemoryKeptOutside ⟨l.dstAddr.toNat, out.length⟩ s t
  resultLen : t.resultLen.toNat = out.length
  done : t.status.done = true
  trail : t.status.trail = trail
  err : t.status.err = s.status.err
  phase : t.phase = .idle
  faultCause : t.faultCause = s.faultCause
  faultInfo : t.faultInfo = s.faultInfo
  registers : RegistersKept s t
  outside : OutsideKept s t

/-- `t` is `s` after the completion of a command that uses memory, with the result `out` and `trail`: besides, the
host's copies of the whole destination region are stale where DMA is not coherent (notes/assumptions/7.md). -/
structure Completed (l : Latched) (out : List Byte) (trail : Bool) (s t : State) : Prop where
  published : Published l out trail s t
  copies : HostCopiesStale l.destination s t

/-- `t` is `s` after the fault step with the record `f` (R283), but for memory. -/
structure FaultTaken (f : FaultRecord) (s t : State) : Prop where
  faultCause : t.faultCause = f.cause
  faultInfo : t.faultInfo = f.info
  resultLen : t.resultLen = 0
  trail : t.status.trail = false
  done : t.status.done = false
  err : t.status.err = true
  phase : t.phase = .idle
  registers : RegistersKept s t
  outside : OutsideKept s t

/-- `t` is `s` after a fault of the checks: no memory has been accessed (R283). So no copy of the host's turns stale,
which is the model's choice (notes/assumptions/7.md). -/
structure CheckFaultTaken (f : FaultRecord) (s t : State) : Prop where
  entry : FaultTaken f s t
  memory : t.mem = s.mem
  copies : t.stale = s.stale

/-- `t` is `s` after a data-dependent fault: nothing is said of the destination's bytes (R67, R283), of which the host's
copies are stale where DMA is not coherent (notes/assumptions/7.md). -/
structure DataFaultTaken (l : Latched) (f : FaultRecord) (s t : State) : Prop where
  entry : FaultTaken f s t
  elsewhere : MemoryKeptOutside l.destination s t
  copies : HostCopiesStale l.destination s t

/-- The engine's step of `i` at `s` is the fault step with the record `f`, and no memory has been accessed. -/
def EndsInCheckFault (i : Instr) (f : FaultRecord) (s : State) : Prop := ∃ t, exec i s = .next t ∧ CheckFaultTaken f s t

/-- The engine's step of `i` at `s` is the fault step with the record `f`, raised by the data. -/
def EndsInDataFault (i : Instr) (l : Latched) (f : FaultRecord) (s : State) : Prop :=
  ∃ t, exec i s = .next t ∧ DataFaultTaken l f s t

/-- The causes of R277 to R281, which alone can depend on data. -/
def Cause.dataDependent (c : Cause) : Bool :=
  match c with
  | .none => false
  | .illegalCmd => false
  | .badGeometry => false
  | .addrRange => false
  | .overlap => false
  | .busError => false
  | .dstOverflow => true
  | .srcTruncated => true
  | .decOverrun => true
  | .malformed => true
  | .lenMismatch => true

/-! ### Span streams as tokens (R160) -/

/-- A token of a span stream: literal bytes (R161), or a run of zeros (R162 to R164). -/
inductive SpanToken where
  | literal (bytes : List Byte)
  | zeros (n : Nat)
deriving DecidableEq, Repr

/-- The tokens the format has: 1 to 128 literal bytes; at least one zero, and in SPLIT mode at most 128. -/
def SpanToken.valid (z : ZMode) (k : SpanToken) : Bool :=
  match k with
  | .literal bs => decide (1 ≤ bs.length) && decide (bs.length ≤ 128)
  | .zeros n => decide (1 ≤ n) && (z != .split || decide (n ≤ 128))

/-- The bytes of a token (R161, R165). -/
def SpanToken.code (z : ZMode) (k : SpanToken) : List Byte :=
  match k with
  | .literal bs => byteOf (0x80 + (bs.length - 1)) :: bs
  | .zeros n => zeroRunCode z n

/-- The bytes a token stands for. -/
def SpanToken.output (k : SpanToken) : List Byte :=
  match k with
  | .literal bs => bs
  | .zeros n => List.replicate n 0

/-- The stream of the tokens (R160): no header, no terminator, no padding. -/
def streamOf (z : ZMode) (ks : List SpanToken) : List Byte := ks.flatMap (SpanToken.code z)

/-- What the tokens stand for. -/
def outputOf (ks : List SpanToken) : List Byte := ks.flatMap SpanToken.output

/-- Whether R166 writes a literal of these bytes before the tokens `rest`: 1 to 128 bytes that neither begin with a zero
nor hold two in a row; before the end or a zero run the last is not zero. It is as long as it can be: another literal
follows only one of 128 bytes, and a shorter one stands only before two zeros or more, a last zero, or the end. -/
def literalChosen (bs : List Byte) (rest : List SpanToken) : Bool :=
  decide (1 ≤ bs.length) && decide (bs.length ≤ 128) && bs.head? != some 0 &&
  (bs.zip bs.tail).all (fun p => p.1 != 0 || p.2 != 0) &&
  match rest with
  | [] => bs.getLast? != some 0
  | .literal _ :: _ => bs.length == 128
  | .zeros n :: after => bs.getLast? != some 0 && (bs.length == 128 || decide (2 ≤ n) || after.isEmpty)

/-- Whether R166 writes a zero run of `n` before the tokens `rest`: at least one zero, and always the whole maximal run. -/
def zerosChosen (n : Nat) (rest : List SpanToken) : Bool :=
  decide (1 ≤ n) &&
  match rest with
  | [] => true
  | .literal _ :: _ => true
  | .zeros _ :: _ => false

/-- Whether the tokens are the ones R166 chooses for what they stand for, its code written out as conditions. -/
def encoderChoice : List SpanToken → Bool
  | [] => true
  | .literal bs :: rest => literalChosen bs rest && encoderChoice rest
  | .zeros n :: rest => zerosChosen n rest && encoderChoice rest

/-! ### The host's accesses to the window -/

/-- A 32-bit read at a byte offset of the window (R85). -/
def windowRead (p : Platform) (off : Nat) : HostAccess := .regRead .bits32 (regBase p + off)

/-- A 32-bit write at a byte offset of the window (R85). -/
def windowWrite (p : Platform) (off : Nat) (v : Word) : HostAccess := .regWrite .bits32 (regBase p + off) v

/-- The registers a host reads and writes freely: every 32-bit value reads back (R29 to R35). -/
def Reg.isOperand (r : Reg) : Bool :=
  match r with
  | .srcAddr | .srcLen | .dstAddr | .dstCap | .frameW | .frameH | .expLen => true
  | .id | .ctrl | .status | .cmd | .resultLen | .faultCause | .faultInfo | .rotPerm | .skipCnt | .lutProbe
  | .unassigned => false

/-- What every register reads right after reset (R48). -/
def resetReading (r : Reg) : Word :=
  match r with
  | .id => 0x42500700
  | .frameW => 0x000003C0
  | .frameH => 0x0000021C
  | .rotPerm => 0x00FAC688
  | .ctrl | .status | .cmd | .srcAddr | .srcLen | .dstAddr | .dstCap | .expLen | .resultLen | .faultCause
  | .faultInfo | .skipCnt | .lutProbe | .unassigned => 0

/-! ### The invariant -/

/-- What holds at every instant: the memory's canonical form, and R46. CTRL.ZMODE and FAULT_CAUSE are held as names of
their legal values, so their part of R46 is no condition here. -/
structure Inv (s : State) : Prop where
  memory_canonical : s.mem.wf = true
  permutation_held : isPermutation s.rotPerm = true
  run_open : ∀ l raced, s.phase = .busy l raced →
    s.status.done = false ∧ s.status.err = false ∧ s.status.trail = false ∧ isPermutation l.perm = true ∧
      ∃ i, decode l.word = .ok i

/-- Nothing is held at an address outside the DMA space (R60). -/
def MemoryInSpace (m : Memory) : Prop :=
  (∀ c ∈ m.cells, c.1 < Config.spaceSize) ∧ (∀ r ∈ m.anys, regionStop r.region ≤ Config.spaceSize)

end Sys2Proof.Machine
end

