-- ==== Sys2Proof/Certificates/Slice0/Obligations.lean ====
section
/-! DEFINITION. The statements for the provers, from the numbered rules of the spec: encodings, registers, control,
completion of every command, faults, the transforms, the invariants. OBLIGATIONS.json lists them. -/

open Sys2Proof Sys2Proof.Machine

/-- The 11 words of the opcode map decode to their commands; the first reserved opcode and a set RSVD bit are refused
(R80, R81, R82). -/
def Obligations.DecodeOfSpecWords : Prop :=
  decode 0x00000000 = .ok .nop ∧ decode 0x00000001 = .ok .rot ∧ decode 0x00000002 = .ok .unrot ∧
  decode 0x00000003 = .ok .fold ∧ decode 0x00000004 = .ok .unfold ∧ decode 0x00000005 = .ok .denc ∧
  decode 0x00000006 = .ok .ddec ∧ decode 0x00000007 = .ok .spenc ∧ decode 0x00000008 = .ok .spdec ∧
  decode 0x00000009 = .ok .compress ∧ decode 0x0000000A = .ok .decompress ∧
  decode 0x0000000B = .error (.reservedOpcode 0x0B) ∧ decode 0x00000109 = .error (.reservedBits 0x00000109)

/-- Bytes decode to a command exactly when they are its four command-word bytes followed by the rest (R80, R81, R62).
-/
def Obligations.DecodeAndEncodeAgree : Prop :=
  ∀ (i : Instr) (bs rest : List Byte), decodeBytes bs = .ok (i, rest) ↔ bs = wordBytes (encode i) ++ rest

/-- A step performs the host access of its instant; while BUSY the engine step in it is exec of the latched command,
after that access (R44, R71, R240, R242, R250, R289). That an instant comes from `inputs`, that the engine steps when
none is left and that it does not step at the instant a command is accepted is the model's scheduler
(notes/assumptions/6.md). That a host memory access too comes before the engine step is 21.md. -/
def Obligations.StepRunsTheLatchedCommand : Prop :=
  (∀ (s : State) (x : Instant) (rest : List Instant), s.phase = .idle → s.inputs = x :: rest → x.reset = false →
    step s = hostStep x.access { s with inputs := rest }) ∧
  ∀ (s : State) (l : Latched) (raced : Bool) (i : Instr), s.phase = .busy l raced → decode l.word = .ok i →
    (s.inputs = [] → step s = exec i s) ∧
    ∀ (x : Instant) (rest : List Instant) (u : State), s.inputs = x :: rest → x.reset = false →
      hostStep x.access { s with inputs := rest } = .next u →
        (∃ raced', u.phase = .busy l raced') ∧
        (x.engine = true → step s = exec i u) ∧ (x.engine = false → step s = .next u)

/-- Reset gives every register its reset value, the phase IDLE and irq low; reset of an IDLE block leaves memory as it
is (R48, R310, R311). -/
def Obligations.ResetReadings : Prop :=
  ∀ (s : State) (r : Reg),
    readReg r State.reset = resetReading r ∧ State.reset.phase = .idle ∧
    readReg r (resetBlock s) = resetReading r ∧ (resetBlock s).phase = .idle ∧ (resetBlock s).irq = false ∧
    (resetBlock s).ctrl = ⟨false, false, .chain, false⟩ ∧ (resetBlock s).lutIndex = 0 ∧
    (s.phase = .idle → (resetBlock s).mem = s.mem)

/-- Reset in a run publishes nothing, keeps every source byte and every byte outside the destination, and leaves the
rest any value (R311, R310, R67). The clauses on the destination's bytes rest on notes/assumptions/11.md. -/
def Obligations.ResetDuringRun : Prop :=
  ∀ (s : State) (l : Latched) (raced : Bool), s.phase = .busy l raced →
    (resetBlock s).phase = .idle ∧ (resetBlock s).status = ⟨false, false, false, false⟩ ∧
    readReg .resultLen (resetBlock s) = 0 ∧ readReg .faultCause (resetBlock s) = 0 ∧
    readReg .faultInfo (resetBlock s) = 0 ∧
    MemoryKeptOutside l.destination s (resetBlock s) ∧
    (∀ a, inRegion l.source a = true → (resetBlock s).mem.read a = s.mem.read a) ∧
    (∀ a, l.usesMemory = true → inRegion l.destination a = true → inRegion l.source a = false → a < Config.spaceSize →
      (resetBlock s).mem.read a = Config.anyByte s.draws a) ∧
    (l.usesMemory = false → (resetBlock s).mem = s.mem)

/-- A CTRL write sets IRQ_EN, DSEG, TAILM, and ZMODE only to a legal value (R25). -/
def Obligations.CtrlWrite : Prop :=
  ∀ (s : State) (v : Word), ∃ t, hostAccess (windowWrite s.platform 0x04 v) s = .next t ∧
    t = { s with ctrl := t.ctrl } ∧
    t.ctrl.irqEn = v.getLsbD 0 ∧ t.ctrl.dseg = v.getLsbD 1 ∧ t.ctrl.tailm = v.getLsbD 4 ∧
    (v.extractLsb' 2 2 = 0 → t.ctrl.zmode = .chain) ∧ (v.extractLsb' 2 2 = 1 → t.ctrl.zmode = .cont) ∧
    (v.extractLsb' 2 2 = 2 → t.ctrl.zmode = .split) ∧ (v.extractLsb' 2 2 = 3 → t.ctrl.zmode = s.ctrl.zmode) ∧
    readReg .ctrl t = (v &&& 0x13) ||| (if v &&& 0x0C = 0x0C then readReg .ctrl s &&& 0x0C else v &&& 0x0C) ∧
    readReg .ctrl t &&& 0x0C ≠ 0x0C

/-- A STATUS write clears exactly the W1C bits written 1, and a completion or fault at the same instant wins (R27). -/
def Obligations.StatusWrite : Prop :=
  ∀ (s : State) (v : Word),
    hostAccess (windowWrite s.platform 0x08 v) s = .next
      { s with status := ⟨if v.getLsbD 1 then false else s.status.done, if v.getLsbD 2 then false else s.status.err,
                          s.status.trail, if v.getLsbD 5 then false else s.status.skip⟩ } ∧
    ∀ (l : Latched) (raced : Bool) (i : Instr) (rest : List Instant),
      s.phase = .busy l raced → decode l.word = .ok i →
      s.inputs = ⟨false, some (windowWrite s.platform 0x08 v), true⟩ :: rest →
        ∃ t, step s = .next t ∧ t.phase = .idle ∧ (t.status.done = true ∨ t.status.err = true)

/-- STATUS reads its six bits, IRQ follows IRQ_EN AND (DONE OR ERR), and irq is that same bit (R26, R287, R288). -/
def Obligations.StatusAndInterruptReading : Prop :=
  ∀ (s : State) (k : Nat),
    (readReg .status s).getLsbD k =
      (if k = 0 then s.isBusy else if k = 1 then s.status.done else if k = 2 then s.status.err
       else if k = 3 then s.ctrl.irqEn && (s.status.done || s.status.err)
       else if k = 4 then s.status.trail else if k = 5 then s.status.skip else false) ∧
    s.irq = (readReg .status s).getLsbD 3

/-- A ROT_PERM write takes effect exactly when its eight fields are pairwise distinct (R40). -/
def Obligations.PermWrite : Prop :=
  ∀ (s : State) (v : Word), ∃ t, hostAccess (windowWrite s.platform 0x38 v) s = .next t ∧
    t = { s with rotPerm := t.rotPerm } ∧
    ((∀ p q, p < 8 → q < 8 → v.extractLsb' (3 * p) 3 = v.extractLsb' (3 * q) 3 → p = q) →
      readReg .rotPerm t = v &&& 0x00FFFFFF) ∧
    (¬ (∀ p q, p < 8 → q < 8 → v.extractLsb' (3 * p) 3 = v.extractLsb' (3 * q) 3 → p = q) →
      readReg .rotPerm t = readReg .rotPerm s)

/-- Every value written to SRC_ADDR, SRC_LEN, DST_ADDR, DST_CAP, FRAME_W, FRAME_H or EXP_LEN reads back; no other
register changes (R29, R30, R31, R32, R33, R34, R35, R71). -/
def Obligations.OperandRegistersReadBack : Prop :=
  ∀ (r : Reg) (s : State) (v : Word), r.isOperand = true →
    ∃ t, hostAccess (windowWrite s.platform (offsetOf r) v) s = .next t ∧ readReg r t = v ∧
      (∀ q, q ≠ r → readReg q t = readReg q s) ∧ t.phase = s.phase ∧ t.mem = s.mem

/-- Every offset of R22 reads its own register with no effect, FAULT_CAUSE by the codes of R271; writes to the read-
only registers are ignored; CMD reads 0 (R22, R23, R28, R36, R37, R38, R41, R245, R271). -/
def Obligations.RegisterReadsAndReadOnlyRegisters : Prop :=
  ∀ (s : State) (v : Word),
    (∀ e ∈ [(0x00, (0x42500700 : Word)), (0x04, ctrlWord s.ctrl), (0x08, statusWord s), (0x0C, 0), (0x10, s.srcAddr),
        (0x14, s.srcLen), (0x18, s.dstAddr), (0x1C, s.dstCap), (0x20, s.frameW), (0x24, s.frameH), (0x28, s.expLen),
        (0x2C, s.resultLen), (0x30, causeCode s.faultCause), (0x34, s.faultInfo), (0x38, s.rotPerm.setWidth 32),
        (0x3C, s.skipCnt), (0x40, lutWord s.lutIndex)],
      hostAccess (windowRead s.platform e.1) s = .next { s with answer := some (.word e.2) }) ∧
    (∀ off ∈ [0x00, 0x2C, 0x30, 0x34, 0x3C], hostAccess (windowWrite s.platform off v) s = .next s) ∧
    (∀ e ∈ [(Cause.none, (0x0 : Word)), (.illegalCmd, 0x1), (.badGeometry, 0x2), (.addrRange, 0x3), (.overlap, 0x4),
        (.busError, 0x5), (.dstOverflow, 0x6), (.srcTruncated, 0x7), (.decOverrun, 0x8), (.malformed, 0x9),
        (.lenMismatch, 0xA)],
      readReg .faultCause { s with faultCause := e.1 } = e.2)

/-- Offsets 0x44 to 0x7C read 0 and ignore writes (R43). -/
def Obligations.UnassignedOffsets : Prop :=
  ∀ (s : State) (off : Nat) (v : Word), 0x44 ≤ off → off ≤ 0x7C → off % 4 = 0 →
    hostAccess (windowRead s.platform off) s = .next { s with answer := some (.word 0) } ∧
    hostAccess (windowWrite s.platform off v) s = .next s

/-- A register access has a meaning exactly when it is 32 bits wide, aligned and inside the window; any other is
refused (R61, R63). -/
def Obligations.DefinedRegisterAccesses : Prop :=
  ∀ (s : State) (w : AccessWidth) (addr : Nat) (v : Word),
    ((w = .bits32 ∧ ∃ off, off % 4 = 0 ∧ off ≤ 0x7C ∧ addr = regBase s.platform + off) →
      (∃ t, hostAccess (.regRead w addr) s = .next t) ∧ ∃ t, hostAccess (.regWrite w addr v) s = .next t) ∧
    (¬ (w = .bits32 ∧ ∃ off, off % 4 = 0 ∧ off ≤ 0x7C ∧ addr = regBase s.platform + off) →
      ∃ e, (e = .undefinedRegisterAccess ∨ e = .outsideWindow) ∧
        hostAccess (.regRead w addr) s = .refused e ∧ hostAccess (.regWrite w addr v) s = .refused e)

/-- A LUT_PROBE write sets the index alone; a read returns index, UNFOLD and FOLD of it (R42). -/
def Obligations.LutProbe : Prop :=
  (∀ (s : State) (v : Word),
    hostAccess (windowWrite s.platform 0x40 v) s = .next { s with lutIndex := v.extractLsb' 0 8 } ∧
    hostAccess (windowRead s.platform 0x40) s = .next { s with answer := some (.word (readReg .lutProbe s)) } ∧
    (readReg .lutProbe s).extractLsb' 0 8 = foldByte s.lutIndex ∧
    (readReg .lutProbe s).extractLsb' 8 8 = unfoldByte s.lutIndex ∧
    (readReg .lutProbe s).extractLsb' 16 8 = s.lutIndex ∧
    (readReg .lutProbe s).extractLsb' 24 8 = 0 ∧
    unfoldByte (foldByte s.lutIndex) = s.lutIndex) ∧
  readReg .lutProbe State.reset = 0

/-- A legal command written while IDLE with ERR = 0 is accepted: operands latched, DONE and TRAIL cleared, phase BUSY
(R240, R44, R21). -/
def Obligations.CommandAccepted : Prop :=
  ∀ (s : State) (w : Word) (i : Instr), s.phase = .idle → s.status.err = false → decode w = .ok i →
    hostAccess (windowWrite s.platform 0x0C w) s = .next
      { s with
        status := ⟨false, false, false, s.status.skip⟩
        phase := .busy
          { word := w, dseg := s.ctrl.dseg, zmode := s.ctrl.zmode, tailm := s.ctrl.tailm,
            srcAddr := s.srcAddr, srcLen := s.srcLen, dstAddr := s.dstAddr, dstCap := s.dstCap,
            frameW := s.frameW, frameH := s.frameH, expLen := s.expLen, perm := s.rotPerm } false }

/-- An accepted word with OP 0x0B or above or a set RSVD bit faults ILLEGAL_CMD in the acceptance step (R272, R283).
Which of the host's copies are then stale where DMA is not coherent is the model's choice (notes/assumptions/7.md). -/
def Obligations.IllegalCommandFaults : Prop :=
  ∀ (s : State) (w : Word), s.phase = .idle → s.status.err = false →
    (0x0B ≤ (w.extractLsb' 0 8).toNat ∨ w.extractLsb' 8 24 ≠ 0) →
      ∃ t, hostAccess (windowWrite s.platform 0x0C w) s = .next t ∧ CheckFaultTaken ⟨.illegalCmd, w⟩ s t ∧
        readReg .faultCause t = 0x1 ∧ readReg .faultInfo t = w

/-- A CMD write while BUSY or with ERR = 1 sets SKIP, counts in SKIP_CNT modulo 2^32, and does nothing else (R241). -/
def Obligations.CommandDropped : Prop :=
  ∀ (s : State) (w : Word), (s.isBusy = true ∨ s.status.err = true) →
    hostAccess (windowWrite s.platform 0x0C w) s = .next
      { s with
        status := ⟨s.status.done, s.status.err, s.status.trail, true⟩
        skipCnt := BitVec.ofNat 32 ((s.skipCnt.toNat + 1) % 4294967296) }

/-- A register write during a run changes neither the latched operands nor what the command does (R244, R44, R314). -/
def Obligations.RegisterWritesDuringRunDoNotReachTheCommand : Prop :=
  ∀ (i : Instr) (s : State) (l : Latched) (raced : Bool) (w : AccessWidth) (addr : Nat) (v : Word) (t s' t' : State),
    s.phase = .busy l raced → s.status.err = false → hostAccess (.regWrite w addr v) s = .next t →
    exec i s = .next s' → exec i t = .next t' →
      t.phase = s.phase ∧ t.mem = s.mem ∧ t'.mem = s'.mem ∧ t'.resultLen = s'.resultLen ∧
      t'.faultCause = s'.faultCause ∧ t'.faultInfo = s'.faultInfo ∧ t'.status.done = s'.status.done ∧
      t'.status.err = s'.status.err ∧ t'.status.trail = s'.status.trail

/-- Nothing is carried from one command to the next: the result depends on L, memory and the platform alone (R44, R47,
R83, R315). -/
def Obligations.CommandDependsOnLatchAndMemoryAlone : Prop :=
  ∀ (i : Instr) (s u : State) (l : Latched) (raced : Bool) (s' u' : State),
    s.phase = .busy l raced → u.phase = .busy l raced → u.mem = s.mem → u.platform = s.platform →
    u.dirty = s.dirty → u.draws = s.draws → exec i s = .next s' → exec i u = .next u' →
      u'.mem = s'.mem ∧ u'.resultLen = s'.resultLen ∧ u'.status.done = s'.status.done ∧
      u'.status.trail = s'.status.trail ∧
      (s'.status.done = false → u'.faultCause = s'.faultCause ∧ u'.faultInfo = s'.faultInfo)

/-- Until the engine step of a run, STATUS reads BUSY with DONE, ERR, TRAIL 0 and the result registers keep their
values (R245, R246, R71). -/
def Obligations.NothingPublishedBeforeTheEnd : Prop :=
  ∀ (s : State) (l : Latched) (raced : Bool) (x : Instant) (rest : List Instant) (t : State),
    s.phase = .busy l raced → s.status.done = false → s.status.err = false → s.status.trail = false →
    s.inputs = x :: rest → x.reset = false → x.engine = false → step s = .next t →
      (∃ raced', t.phase = .busy l raced') ∧ t.status.done = false ∧ t.status.err = false ∧ t.status.trail = false ∧
      t.resultLen = s.resultLen ∧ t.faultCause = s.faultCause ∧ t.faultInfo = s.faultInfo

/-- While BUSY every command answers an IDLE next state, DONE with a result within DST_CAP or ERR with none; IDLE does
nothing (R242, R250, R283, R285). -/
def Obligations.EngineStepEndsTheRun : Prop :=
  ∀ (i : Instr) (s : State),
    (∀ (l : Latched) (raced : Bool), s.phase = .busy l raced → s.status.err = false →
      ∃ t, exec i s = .next t ∧ t.phase = .idle ∧
        ((t.status.done = true ∧ t.status.err = false ∧ t.resultLen.toNat ≤ l.dstCap.toNat) ∨
         (t.status.done = false ∧ t.status.err = true ∧ t.resultLen = 0)) ∧
        RegistersKept s t ∧ OutsideKept s t) ∧
    (s.phase = .idle → exec i s = .next s ∧ (s.inputs = [] → step s = .next s))

/-- At one instant reset overrides everything, and a CMD write that meets the engine step is dropped (R289, R27, R241,
R310). That reset also discards a host memory access of its instant is notes/assumptions/21.md. -/
def Obligations.SimultaneousEvents : Prop :=
  ∀ (s : State) (x : Instant) (rest : List Instant), s.inputs = x :: rest →
    (x.reset = true → step s = .next (resetBlock { s with inputs := rest })) ∧
    ∀ (l : Latched) (raced : Bool) (i : Instr) (w : Word), s.phase = .busy l raced → decode l.word = .ok i →
      x.reset = false → x.engine = true → x.access = some (windowWrite s.platform 0x0C w) →
        ∃ t, step s = .next t ∧ t.phase = .idle ∧ t.status.skip = true ∧ t.skipCnt = s.skipCnt + 1

/-- Writing 1 to STATUS bit 2 clears ERR, keeps FAULT_CAUSE and FAULT_INFO, and lets the next command be accepted
(R284, R240, R249, R37). -/
def Obligations.ErrorAcknowledged : Prop :=
  ∀ (s : State) (v w : Word) (i : Instr), s.phase = .idle → v.getLsbD 2 = true → decode w = .ok i →
    ∃ t, hostAccess (windowWrite s.platform 0x08 v) s = .next t ∧ t.status.err = false ∧
      readReg .faultCause t = readReg .faultCause s ∧ readReg .faultInfo t = readReg .faultInfo s ∧
      (t.status.done = false → t.irq = false) ∧
      ∃ u, hostAccess (windowWrite t.platform 0x0C w) t = .next u ∧ u.isBusy = true

/-- NOP completes whatever its operand registers hold: RESULT_LEN 0, TRAIL 0, DONE, memory untouched (R243, R242).
That the host's copies stay as they are where DMA is not coherent is notes/assumptions/7.md. -/
def Obligations.NopCompletes : Prop :=
  ∀ (s : State) (l : Latched) (raced : Bool), s.phase = .busy l raced →
    ∃ t, exec .nop s = .next t ∧ Published l [] false s t ∧ t.resultLen = 0 ∧ t.mem = s.mem ∧ t.stale = s.stale

/-- ROT and UNROT complete with the rotation, respectively the inverse rotation, of their source, and leave everything
else (R107, R108, R67, R242, R84). Which of the host's copies are then stale where DMA is not coherent is the model's
choice (notes/assumptions/7.md). -/
def Obligations.RotAndUnrotComplete : Prop :=
  ∀ (s : State) (l : Latched), s.phase = .busy l false → s.mem.wf = true → RegionsUsable s.platform l →
    l.srcLen.toNat ≤ l.dstCap.toNat →
      (∃ t, exec .rot s = .next t ∧
        Completed l (rotateBuffer l.perm l.tailm (s.sourceBytes l)) false s t ∧ t.resultLen = l.srcLen) ∧
      (∃ t, exec .unrot s = .next t ∧
        Completed l (unrotateBuffer l.perm l.tailm (s.sourceBytes l)) false s t ∧ t.resultLen = l.srcLen)

/-- FOLD and UNFOLD complete with their table applied to each source byte and leave everything else (R135, R136, R67,
R242, R84). Which of the host's copies are then stale where DMA is not coherent is the model's choice
(notes/assumptions/7.md). -/
def Obligations.FoldAndUnfoldComplete : Prop :=
  ∀ (s : State) (l : Latched), s.phase = .busy l false → s.mem.wf = true → RegionsUsable s.platform l →
    l.srcLen.toNat ≤ l.dstCap.toNat →
      (∃ t, exec .fold s = .next t ∧
        Completed l ((s.sourceBytes l).map foldByte) false s t ∧ t.resultLen = l.srcLen) ∧
      (∃ t, exec .unfold s = .next t ∧
        Completed l ((s.sourceBytes l).map unfoldByte) false s t ∧ t.resultLen = l.srcLen)

/-- DENC and DDEC complete with the delta encoding, respectively decoding, of their source and leave everything else
(R137, R138, R67, R242, R84). Which of the host's copies are then stale where DMA is not coherent is the model's
choice (notes/assumptions/7.md). -/
def Obligations.DencAndDdecComplete : Prop :=
  ∀ (s : State) (l : Latched), s.phase = .busy l false → s.mem.wf = true → RegionsUsable s.platform l →
    RowsUsable l → l.srcLen.toNat ≤ l.dstCap.toNat →
      (∃ t, exec .denc s = .next t ∧
        Completed l (deltaEncode l.dseg l.frameW.toNat (s.sourceBytes l)) false s t ∧ t.resultLen = l.srcLen) ∧
      (∃ t, exec .ddec s = .next t ∧
        Completed l (deltaDecode l.dseg l.frameW.toNat (s.sourceBytes l)) false s t ∧ t.resultLen = l.srcLen)

/-- SPENC completes with the span encoding of its source where it fits in DST_CAP, and leaves everything else (R172,
R67, R242, R84). Which of the host's copies are then stale where DMA is not coherent is the model's choice
(notes/assumptions/7.md). -/
def Obligations.SpencCompletes : Prop :=
  ∀ (s : State) (l : Latched),
    s.phase = .busy l false → s.mem.wf = true → RegionsUsable s.platform l →
    (spanEncode l.zmode (s.sourceBytes l)).length ≤ l.dstCap.toNat →
      ∃ t, exec .spenc s = .next t ∧
        Completed l (spanEncode l.zmode (s.sourceBytes l)) false s t

/-- SPDEC completes with the EXP_LEN bytes its source decodes to, TRAIL as the stream leaves it, and leaves everything
else (R173, R169, R67, R242, R84). Which of the host's copies are then stale where DMA is not coherent is the model's
choice (notes/assumptions/7.md). -/
def Obligations.SpdecCompletes : Prop :=
  ∀ (s : State) (l : Latched) (r : CommandResult),
    s.phase = .busy l false → s.mem.wf = true → RegionsUsable s.platform l →
    l.expLen.toNat ≤ l.dstCap.toNat → spanDecode l.zmode l.expLen.toNat (s.sourceBytes l) = .ok r →
      ∃ t, exec .spdec s = .next t ∧
        Completed l r.out r.trail s t ∧ t.resultLen = l.expLen

/-- COMPRESS completes with the span encoding of the rotated length block and deltas where it fits, and leaves
everything else (R203, R202, R67, R242, R84). Which of the host's copies are then stale where DMA is not coherent is
the model's choice (notes/assumptions/7.md). -/
def Obligations.CompressCompletes : Prop :=
  ∀ (s : State) (l : Latched),
    s.phase = .busy l false → s.mem.wf = true → RegionsUsable s.platform l →
    FrameUsable l → l.srcLen.toNat = l.frameW.toNat * l.frameH.toNat →
    (spanEncode l.zmode (rotateBuffer l.perm l.tailm (lengthBlock (l.frameW.toNat * l.frameH.toNat) ++
      deltaEncode l.dseg l.frameW.toNat (s.sourceBytes l)))).length ≤ l.dstCap.toNat →
      ∃ t, exec .compress s = .next t ∧
        Completed l (spanEncode l.zmode (rotateBuffer l.perm l.tailm (lengthBlock (l.frameW.toNat * l.frameH.toNat) ++
          deltaEncode l.dseg l.frameW.toNat (s.sourceBytes l)))) false s t

/-- DECOMPRESS completes with the decoded frame where the stream decodes and carries the right length block (R204,
R169, R67, R242, R84). Which of the host's copies are then stale where DMA is not coherent is the model's choice
(notes/assumptions/7.md). -/
def Obligations.DecompressCompletes : Prop :=
  ∀ (s : State) (l : Latched) (r : CommandResult) (codes : List Byte),
    s.phase = .busy l false → s.mem.wf = true → RegionsUsable s.platform l →
    FrameUsable l → l.frameW.toNat * l.frameH.toNat ≤ l.dstCap.toNat →
    spanDecode l.zmode (bufferBytes l) (s.sourceBytes l) = .ok r →
    unrotateBuffer l.perm l.tailm r.out = lengthBlock (l.frameW.toNat * l.frameH.toNat) ++ codes →
      ∃ t, exec .decompress s = .next t ∧
        Completed l (deltaDecode l.dseg l.frameW.toNat codes) r.trail s t ∧
        t.resultLen.toNat = l.frameW.toNat * l.frameH.toNat

/-- A command computes from the memory bytes of its source as they were at acceptance, where not raced; an uncleaned
host write there is any value (R10, R66, R69, R240, R77). What an uncleaned byte gives is notes/assumptions/7.md; the
second part rests on 15.md and 7.md. -/
def Obligations.SourceBytesAreMemory : Prop :=
  (∀ (s : State) (l : Latched), (s.sourceBytes l).length = l.srcLen.toNat ∧
    (∀ k, k < l.srcLen.toNat → (s.sourceBytes l)[k]? = some
      (if s.platform.coherent = false ∧ inRegions s.dirty (l.srcAddr.toNat + k) = true then
        Config.anyByte s.draws (l.srcAddr.toNat + k) else s.mem.read (l.srcAddr.toNat + k))) ∧
    ((s.platform.coherent = true ∨ ∀ a, inRegion l.source a = true → inRegions s.dirty a = false) →
      s.sourceBytes l = s.mem.readBytes l.srcAddr.toNat l.srcLen.toNat)) ∧
  (∀ (l : Latched) (n : Nat) (path : Nat → State) (x : Option HostAccess) (u : State), l.usesMemory = true →
    (path 0).mem.wf = true → (∀ k, k < n → step (path k) = .next (path (k + 1))) →
    (∀ k, k ≤ n → (path k).phase = .busy l false) → hostStep x (path n) = .next u → u.phase = .busy l false →
      (∀ a, inRegion l.source a = true → u.mem.read a = (path 0).mem.read a) ∧
      (((path 0).platform.coherent = true ∨ ∀ a, inRegion l.source a = true → inRegions (path 0).dirty a = false) →
        u.sourceBytes l = (path 0).sourceBytes l))

/-- A source region past 2^32 faults ADDR_RANGE 0, else a destination region past 2^32 faults ADDR_RANGE 1; NOP does
not check (R274, R282, R283, R243). Which of the host's copies are then stale where DMA is not coherent is the model's
choice (notes/assumptions/7.md). -/
def Obligations.AddrRangeFaults : Prop :=
  ∀ (i : Instr) (s : State) (l : Latched), s.phase = .busy l false → geometryFault i l = none →
    (i ≠ .nop → 4294967296 < l.srcAddr.toNat + l.srcLen.toNat → EndsInCheckFault i ⟨.addrRange, 0⟩ s) ∧
    (i ≠ .nop → l.srcAddr.toNat + l.srcLen.toNat ≤ 4294967296 → 4294967296 < l.dstAddr.toNat + l.dstCap.toNat →
      EndsInCheckFault i ⟨.addrRange, 1⟩ s) ∧
    (i = .nop → ∃ t, exec i s = .next t ∧ t.status.done = true ∧ t.faultCause = s.faultCause ∧ t.mem = s.mem)

/-- Source and destination regions that share an address fault OVERLAP with the lowest common address (R275, R282,
R283). Which of the host's copies are then stale where DMA is not coherent is the model's choice
(notes/assumptions/7.md). -/
def Obligations.OverlapFaults : Prop :=
  ∀ (i : Instr) (s : State) (l : Latched) (a : Nat), i ≠ .nop → s.phase = .busy l false →
    geometryFault i l = none →
    l.srcAddr.toNat + l.srcLen.toNat ≤ 4294967296 → l.dstAddr.toNat + l.dstCap.toNat ≤ 4294967296 →
    inRegion l.source a = true → inRegion l.destination a = true →
      ∃ low : Word, EndsInCheckFault i ⟨.overlap, low⟩ s ∧ low.toNat = max l.srcAddr.toNat l.dstAddr.toNat ∧
        inRegion l.source low.toNat = true ∧ inRegion l.destination low.toNat = true ∧ low.toNat ≤ a

/-- A region with an address that MemAdmit rejects faults BUS_ERROR with the lowest such address, source region first
(R276, R282). Which of the host's copies are then stale where DMA is not coherent is the model's choice
(notes/assumptions/7.md). -/
def Obligations.BusErrorFaults : Prop :=
  ∀ (i : Instr) (s : State) (l : Latched) (a : Nat), i ≠ .nop → s.phase = .busy l false →
    geometryFault i l = none →
    l.srcAddr.toNat + l.srcLen.toNat ≤ 4294967296 → l.dstAddr.toNat + l.dstCap.toNat ≤ 4294967296 →
    (∀ x, inRegion l.source x = true → inRegion l.destination x = false) → memAdmit s.platform a = false →
      (inRegion l.source a = true → (∀ x, inRegion l.source x = true → x < a → memAdmit s.platform x = true) →
        EndsInCheckFault i ⟨.busError, BitVec.ofNat 32 a⟩ s) ∧
      ((∀ x, inRegion l.source x = true → memAdmit s.platform x = true) → inRegion l.destination a = true →
        (∀ x, inRegion l.destination x = true → x < a → memAdmit s.platform x = true) →
        EndsInCheckFault i ⟨.busError, BitVec.ofNat 32 a⟩ s)

/-- An output longer than DST_CAP faults DST_OVERFLOW with FAULT_INFO DST_CAP: before memory is touched, or once it is
computed (R277, R282, R283). Which of the host's copies are then stale where DMA is not coherent is the model's choice
(notes/assumptions/7.md). -/
def Obligations.DstOverflowFaults : Prop :=
  ∀ (i : Instr) (s : State) (l : Latched), s.phase = .busy l false → geometryFault i l = none →
    RegionsUsable s.platform l →
    (i = .rot ∨ i = .unrot ∨ i = .fold ∨ i = .unfold ∨ i = .denc ∨ i = .ddec → l.dstCap.toNat < l.srcLen.toNat →
      EndsInCheckFault i ⟨.dstOverflow, l.dstCap⟩ s) ∧
    (i = .spdec → l.dstCap.toNat < l.expLen.toNat → EndsInCheckFault i ⟨.dstOverflow, l.dstCap⟩ s) ∧
    (i = .decompress → l.dstCap.toNat < l.frameW.toNat * l.frameH.toNat →
      EndsInCheckFault i ⟨.dstOverflow, l.dstCap⟩ s) ∧
    (i = .spenc → l.dstCap.toNat < (spanEncode l.zmode (s.sourceBytes l)).length →
      EndsInDataFault i l ⟨.dstOverflow, l.dstCap⟩ s) ∧
    (i = .compress → l.dstCap.toNat < (compressBytes l (s.sourceBytes l)).length →
      EndsInDataFault i l ⟨.dstOverflow, l.dstCap⟩ s)

/-- DENC, DDEC, COMPRESS and DECOMPRESS fault BAD_GEOMETRY with the sub-code of the first geometry check that fails
(R273, R282, R283). Which of the host's copies are then stale where DMA is not coherent is the model's choice
(notes/assumptions/7.md). -/
def Obligations.BadGeometryFaults : Prop :=
  ∀ (s : State) (l : Latched), s.phase = .busy l false →
    (∀ i, i = .denc ∨ i = .ddec → l.dseg = false → l.frameW = 0 → EndsInCheckFault i ⟨.badGeometry, 1⟩ s) ∧
    (∀ i, i = .compress ∨ i = .decompress →
      if l.frameW = 0 then EndsInCheckFault i ⟨.badGeometry, 1⟩ s
      else if l.frameH = 0 then EndsInCheckFault i ⟨.badGeometry, 2⟩ s
      else if 4294967296 ≤ l.frameW.toNat * l.frameH.toNat then EndsInCheckFault i ⟨.badGeometry, 3⟩ s
      else if i = .compress ∧ l.srcLen.toNat ≠ l.frameW.toNat * l.frameH.toNat then
        EndsInCheckFault i ⟨.badGeometry, 4⟩ s
      else 4294967296 ≤ (lengthBlock (l.frameW.toNat * l.frameH.toNat)).length + l.frameW.toNat * l.frameH.toNat →
        EndsInCheckFault i ⟨.badGeometry, 5⟩ s)

/-- A fault of SpanDecode ends SPDEC and DECOMPRESS in that fault, and nothing outside the destination changes (R173,
R204, R278, R279, R280, R283). Which of the host's copies are then stale where DMA is not coherent is the model's
choice (notes/assumptions/7.md). -/
def Obligations.SpanDecodeFaultsEndTheCommand : Prop :=
  ∀ (i : Instr) (s : State) (l : Latched) (f : FaultRecord), s.phase = .busy l false → ChecksPass i s.platform l →
    ((i = .spdec ∧ spanDecode l.zmode l.expLen.toNat (s.sourceBytes l) = .error f) ∨
     (i = .decompress ∧ spanDecode l.zmode (bufferBytes l) (s.sourceBytes l) = .error f)) →
      EndsInDataFault i l f s ∧ (f.cause = .srcTruncated ∨ f.cause = .decOverrun ∨ f.cause = .malformed)

/-- DECOMPRESS whose unrotated bytes do not begin with the length block faults LEN_MISMATCH at the first differing
byte (R281, R204, R283). Which of the host's copies are then stale where DMA is not coherent is the model's choice
(notes/assumptions/7.md). -/
def Obligations.LenMismatchFaults : Prop :=
  ∀ (s : State) (l : Latched) (r : CommandResult) (k : Nat), s.phase = .busy l false →
    ChecksPass .decompress s.platform l → spanDecode l.zmode (bufferBytes l) (s.sourceBytes l) = .ok r →
    k < (lengthBlock (l.frameW.toNat * l.frameH.toNat)).length →
    (unrotateBuffer l.perm l.tailm r.out)[k]? ≠ (lengthBlock (l.frameW.toNat * l.frameH.toNat))[k]? →
    (∀ j, j < k → (unrotateBuffer l.perm l.tailm r.out)[j]? = (lengthBlock (l.frameW.toNat * l.frameH.toNat))[j]?) →
      EndsInDataFault .decompress l ⟨.lenMismatch, BitVec.ofNat 32 k⟩ s

/-- SpanDecode raises MALFORMED only under CHAIN, at a continuation byte with bit 7 set, and raises it at every such
byte (R280). -/
def Obligations.MalformedOnlyInChain : Prop :=
  (∀ (z : ZMode) (x : Nat) (bs : List Byte) (f : FaultRecord), spanDecode z x bs = .error f → f.cause = .malformed →
    z = .chain ∧ ∃ k b, f.info = BitVec.ofNat 32 (k + 1) ∧ bs[k]? = some 0x7F ∧ bs[k + 1]? = some b ∧
      b.getLsbD 7 = true) ∧
  (∀ (ks : List SpanToken) (x j : Nat) (b : Byte) (rest : List Byte), (∀ k ∈ ks, k.valid .chain = true) →
    (outputOf ks).length < x → b.getLsbD 7 = true →
    spanDecode .chain x (streamOf .chain ks ++ (List.replicate (j + 1) 0x7F ++ b :: rest)) =
      .error ⟨.malformed, BitVec.ofNat 32 ((streamOf .chain ks).length + (j + 1))⟩)

/-- The bytes of every token are those of R161 to R165; SpanDecode reads every token sequence, stops at the expected
length, and names a short or overlong stream (R160, R161, R162, R163, R164, R165, R168, R169, R171, R278, R279). -/
def Obligations.DecoderReadsEveryTokenSequence : Prop :=
  (∀ bs : List Byte, 1 ≤ bs.length → bs.length ≤ 128 → ∀ z, ∃ h : Byte, (SpanToken.literal bs).code z = h :: bs ∧
    h.getLsbD 7 = true ∧ (h.extractLsb' 0 7).toNat + 1 = bs.length) ∧
  (∀ n, 1 ≤ n →
    (∃ (q : Nat) (b : Byte), (SpanToken.zeros n).code .chain = List.replicate q 0x7F ++ [b] ∧ b.toNat ≤ 0x7E ∧
      0x7F * q + b.toNat = n - 1 ∧ ((SpanToken.zeros n).code .chain).length = 1 + (n - 1) / 127) ∧
    (∃ (q : Nat) (b : Byte),
      (((SpanToken.zeros n).code .cont = [b] ∧ b.toNat < 0x7F ∧ b.toNat = n - 1) ∨
        ((SpanToken.zeros n).code .cont = 0x7F :: (List.replicate q 0xFF ++ [b]) ∧ b ≠ 0xFF ∧
          0x7F + 0xFF * q + b.toNat = n - 1)) ∧
      ((SpanToken.zeros n).code .cont).length = (if n ≤ 127 then 1 else 2 + (n - 128) / 255)) ∧
    (n % 128 = 0 → (SpanToken.zeros n).code .split = List.replicate (n / 128) 0x7F) ∧
    (n % 128 ≠ 0 → ∃ b : Byte, (SpanToken.zeros n).code .split = List.replicate (n / 128) 0x7F ++ [b] ∧
      b.toNat + 1 = n % 128) ∧
    ((SpanToken.zeros n).code .split).length = (n + 127) / 128 ∧
    (∀ z, ((SpanToken.zeros n).code z).length ≤ n)) ∧
  ∀ (z : ZMode) (ks : List SpanToken) (rest : List Byte), (∀ k ∈ ks, k.valid z = true) →
    spanDecode z (outputOf ks).length (streamOf z ks ++ rest) = .ok ⟨outputOf ks, !rest.isEmpty⟩ ∧
    (∀ x, (outputOf ks).length < x →
      spanDecode z x (streamOf z ks) = .error ⟨.srcTruncated, BitVec.ofNat 32 (streamOf z ks).length⟩) ∧
    (∀ (k : SpanToken) (x : Nat), k.valid z = true → (outputOf ks).length < x →
      x < (outputOf ks).length + k.output.length →
        spanDecode z x (streamOf z ks ++ (k.code z ++ rest)) =
          .error ⟨.decOverrun, BitVec.ofNat 32 (streamOf z ks).length⟩) ∧
    (∀ (k : SpanToken) (x m : Nat), k.valid z = true → (outputOf ks).length < x →
      (∀ bs, k = .literal bs → (outputOf ks).length + bs.length ≤ x) → 0 < m → m < (k.code z).length →
        spanDecode z x (streamOf z ks ++ (k.code z).take m) =
          .error ⟨.srcTruncated, BitVec.ofNat 32 (streamOf z ks).length⟩) ∧
    (∀ (bs : List Byte) (x m : Nat), (SpanToken.literal bs).valid z = true → (outputOf ks).length < x →
      x < (outputOf ks).length + bs.length → 0 < m →
        spanDecode z x (streamOf z ks ++ ((SpanToken.literal bs).code z).take m) =
          .error ⟨.decOverrun, BitVec.ofNat 32 (streamOf z ks).length⟩)

/-- A raced run completes with at most DST_CAP bytes or faults with a data-dependent cause, as the free values say
(R77). R77 does not say what a raced run that fails a check does, nor that a raced completion keeps FAULT_CAUSE and
FAULT_INFO: both are notes/assumptions/5.md. That TRAIL is free after a raced fault, which R283 would clear, is
notes/assumptions/12.md; which destination bytes hold any value is 11.md. Which of the host's copies are then stale
where DMA is not coherent is the model's choice (notes/assumptions/7.md). -/
def Obligations.RacedRunEndsFreely : Prop :=
  ∀ (i : Instr) (s : State) (l : Latched), i ≠ .nop → s.phase = .busy l true →
    ∃ t, exec i s = .next t ∧ t.phase = .idle ∧ RegistersKept s t ∧ OutsideKept s t ∧
      ((∃ f, checkFault s.platform (geometryFault i l) (staticNeed i l) l = some f ∧ Config.raceChecked s.draws = true ∧
          CheckFaultTaken f s t) ∨
       ((ChecksPass i s.platform l ∨ Config.raceChecked s.draws = false) ∧
        t.status.trail = Config.raceTrail s.draws ∧
        (if Config.raceCompletes s.draws then
          t.status.done = true ∧ t.status.err = s.status.err ∧ t.resultLen.toNat ≤ l.dstCap.toNat ∧
            t.faultCause = s.faultCause ∧ t.faultInfo = s.faultInfo
         else
          t.status.done = false ∧ t.status.err = true ∧ t.resultLen = 0 ∧ t.faultCause.dataDependent = true ∧
            t.faultInfo = Config.raceInfo s.draws) ∧
        MemoryKeptOutside l.destination s t ∧
        (∀ a, inRegion l.source a = true → t.mem.read a = s.mem.read a) ∧
        (∀ a, inRegion l.destination a = true → inRegion l.source a = false → a < Config.spaceSize →
          t.mem.read a = Config.anyByte s.draws a)))

/-- FOLD is the zig-zag code of the signed byte, UNFOLD its two-sided inverse with the closed form of R132 (R132). -/
def Obligations.FoldTables : Prop :=
  ∀ x : Byte,
    ((foldByte x).toNat : Int) = (if 0 ≤ x.toInt then 2 * x.toInt else -2 * x.toInt - 1) ∧
    unfoldByte (foldByte x) = x ∧ foldByte (unfoldByte x) = x ∧
    unfoldByte x = (if x.getLsbD 0 then 0xFF - (x >>> 1) else x >>> 1)

/-- DeltaEncode keeps the length; byte i is FOLD of the difference from the byte before, 0 where a segment starts
(R133). -/
def Obligations.DeltaEncodeBytes : Prop :=
  ∀ (dseg : Bool) (w : Nat) (bs : List Byte), (deltaEncode dseg w bs).length = bs.length ∧
    ∀ i (h : i < bs.length), (deltaEncode dseg w bs)[i]? = some (foldByte
      (bs[i] - (if i = 0 ∨ (dseg = false ∧ i % w = 0) then 0 else bs.getD (i - 1) 0)))

/-- DeltaDecode accumulates UNFOLD codes within each segment and undoes DeltaEncode (R134). -/
def Obligations.DeltaDecodeBytes : Prop :=
  ∀ (dseg : Bool) (w : Nat) (bs : List Byte), (deltaDecode dseg w bs).length = bs.length ∧
    (∀ i (h : i < bs.length), (deltaDecode dseg w bs)[i]? = some
      ((if i = 0 ∨ (dseg = false ∧ i % w = 0) then 0 else (deltaDecode dseg w bs).getD (i - 1) 0) + unfoldByte bs[i])) ∧
    deltaDecode dseg w (deltaEncode dseg w bs) = bs ∧ deltaEncode dseg w (deltaDecode dseg w bs) = bs

/-- Bit p of output byte k of a rotated group is bit k of input byte perm(p); the tail is bit-transposed or copied
(R100, R101, R103, R105, R39). -/
def Obligations.RotationBits : Prop :=
  (∀ (perm : BitVec 24) (tm : Bool) (bs : List Byte), (rotateBuffer perm tm bs).length = bs.length ∧
    (∀ g k p, g < bs.length / 8 → k < 8 → p < 8 →
      ((rotateBuffer perm tm bs).getD (8 * g + k) 0).getLsbD p =
        (bs.getD (8 * g + (perm.extractLsb' (3 * p) 3).toNat) 0).getLsbD k) ∧
    (tm = false → ∀ j k, j < bs.length % 8 → k < 8 →
      ((rotateBuffer perm tm bs).getD (8 * (bs.length / 8) + (k * (bs.length % 8) + j) / 8) 0).getLsbD
          ((k * (bs.length % 8) + j) % 8) =
        (bs.getD (8 * (bs.length / 8) + j) 0).getLsbD k) ∧
    (tm = true → ∀ j, j < bs.length % 8 →
      (rotateBuffer perm tm bs)[8 * (bs.length / 8) + j]? = bs[8 * (bs.length / 8) + j]?)) ∧
  (∀ p, p < 8 → (Config.identityPerm.extractLsb' (3 * p) 3).toNat = p)

/-- Rotation and inverse rotation undo each other, both ways, for every length, permutation and tail mode (R102, R104,
R105). -/
def Obligations.RotatorRoundTrip : Prop :=
  ∀ (perm : BitVec 24) (tm : Bool) (bs : List Byte), isPermutation perm = true →
    unrotateBuffer perm tm (rotateBuffer perm tm bs) = bs ∧ rotateBuffer perm tm (unrotateBuffer perm tm bs) = bs ∧
    (rotateBuffer perm tm bs).length = bs.length ∧ (unrotateBuffer perm tm bs).length = bs.length

/-- A span encoding is at most twice its input, and N plus one header per 128 bytes where the input has no zero
(R170). -/
def Obligations.SpanEncodeSizeBound : Prop :=
  ∀ (z : ZMode) (bs : List Byte), (spanEncode z bs).length ≤ 2 * bs.length ∧
    ((∀ b ∈ bs, b ≠ 0) → (spanEncode z bs).length = bs.length + (bs.length + 127) / 128)

/-- SpanEncode writes the one token sequence R166 chooses for its input, whatever the mode, and SpanDecode gives the
input back with nothing left over (R166, R167, R168, R171). -/
def Obligations.SpanRoundTrip : Prop :=
  (∀ bs : List Byte, ∃ ks : List SpanToken, encoderChoice ks = true ∧ outputOf ks = bs ∧
    ∀ z, spanEncode z bs = streamOf z ks) ∧
  (∀ (z : ZMode) (ks : List SpanToken), encoderChoice ks = true → spanEncode z (outputOf ks) = streamOf z ks) ∧
  ∀ (z : ZMode) (bs : List Byte), spanDecode z bs.length (spanEncode z bs) = .ok ⟨bs, false⟩

/-- The length block of v has the bytes of R200 and the length of R201, its bytes sum to v, and no block begins
another (R200, R201). -/
def Obligations.LengthBlockFacts : Prop :=
  (∀ v : Nat, (v < 127 → lengthBlock v = [BitVec.ofNat 8 v]) ∧
    (127 ≤ v → lengthBlock v =
      0x7F :: (List.replicate ((v - 127) / 255) 0xFF ++ [BitVec.ofNat 8 ((v - 127) % 255)])) ∧
    (lengthBlock v).length = (if v < 127 then 1 else 2 + (v - 127) / 255) ∧
    ((lengthBlock v).map BitVec.toNat).sum = v ∧ ∀ w, (∃ t, lengthBlock w = lengthBlock v ++ t) → w = v) ∧
  (lengthBlock 518400).length = 2034 ∧ (lengthBlock 2073600).length = 8133

/-- A DECOMPRESS of COMPRESS output, under the same geometry and modes, completes with the frame, its length and TRAIL
0 (R206, R204). Which of the host's copies are then stale where DMA is not coherent is the model's choice
(notes/assumptions/7.md). -/
def Obligations.DecompressUndoesCompress : Prop :=
  ∀ (s t u : State) (l m : Latched), s.phase = .busy l false → s.mem.wf = true → ChecksPass .compress s.platform l →
    (compressBytes l (s.sourceBytes l)).length ≤ l.dstCap.toNat → isPermutation l.perm = true →
    exec .compress s = .next t →
    u.phase = .busy m false → u.mem.wf = true → ChecksPass .decompress u.platform m →
    m.frameW = l.frameW → m.frameH = l.frameH → m.dseg = l.dseg → m.zmode = l.zmode → m.tailm = l.tailm →
    m.perm = l.perm → u.sourceBytes m = t.mem.readBytes l.dstAddr.toNat t.resultLen.toNat →
      ∃ v, exec .decompress u = .next v ∧ Completed m (s.sourceBytes l) false u v ∧
        v.resultLen.toNat = l.frameW.toNat * l.frameH.toNat ∧ v.status.trail = false

/-- No command changes a byte outside its destination region, nor a byte of its source region, however it ends (R66,
R67, R60, R76). -/
def Obligations.EngineWritesOnlyItsDestination : Prop :=
  ∀ (i : Instr) (s : State) (l : Latched) (raced : Bool) (t : State), s.phase = .busy l raced → s.mem.wf = true →
    exec i s = .next t →
      MemoryKeptOutside l.destination s t ∧ (∀ a, inRegion l.source a = true → t.mem.read a = s.mem.read a) ∧
      (i = .nop → t.mem = s.mem)

/-- A host read sees the memory bytes, or any value in the destination of a run and in a stale copy, and stops where
there is no memory (R68, R70, R71, R60, R5). The fault is notes/assumptions/8.md, the two lists of the host's caches
are 7.md. -/
def Obligations.HostReadsSeeMemory : Prop :=
  ∀ (s : State) (addr len : Nat),
    ((∃ a, inRegion ⟨addr, len⟩ a = true ∧ (Config.spaceSize ≤ a ∨ memAdmit s.platform a = false)) →
      hostAccess (.memRead addr len) s = .fault .unbackedHostAddress ∧
      hostAccess (.cacheClean addr len) s = .fault .unbackedHostAddress ∧
      hostAccess (.cacheInvalidate addr len) s = .fault .unbackedHostAddress ∧
      ∀ bs : List Byte, bs.length = len → hostAccess (.memWrite addr bs) s = .fault .unbackedHostAddress) ∧
    ((∀ a, inRegion ⟨addr, len⟩ a = true → a < Config.spaceSize ∧ memAdmit s.platform a = true) →
      (s.phase = .idle → s.platform.coherent = true → hostAccess (.memRead addr len) s =
        .next { s with answer := some (.bytes (s.mem.readBytes addr len)), draws := s.draws + 1 }) ∧
      (s.phase = .idle → s.platform.coherent = false →
        (∀ a, inRegion ⟨addr, len⟩ a = true → inRegions s.dirty a = false) →
        ∃ t u, hostAccess (.cacheInvalidate addr len) s = .next t ∧ hostAccess (.memRead addr len) t = .next u ∧
          u.answer = some (.bytes (s.mem.readBytes addr len)) ∧ u.mem = s.mem) ∧
      (∃ bs, hostAccess (.memRead addr len) s =
          .next { s with answer := some (.bytes bs), draws := s.draws + 1 } ∧ bs.length = len ∧
        ∀ k, k < len →
          (∀ l raced, s.phase = .busy l raced → l.usesMemory = true → inRegion l.destination (addr + k) = true →
            bs[k]? = some (Config.anyByte s.draws (addr + k))) ∧
          (s.platform.coherent = false → inRegions s.stale (addr + k) = true →
            bs[k]? = some (Config.anyByte s.draws (addr + k))) ∧
          ((∀ l raced, s.phase = .busy l raced → l.usesMemory = false ∨ inRegion l.destination (addr + k) = false) →
            (s.platform.coherent = true ∨ inRegions s.stale (addr + k) = false) →
            bs[k]? = some (s.mem.read (addr + k)))))

/-- A host memory write stores its bytes alone, uncleaned where DMA is not coherent, and races a run exactly if it
touches its regions; cleans and invalidates (R10, R69, R70, R77). The lists dirty and stale, and what a clean and an
invalidate do, are notes/assumptions/7.md. -/
def Obligations.HostWriteStoresAndMarksTheRace : Prop :=
  ∀ (s : State) (addr : Nat) (bs : List Byte), backed s.platform ⟨addr, bs.length⟩ = true → s.mem.wf = true →
    (∃ t, hostAccess (.memWrite addr bs) s = .next t ∧
      (∀ k (h : k < bs.length), t.mem.read (addr + k) = bs[k]) ∧ MemoryKeptOutside ⟨addr, bs.length⟩ s t ∧
      (s.platform.coherent = true → t.dirty = s.dirty ∧ t.stale = s.stale) ∧
      (s.platform.coherent = false → ∀ a,
        inRegions t.dirty a = (inRegion ⟨addr, bs.length⟩ a || inRegions s.dirty a) ∧
        inRegions t.stale a = (inRegions s.stale a && !inRegion ⟨addr, bs.length⟩ a)) ∧
      (∀ r, readReg r t = readReg r s) ∧ t.status = s.status ∧ (s.phase = .idle → t.phase = .idle) ∧
      (∀ l raced, s.phase = .busy l raced → ∃ raced', t.phase = .busy l raced' ∧
        (raced' = true ↔ raced = true ∨ (l.usesMemory = true ∧ ∃ a, inRegion ⟨addr, bs.length⟩ a = true ∧
          (inRegion l.source a = true ∨ inRegion l.destination a = true))))) ∧
    (s.platform.coherent = true → hostAccess (.cacheClean addr bs.length) s = .next s ∧
      hostAccess (.cacheInvalidate addr bs.length) s = .next s) ∧
    (s.platform.coherent = false →
      ∃ t u, hostAccess (.cacheClean addr bs.length) s = .next t ∧ hostAccess (.cacheInvalidate addr bs.length) s = .next u ∧
        (∀ a, inRegions t.dirty a = (inRegions s.dirty a && !inRegion ⟨addr, bs.length⟩ a) ∧
          inRegions u.dirty a = inRegions t.dirty a ∧ t.stale = s.stale ∧
          inRegions u.stale a = (inRegions s.stale a && !inRegion ⟨addr, bs.length⟩ a) ∧
          t.mem.read a = (if inRegion ⟨addr, bs.length⟩ a && inRegions s.dirty a && inRegions s.stale a then
            Config.anyByte s.draws a else s.mem.read a) ∧
          u.mem.read a = (if inRegion ⟨addr, bs.length⟩ a && inRegions s.dirty a then
            Config.anyByte s.draws a else s.mem.read a)) ∧
        (∀ r, readReg r t = readReg r s ∧ readReg r u = readReg r s) ∧ u.phase = t.phase ∧
        (s.phase = .idle → t.phase = .idle) ∧
        (∀ l raced, s.phase = .busy l raced → ∃ raced', t.phase = .busy l raced' ∧
          (raced' = true ↔ raced = true ∨ (l.usesMemory = true ∧ ∃ a, inRegion ⟨addr, bs.length⟩ a = true ∧
            inRegions s.dirty a = true ∧ (inRegion l.source a = true ∨ inRegion l.destination a = true)))))

/-- The registers read as R46 says: IRQ, ZMODE and the cause in every state, BUSY and ROT_PERM in every state of the
invariant (R46). -/
def Obligations.RegistersReadLegalValues : Prop :=
  ∀ s : State,
    (readReg .status s).getLsbD 3 =
      ((readReg .ctrl s).getLsbD 0 && ((readReg .status s).getLsbD 1 || (readReg .status s).getLsbD 2)) ∧
    (readReg .ctrl s).extractLsb' 2 2 ≠ 3 ∧
    (readReg .rotPerm s).extractLsb' 24 8 = 0 ∧ (readReg .faultCause s).toNat ≤ 0xA ∧
    (Inv s →
      ((readReg .status s).getLsbD 0 = true → (readReg .status s).getLsbD 1 = false ∧
        (readReg .status s).getLsbD 2 = false ∧ (readReg .status s).getLsbD 4 = false) ∧
      (∀ p q, p < 8 → q < 8 →
        (readReg .rotPerm s).extractLsb' (3 * p) 3 = (readReg .rotPerm s).extractLsb' (3 * q) 3 → p = q))

/-- The machine right after reset satisfies the invariant and holds nothing outside the DMA space (R46, R48, R60). -/
def Obligations.ResetSatisfiesTheInvariant : Prop :=
  Inv State.reset ∧ MemoryInSpace State.reset.mem

/-- From every state of the invariant, whatever falls at the next instant, a step that answers a next state keeps the
invariant (R46, R240, R242, R283, R310, R77). -/
def Obligations.EveryStepKeepsTheInvariant : Prop :=
  ∀ s t : State, Inv s → step s = .next t → Inv t

/-- No step ever makes memory hold anything at an address of 2^32 or above (R60, R65, R67, R274). -/
def Obligations.EveryStepKeepsMemoryInSpace : Prop :=
  ∀ s t : State, MemoryInSpace s.mem → step s = .next t → MemoryInSpace t.mem

/-- A step stops only where the host access of the instant has no meaning; every other step keeps the platform and
uses up one instant (R47, R63, R270, R294). That a step uses up one instant is the model's scheduler
(notes/assumptions/6.md), and the fault stop is the model's choice (8.md). -/
def Obligations.StepStopsOnlyAtAHostAccess : Prop :=
  ∀ s : State,
    (∀ t, step s = .next t → t.platform = s.platform ∧ t.inputs = s.inputs.drop 1) ∧
    (∀ f, step s = .fault f → ∃ x rest a, s.inputs = x :: rest ∧ x.reset = false ∧ x.access = some a ∧
      hostAccess a { s with inputs := rest } = .fault f) ∧
    (∀ e, step s = .refused e → (e = .undefinedRegisterAccess ∨ e = .outsideWindow) ∧
      ∃ x rest a, s.inputs = x :: rest ∧ x.reset = false ∧ x.access = some a ∧
        hostAccess a { s with inputs := rest } = .refused e)

/-- From every state the machine is IDLE after finitely many steps, unless a host access stops it first (R248, R315).
Rests on the scheduler of notes/assumptions/6.md. -/
def Obligations.EveryRunEnds : Prop :=
  ∀ s : State, ∃ n, n ≤ s.inputs.length + 1 ∧
    ((∃ t : State, Host.Core.run Sys2Proof.core n s = .next t ∧ t.phase = .idle) ∨
     (∃ f, Host.Core.run Sys2Proof.core n s = .fault f) ∨ (∃ e, Host.Core.run Sys2Proof.core n s = .refused e))
end

