-- ==== Sys2Proof/Laws/Region.lean ====
section
/-! SUPPORT. Regions and the `MemAdmit` check: what each operation of Machine/Ops.lean over regions means, once. -/

namespace Sys2Proof.Machine

theorem inRegion_iff (r : Region) (a : Nat) : inRegion r a = true ↔ r.base ≤ a ∧ a < r.base + r.len := by
  simp [inRegion]

theorem inRegion_eq_false_iff (r : Region) (a : Nat) : inRegion r a = false ↔ ¬ (r.base ≤ a ∧ a < r.base + r.len) := by
  rw [← inRegion_iff, Bool.not_eq_true]

theorem inRegions_iff (rs : List Region) (a : Nat) : inRegions rs a = true ↔ ∃ r ∈ rs, inRegion r a = true := by
  simp [inRegions]

theorem regionsOverlap_iff (r q : Region) :
    regionsOverlap r q = true ↔ 0 < r.len ∧ 0 < q.len ∧ r.base < q.base + q.len ∧ q.base < r.base + r.len := by
  simp [regionsOverlap, and_assoc]

/-- Two regions overlap iff some address lies in both (R65). -/
theorem regionsOverlap_iff_common (r q : Region) :
    regionsOverlap r q = true ↔ ∃ a, inRegion r a = true ∧ inRegion q a = true := by
  simp only [regionsOverlap_iff, inRegion_iff]
  constructor
  · rintro ⟨h1, h2, h3, h4⟩
    exact ⟨max r.base q.base, by omega, by omega⟩
  · rintro ⟨a, h⟩
    omega

/-- `regionMinus` keeps exactly the addresses outside the cut. -/
theorem inRegions_regionMinus (r cut : Region) (a : Nat) :
    inRegions (regionMinus r cut) a = true ↔ inRegion r a = true ∧ inRegion cut a = false := by
  unfold regionMinus
  by_cases h : regionsOverlap r cut = true
  · rw [regionsOverlap_iff] at h
    simp only [regionsOverlap_iff, h, and_self, if_true, inRegions_iff, List.mem_filter, List.mem_cons,
      List.not_mem_nil, or_false, decide_eq_true_eq, inRegion_iff, inRegion_eq_false_iff, regionBelow, regionFrom,
      regionStop]
    constructor
    · rintro ⟨q, ⟨rfl | rfl, h1⟩, h2⟩ <;> dsimp only at h1 h2 <;> omega
    · rintro ⟨h1, h2⟩
      by_cases h3 : a < cut.base
      · exact ⟨_, ⟨Or.inl rfl, by dsimp only; omega⟩, by dsimp only; omega⟩
      · exact ⟨_, ⟨Or.inr rfl, by dsimp only; omega⟩, by dsimp only; omega⟩
  · have h' := h
    rw [regionsOverlap_iff_common] at h'
    simp only [h, if_false, inRegions_iff, List.mem_singleton, exists_eq_left, Bool.false_eq_true]
    constructor
    · intro h1
      refine ⟨h1, ?_⟩
      by_contra h2
      exact h' ⟨a, h1, by simpa using h2⟩
    · exact fun h1 => h1.1

theorem regionMinus_pos (r cut q : Region) (hr : 0 < r.len) (h : q ∈ regionMinus r cut) : 0 < q.len := by
  unfold regionMinus at h
  split at h
  · simpa using (List.mem_filter.mp h).2
  · simpa [List.mem_singleton.mp h] using hr

/-- The pieces of `regionMinus` lie inside the region. -/
theorem regionMinus_within (r cut q : Region) (h : q ∈ regionMinus r cut) :
    r.base ≤ q.base ∧ (0 < q.len → regionStop q ≤ regionStop r) := by
  unfold regionMinus at h
  split at h
  · have h' := (List.mem_filter.mp h).1
    simp only [List.mem_cons, List.not_mem_nil, or_false] at h'
    rcases h' with rfl | rfl <;> simp only [regionBelow, regionFrom, regionStop] <;> omega
  · rw [List.mem_singleton.mp h]
    exact ⟨Nat.le_refl _, fun _ => Nat.le_refl _⟩

theorem regionMinus_pairwise (r cut : Region) :
    (regionMinus r cut).Pairwise (fun p q => regionStop p ≤ q.base) := by
  unfold regionMinus
  split
  · rename_i h
    rw [regionsOverlap_iff] at h
    refine List.Pairwise.filter _ ?_
    simp only [List.pairwise_cons, List.mem_singleton, forall_eq, List.not_mem_nil, false_imp_iff, implies_true,
      List.Pairwise.nil, and_true, regionBelow, regionFrom, regionStop]
    omega
  · exact List.pairwise_singleton _ _

theorem inRegions_regionsMinus (rs : List Region) (cut : Region) (a : Nat) :
    inRegions (regionsMinus rs cut) a = true ↔ inRegions rs a = true ∧ inRegion cut a = false := by
  have h := fun r => inRegions_regionMinus r cut a
  simp only [inRegions_iff] at h
  simp only [regionsMinus, inRegions_iff, List.mem_flatMap]
  constructor
  · rintro ⟨q, ⟨r, hr, hq⟩, ha⟩
    have := (h r).mp ⟨q, hq, ha⟩
    exact ⟨⟨r, hr, this.1⟩, this.2⟩
  · rintro ⟨⟨r, hr, hra⟩, hc⟩
    obtain ⟨q, hq, ha⟩ := (h r).mpr ⟨hra, hc⟩
    exact ⟨q, ⟨r, hr, hq⟩, ha⟩

/-- `regionsCommon` keeps exactly the addresses inside the region. -/
theorem inRegions_regionsCommon (rs : List Region) (r : Region) (a : Nat) :
    inRegions (regionsCommon rs r) a = true ↔ inRegions rs a = true ∧ inRegion r a = true := by
  simp only [regionsCommon, inRegions_iff, List.mem_filter, List.mem_map, decide_eq_true_eq]
  constructor
  · rintro ⟨q, ⟨⟨d, hd, rfl⟩, _⟩, ha⟩
    simp only [inRegion_iff, regionCommon, regionFrom, regionBelow, regionStop] at ha
    exact ⟨⟨d, hd, (inRegion_iff _ _).mpr ⟨by omega, by omega⟩⟩, (inRegion_iff _ _).mpr ⟨by omega, by omega⟩⟩
  · rintro ⟨⟨d, hd, h1⟩, h2⟩
    rw [inRegion_iff] at h1 h2
    have hc : inRegion (regionCommon d r) a = true := by
      simp only [inRegion_iff, regionCommon, regionFrom, regionBelow, regionStop]
      omega
    refine ⟨_, ⟨⟨d, hd, rfl⟩, ?_⟩, hc⟩
    have := (inRegion_iff _ _).mp hc
    omega

theorem memAdmit_iff (p : Platform) (a : Nat) :
    memAdmit p a = true ↔ ∃ r ∈ p.admitted, inRegion r a = true := inRegions_iff _ _

/-- `lowestRejected` finds the lowest rejected address of the region (R276). -/
theorem lowestRejected_eq_some (p : Platform) (r : Region) (a : Nat) (h : lowestRejected p r = some a) :
    inRegion r a = true ∧ memAdmit p a = false ∧ ∀ b, inRegion r b = true → b < a → memAdmit p b = true := by
  unfold lowestRejected at h
  split at h
  · cases h
  · rw [List.min?_eq_some_iff] at h
    obtain ⟨hm, hmin⟩ := h
    simp only [List.mem_filter, Bool.and_eq_true, Bool.not_eq_true'] at hm hmin
    refine ⟨hm.2.1, hm.2.2, ?_⟩
    intro b hb hba
    by_contra hn
    have key : ∃ c, c ≤ b ∧ inRegion r c = true ∧ memAdmit p c = false ∧
        (c ∈ r.base :: p.admitted.map regionStop) := by
      clear hm hmin hba
      induction b with
      | zero =>
        refine ⟨0, Nat.le_refl _, hb, by simpa using hn, ?_⟩
        rw [inRegion_iff] at hb
        simp [show r.base = 0 by omega]
      | succ b ih =>
        by_cases h0 : b + 1 = r.base
        · exact ⟨b + 1, Nat.le_refl _, hb, by simpa using hn, by simp [h0]⟩
        · have hb' : inRegion r b = true := by
            rw [inRegion_iff] at hb ⊢
            omega
          by_cases hadm : memAdmit p b = true
          · rw [memAdmit_iff] at hadm
            obtain ⟨q, hq, hqb⟩ := hadm
            refine ⟨b + 1, Nat.le_refl _, hb, by simpa using hn, List.mem_cons_of_mem _ ?_⟩
            refine List.mem_map.mpr ⟨q, hq, ?_⟩
            have : ¬ inRegion q (b + 1) = true := fun hc => hn ((memAdmit_iff _ _).mpr ⟨q, hq, hc⟩)
            rw [inRegion_iff] at this hqb
            unfold regionStop
            omega
          · obtain ⟨c, hc⟩ := ih hb' hadm
            exact ⟨c, by omega, hc.2⟩
    obtain ⟨c, hcb, hc1, hc2, hc3⟩ := key
    have := hmin c ⟨hc3, hc1, hc2⟩
    omega

/-- `lowestRejected` finds none iff every address of the region is admitted (R276). -/
theorem lowestRejected_eq_none_iff (p : Platform) (r : Region) :
    lowestRejected p r = none ↔ ∀ a, inRegion r a = true → memAdmit p a = true := by
  constructor
  · intro h a ha
    unfold lowestRejected at h
    have hlen : r.len ≠ 0 := by rw [inRegion_iff] at ha; omega
    rw [if_neg hlen, List.min?_eq_none_iff, List.filter_eq_nil_iff] at h
    have hnone : ∀ c ∈ r.base :: p.admitted.map regionStop, inRegion r c = true → memAdmit p c = true := by
      intro c hc hr
      by_contra hn
      exact h c hc (by simp [hr, hn])
    induction a with
    | zero =>
      refine hnone 0 ?_ ha
      rw [inRegion_iff] at ha
      simp [show r.base = 0 by omega]
    | succ a ih =>
      by_cases h0 : a + 1 = r.base
      · exact hnone _ (by simp [h0]) ha
      · have ha' : inRegion r a = true := by rw [inRegion_iff] at ha ⊢; omega
        have := ih ha'
        rw [memAdmit_iff] at this
        obtain ⟨q, hq, hqa⟩ := this
        by_cases hq1 : inRegion q (a + 1) = true
        · exact (memAdmit_iff _ _).mpr ⟨q, hq, hq1⟩
        · refine hnone _ (List.mem_cons_of_mem _ (List.mem_map.mpr ⟨q, hq, ?_⟩)) ha
          rw [inRegion_iff] at hq1 hqa
          unfold regionStop
          omega
  · intro h
    cases hl : lowestRejected p r with
    | none => rfl
    | some a =>
      obtain ⟨h1, h2, _⟩ := lowestRejected_eq_some p r a hl
      rw [h a h1] at h2
      cases h2

end Sys2Proof.Machine
end

