-- ==== Sys2Proof/Laws/Memory.lean ====
section
/-! SUPPORT. The DMA memory: a read after a write, and that every memory operation keeps the canonical form. -/

namespace Sys2Proof.Machine

/-! ### The listed cells -/

/-- The cells' half of the canonical form: addresses strictly rising, no 0x00 listed. -/
abbrev cellsRising (cs : List Host.Cell) : Prop := cs.Pairwise (fun c d => c.1 < d.1)

theorem readCell_of_lt (cs : List Host.Cell) (a : Nat) (h : ∀ c ∈ cs, a < c.1) : readCell cs a = 0 := by
  induction cs with
  | nil => rfl
  | cons c t ih =>
    obtain ⟨a', b⟩ := c
    have h1 := h (a', b) (by simp)
    have h2 : a ≠ a' := by dsimp only at h1; omega
    simpa [readCell, h2] using ih (fun c hc => h c (by simp [hc]))

theorem mem_setCell (cs : List Host.Cell) (a : Nat) (b : Byte) (c : Host.Cell) (h : c ∈ setCell cs a b) :
    c ∈ cs ∨ (c = (a, b) ∧ b ≠ 0) := by
  induction cs with
  | nil =>
    simp only [setCell] at h
    split at h <;> simp_all
  | cons d t ih =>
    obtain ⟨a', b'⟩ := d
    simp only [setCell] at h
    split at h
    · split at h
      · exact Or.inl h
      · rcases List.mem_cons.mp h with h | h
        · exact Or.inr ⟨h, by assumption⟩
        · exact Or.inl h
    · split at h
      · split at h
        · exact Or.inl (List.mem_cons_of_mem _ h)
        · rcases List.mem_cons.mp h with h | h
          · exact Or.inr ⟨h, by assumption⟩
          · exact Or.inl (List.mem_cons_of_mem _ h)
      · rcases List.mem_cons.mp h with h | h
        · exact Or.inl (by simp [h])
        · rcases ih h with h | h
          · exact Or.inl (List.mem_cons_of_mem _ h)
          · exact Or.inr h

theorem setCell_rising (cs : List Host.Cell) (a : Nat) (b : Byte) (h : cellsRising cs) : cellsRising (setCell cs a b) := by
  induction cs with
  | nil =>
    simp only [setCell]
    split <;> simp [cellsRising]
  | cons d t ih =>
    obtain ⟨a', b'⟩ := d
    have h' := List.pairwise_cons.mp h
    simp only [setCell]
    split
    · split
      · exact h
      · refine List.pairwise_cons.mpr ⟨?_, h⟩
        intro c hc
        rcases List.mem_cons.mp hc with rfl | hc
        · assumption
        · have := h'.1 c hc
          dsimp only at this ⊢
          omega
    · split
      · subst a
        split
        · exact h'.2
        · exact List.pairwise_cons.mpr ⟨h'.1, h'.2⟩
      · refine List.pairwise_cons.mpr ⟨?_, ih h'.2⟩
        intro c hc
        rcases mem_setCell t a b c hc with hc | ⟨rfl, _⟩
        · exact h'.1 c hc
        · dsimp only; omega

/-- A read of the cells after a write to them. -/
theorem readCell_setCell (cs : List Host.Cell) (a : Nat) (b : Byte) (x : Nat) (h : cellsRising cs) :
    readCell (setCell cs a b) x = if x = a then b else readCell cs x := by
  induction cs with
  | nil =>
    simp only [setCell]
    split <;> simp_all [readCell]
  | cons d t ih =>
    obtain ⟨a', b'⟩ := d
    have h' := List.pairwise_cons.mp h
    have ht := ih h'.2
    simp only [setCell]
    by_cases h1 : a < a'
    · rw [if_pos h1]
      by_cases hb : b = 0
      · rw [if_pos hb]
        by_cases hx : x = a
        · subst hx
          rw [if_pos rfl, hb]
          apply readCell_of_lt
          intro c hc
          rcases List.mem_cons.mp hc with rfl | hc
          · exact h1
          · have := h'.1 c hc
            dsimp only at this
            omega
        · rw [if_neg hx]
      · rw [if_neg hb]
        simp [readCell]
    · rw [if_neg h1]
      by_cases h2 : a = a'
      · subst h2
        rw [if_pos rfl]
        by_cases hb : b = 0
        · rw [if_pos hb]
          by_cases hx : x = a
          · subst hx
            rw [if_pos rfl, hb]
            exact readCell_of_lt t x (fun c hc => h'.1 c hc)
          · simp [readCell, hx]
        · rw [if_neg hb]
          by_cases hx : x = a <;> simp [readCell, hx]
      · rw [if_neg h2]
        by_cases hx : x = a'
        · subst hx
          simp [readCell, Ne.symm h2]
        · simp [readCell, hx, ht]

theorem readCell_filter (cs : List Host.Cell) (keep : Nat → Bool) (a : Nat) (h : keep a = true) :
    readCell (cs.filter (fun c => keep c.1)) a = readCell cs a := by
  induction cs with
  | nil => rfl
  | cons d t ih =>
    obtain ⟨a', b'⟩ := d
    by_cases hk : keep a' = true
    · simp [List.filter, hk, readCell, ih]
    · have : a ≠ a' := by rintro rfl; exact hk h
      simp [List.filter, hk, readCell, ih, this]

/-! ### The stretches of any value -/

/-- The stretch that holds the byte at an address, if one does: its draw. -/
def anyDraw (anys : List AnyRegion) (a : Nat) : Option Nat :=
  (anys.find? (fun r => inRegion r.region a)).map AnyRegion.draw

theorem Memory.read_eq (m : Memory) (a : Nat) :
    m.read a = match anyDraw m.anys a with
      | some d => Config.anyByte d a
      | none => readCell m.cells a := by
  unfold Memory.read anyDraw
  cases m.anys.find? (fun r => inRegion r.region a) <;> rfl

theorem anyDraw_eq_none_iff (anys : List AnyRegion) (a : Nat) :
    anyDraw anys a = none ↔ inRegions (anys.map AnyRegion.region) a = false := by
  simp [anyDraw, inRegions]

theorem anyDraw_pieces (ps : List Region) (d a : Nat) (t : List AnyRegion) :
    anyDraw (ps.map (fun q => ⟨q, d⟩) ++ t) a = if inRegions ps a then some d else anyDraw t a := by
  induction ps with
  | nil => simp [inRegions]
  | cons p ps ih =>
    by_cases hp : inRegion p a = true
    · simp [anyDraw, inRegions, hp]
    · simp only [anyDraw, inRegions, List.map_cons, List.cons_append, List.find?_cons, hp, List.any_cons,
        Bool.false_or] at ih ⊢
      exact ih

/-- After a cut, an address outside the cut has the draw it had, one inside has none. -/
theorem anyDraw_cutAnys (anys : List AnyRegion) (cut : Region) (a : Nat) :
    anyDraw (cutAnys anys cut) a = if inRegion cut a then none else anyDraw anys a := by
  induction anys with
  | nil => simp [cutAnys, anyDraw]
  | cons r t ih =>
    have hcons : cutAnys (r :: t) cut = (regionMinus r.region cut).map (fun q => ⟨q, r.draw⟩) ++ cutAnys t cut := by
      simp [cutAnys]
    rw [hcons, anyDraw_pieces, ih]
    have hm := inRegions_regionMinus r.region cut a
    by_cases hc : inRegion cut a = true
    · have : inRegions (regionMinus r.region cut) a = false := by
        rw [← Bool.not_eq_true, hm]
        simp [hc]
      simp [this, hc]
    · rw [Bool.not_eq_true] at hc
      by_cases hr : inRegion r.region a = true
      · simp [hm.mpr ⟨hr, hc⟩, hc, anyDraw, hr]
      · have : inRegions (regionMinus r.region cut) a = false := by
          rw [← Bool.not_eq_true, hm]
          simp [hr]
        simp [this, hc, anyDraw, hr]

theorem mem_insertAny (anys : List AnyRegion) (n r : AnyRegion) : r ∈ insertAny anys n ↔ r = n ∨ r ∈ anys := by
  induction anys with
  | nil => simp [insertAny]
  | cons q t ih =>
    simp only [insertAny]
    split
    · simp
    · simp only [List.mem_cons, ih]
      tauto

theorem anyDraw_insertAny (anys : List AnyRegion) (n : AnyRegion) (a : Nat)
    (h : inRegion n.region a = true → anyDraw anys a = none) :
    anyDraw (insertAny anys n) a = if inRegion n.region a then some n.draw else anyDraw anys a := by
  induction anys with
  | nil => by_cases hn : inRegion n.region a = true <;> simp [insertAny, anyDraw, hn]
  | cons q t ih =>
    have ht : inRegion n.region a = true → anyDraw t a = none := by
      intro hn
      have h1 := h hn
      rw [anyDraw_eq_none_iff] at h1 ⊢
      simp only [inRegions, List.map_cons, List.any_cons, Bool.or_eq_false_iff] at h1 ⊢
      exact h1.2
    have ih := ih ht
    simp only [insertAny]
    split
    · by_cases hn : inRegion n.region a = true <;> simp [anyDraw, hn]
    · by_cases hq : inRegion q.region a = true
      · have hn : ¬ inRegion n.region a = true := by
          intro hn
          have := h hn
          simp [anyDraw, hq] at this
        simp [anyDraw, hq, hn]
      · simp only [anyDraw, List.find?_cons, hq] at ih ⊢
        exact ih

/-! ### Reads after writes -/

/-- The listed cells of a memory are strictly rising, the part of the canonical form a read after a write needs. -/
theorem Memory.wf_iff (m : Memory) : m.wf = true ↔
    cellsRising m.cells ∧ (∀ c ∈ m.cells, c.2 ≠ 0 ∧ anyDraw m.anys c.1 = none) ∧
    (∀ r ∈ m.anys, 0 < r.region.len) ∧ m.anys.Pairwise (fun r q => regionStop r.region ≤ q.region.base) := by
  simp only [Memory.wf, Bool.and_eq_true, decide_eq_true_eq, List.all_eq_true, bne_iff_ne, Bool.not_eq_true',
    anyDraw_eq_none_iff, and_assoc]

theorem Memory.read_writeByte (m : Memory) (a : Nat) (b : Byte) (x : Nat) (h : cellsRising m.cells) :
    (m.writeByte a b).read x = if x = a then b else m.read x := by
  have h1 : inRegion ⟨a, 1⟩ x = decide (x = a) := by
    rw [Bool.eq_iff_iff, inRegion_iff, decide_eq_true_eq]
    dsimp only
    omega
  rw [Memory.read_eq, Memory.read_eq]
  simp only [Memory.writeByte, anyDraw_cutAnys, readCell_setCell _ _ _ _ h, h1]
  by_cases hx : x = a <;> simp [hx]

theorem Memory.writeByte_rising (m : Memory) (a : Nat) (b : Byte) (h : cellsRising m.cells) :
    cellsRising (m.writeByte a b).cells := setCell_rising _ _ _ h

theorem Memory.writeBytes_rising (m : Memory) (a : Nat) (bs : List Byte) (h : cellsRising m.cells) :
    cellsRising (m.writeBytes a bs).cells := by
  induction bs generalizing m a with
  | nil => exact h
  | cons b bs ih => exact ih _ _ (m.writeByte_rising a b h)

/-- A read after `MemWrite` (R10): the bytes written, and every other byte as before. -/
theorem Memory.read_writeBytes (m : Memory) (a : Nat) (bs : List Byte) (x : Nat) (h : cellsRising m.cells) :
    (m.writeBytes a bs).read x = if inRegion ⟨a, bs.length⟩ x then bs.getD (x - a) 0 else m.read x := by
  induction bs generalizing m a with
  | nil =>
    have : ¬ inRegion ⟨a, ([] : List Byte).length⟩ x = true := by simp [inRegion_iff]
    rw [if_neg this, Memory.writeBytes]
  | cons b bs ih =>
    rw [Memory.writeBytes, ih _ _ (m.writeByte_rising a b h), Memory.read_writeByte _ _ _ _ h]
    simp only [inRegion_iff, List.length_cons]
    by_cases h1 : x = a
    · subst h1
      simp
    · by_cases h2 : a + 1 ≤ x ∧ x < a + 1 + bs.length
      · rw [if_pos h2, if_pos (by omega)]
        obtain ⟨k, rfl⟩ : ∃ k, x = a + 1 + k := ⟨x - (a + 1), by omega⟩
        simp [show a + 1 + k - a = k + 1 by omega]
      · rw [if_neg h2, if_neg h1, if_neg (by omega)]

theorem Memory.length_readBytes (m : Memory) (a n : Nat) : (m.readBytes a n).length = n := by
  simp [Memory.readBytes]

theorem Memory.getElem_readBytes (m : Memory) (a n k : Nat) (h : k < (m.readBytes a n).length) :
    (m.readBytes a n)[k] = m.read (a + k) := by
  simp [Memory.readBytes]

/-- `MemRead` after `MemWrite` of the same bytes (R10). -/
theorem Memory.readBytes_writeBytes (m : Memory) (a : Nat) (bs : List Byte) (h : cellsRising m.cells) :
    (m.writeBytes a bs).readBytes a bs.length = bs := by
  apply List.ext_getElem (by simp [Memory.readBytes])
  intro k h1 h2
  rw [Memory.getElem_readBytes, Memory.read_writeBytes _ _ _ _ h, if_pos (by rw [inRegion_iff]; dsimp only; omega)]
  simp [h2]

/-- A read after a stretch is marked: any value inside, every other byte as before (R67). -/
theorem Memory.read_markAny (m : Memory) (r : Region) (d x : Nat) :
    (m.markAny r d).read x = if inRegion r x then Config.anyByte d x else m.read x := by
  unfold Memory.markAny
  by_cases h0 : r.len = 0
  · have : inRegion r x = false := by
      rw [inRegion_eq_false_iff]
      omega
    simp [h0, this]
  · rw [if_neg h0, Memory.read_eq, Memory.read_eq]
    have hc : inRegion r x = true → anyDraw (cutAnys m.anys r) x = none := by
      intro hr
      rw [anyDraw_cutAnys, if_pos hr]
    simp only
    rw [anyDraw_insertAny _ _ _ hc, anyDraw_cutAnys]
    by_cases hr : inRegion r x = true
    · simp [hr]
    · rw [Bool.not_eq_true] at hr
      simp only [hr, Bool.false_eq_true, if_false]
      have hf := readCell_filter m.cells (fun a => !inRegion r a) x (by simp [hr])
      rw [hf]

theorem Memory.read_markAnys (m : Memory) (rs : List Region) (d x : Nat) :
    (m.markAnys rs d).read x = if inRegions rs x then Config.anyByte d x else m.read x := by
  induction rs generalizing m with
  | nil => simp [Memory.markAnys, inRegions]
  | cons r rs ih =>
    have := ih (m.markAny r d)
    simp only [Memory.markAnys, List.foldl_cons] at this ⊢
    rw [this, Memory.read_markAny]
    by_cases h1 : inRegion r x = true <;> by_cases h2 : inRegions rs x = true <;>
      simp_all [inRegions]

/-! ### The canonical form is kept -/

theorem anysApart_cutAnys (anys : List AnyRegion) (cut : Region) (hpos : ∀ r ∈ anys, 0 < r.region.len)
    (h : anys.Pairwise (fun r q => regionStop r.region ≤ q.region.base)) :
    (∀ r ∈ cutAnys anys cut, 0 < r.region.len) ∧
    (cutAnys anys cut).Pairwise (fun r q => regionStop r.region ≤ q.region.base) := by
  have hmem : ∀ r ∈ cutAnys anys cut, ∃ o ∈ anys, o.region.base ≤ r.region.base ∧ 0 < r.region.len ∧
      regionStop r.region ≤ regionStop o.region := by
    intro r hr
    obtain ⟨o, ho, hro⟩ := List.mem_flatMap.mp hr
    obtain ⟨q, hq, rfl⟩ := List.mem_map.mp hro
    have h1 := regionMinus_pos _ _ _ (hpos o ho) hq
    have h2 := regionMinus_within _ _ _ hq
    exact ⟨o, ho, h2.1, h1, h2.2 h1⟩
  refine ⟨fun r hr => (hmem r hr).choose_spec.2.2.1, ?_⟩
  rw [cutAnys, List.pairwise_flatMap]
  constructor
  · intro o ho
    rw [List.pairwise_map]
    exact regionMinus_pairwise _ _
  · refine List.Pairwise.imp_of_mem ?_ h
    intro o p ho hp hop r hr q hq
    obtain ⟨r', hr', rfl⟩ := List.mem_map.mp hr
    obtain ⟨q', hq', rfl⟩ := List.mem_map.mp hq
    have h1 := regionMinus_within _ _ _ hr'
    have h2 := regionMinus_pos _ _ _ (hpos o ho) hr'
    have h3 := regionMinus_within _ _ _ hq'
    have h4 := h1.2 h2
    dsimp only at *
    omega

theorem insertAny_apart (anys : List AnyRegion) (n : AnyRegion)
    (hpos : ∀ r ∈ anys, 0 < r.region.len) (hn : 0 < n.region.len)
    (hout : ∀ r ∈ anys, regionsOverlap r.region n.region = false)
    (h : anys.Pairwise (fun r q => regionStop r.region ≤ q.region.base)) :
    (insertAny anys n).Pairwise (fun r q => regionStop r.region ≤ q.region.base) := by
  have hside : ∀ r ∈ anys, regionStop r.region ≤ n.region.base ∨ regionStop n.region ≤ r.region.base := by
    intro r hr
    have h1 := hout r hr
    rw [← Bool.not_eq_true, regionsOverlap_iff] at h1
    have := hpos r hr
    unfold regionStop
    omega
  induction anys with
  | nil => simp [insertAny]
  | cons r t ih =>
    have h' := List.pairwise_cons.mp h
    simp only [insertAny]
    split
    · rename_i hlt
      refine List.pairwise_cons.mpr ⟨?_, h⟩
      intro q hq
      rcases List.mem_cons.mp hq with rfl | hqt
      · rcases hside q (by simp) with h1 | h1
        · have := hpos q (by simp)
          unfold regionStop at h1
          omega
        · exact h1
      · have h1 := h'.1 q hqt
        rcases hside r (by simp) with h2 | h2
        · have := hpos r (by simp)
          unfold regionStop at h2
          omega
        · have := hpos r (by simp)
          unfold regionStop at h1 h2 ⊢
          omega
    · rename_i hge
      refine List.pairwise_cons.mpr ⟨?_, ih (fun q hq => hpos q (by simp [hq])) (fun q hq => hout q (by simp [hq]))
        h'.2 (fun q hq => hside q (by simp [hq]))⟩
      intro q hq
      rcases (mem_insertAny t n q).mp hq with rfl | hqt
      · rcases hside r (by simp) with h1 | h1
        · exact h1
        · unfold regionStop at h1
          omega
      · exact h'.1 q hqt

theorem Memory.wf_writeByte (m : Memory) (a : Nat) (b : Byte) (h : m.wf = true) : (m.writeByte a b).wf = true := by
  rw [Memory.wf_iff] at h ⊢
  obtain ⟨h1, h2, h3, h4⟩ := h
  have h5 := anysApart_cutAnys m.anys ⟨a, 1⟩ h3 h4
  refine ⟨setCell_rising _ _ _ h1, ?_, h5.1, h5.2⟩
  intro c hc
  simp only [Memory.writeByte, anyDraw_cutAnys]
  rcases mem_setCell _ _ _ _ hc with hc | ⟨rfl, hb⟩
  · refine ⟨(h2 c hc).1, ?_⟩
    split
    · rfl
    · exact (h2 c hc).2
  · refine ⟨hb, ?_⟩
    rw [if_pos]
    rw [inRegion_iff]
    dsimp only
    omega

/-- `MemWrite` keeps the canonical form. -/
theorem Memory.wf_writeBytes (m : Memory) (a : Nat) (bs : List Byte) (h : m.wf = true) :
    (m.writeBytes a bs).wf = true := by
  induction bs generalizing m a with
  | nil => exact h
  | cons b bs ih => exact ih _ _ (m.wf_writeByte a b h)

theorem Memory.wf_markAny (m : Memory) (r : Region) (d : Nat) (h : m.wf = true) : (m.markAny r d).wf = true := by
  unfold Memory.markAny
  split
  · exact h
  · rename_i h0
    rw [Memory.wf_iff] at h ⊢
    obtain ⟨h1, h2, h3, h4⟩ := h
    have h5 := anysApart_cutAnys m.anys r h3 h4
    refine ⟨h1.filter _, ?_, ?_, ?_⟩
    · intro c hc
      have hc' := List.mem_filter.mp hc
      have hout : inRegion r c.1 = false := by simpa using hc'.2
      refine ⟨(h2 c hc'.1).1, ?_⟩
      dsimp only
      rw [anyDraw_insertAny _ _ _ (by simp [hout]), anyDraw_cutAnys]
      simp [hout, (h2 c hc'.1).2]
    · intro q hq
      rcases (mem_insertAny _ _ _).mp hq with rfl | hq
      · exact Nat.pos_of_ne_zero h0
      · exact h5.1 q hq
    · refine insertAny_apart _ _ h5.1 (Nat.pos_of_ne_zero h0) ?_ h5.2
      intro q hq
      rw [← Bool.not_eq_true, regionsOverlap_iff_common]
      rintro ⟨a, ha, har⟩
      have hd : anyDraw (cutAnys m.anys r) a = none := by
        rw [anyDraw_cutAnys, if_pos har]
      rw [anyDraw_eq_none_iff, ← Bool.not_eq_true, inRegions_iff] at hd
      exact hd ⟨q.region, List.mem_map.mpr ⟨q, hq, rfl⟩, ha⟩

/-- Marking stretches as any value keeps the canonical form. -/
theorem Memory.wf_markAnys (m : Memory) (rs : List Region) (d : Nat) (h : m.wf = true) :
    (m.markAnys rs d).wf = true := by
  induction rs generalizing m with
  | nil => exact h
  | cons r rs ih => exact ih _ (m.wf_markAny r d h)

/-- The canonical form holds of the memory with nothing written. -/
theorem Memory.wf_empty : Memory.empty.wf = true := by decide

theorem Memory.rising_of_wf (m : Memory) (h : m.wf = true) : cellsRising m.cells := ((Memory.wf_iff m).mp h).1

end Sys2Proof.Machine
end

