-- ==== Sys2Proof/Laws/State.lean ====
section
/-! SUPPORT. What every field of State is after each shared update, true by unfolding the update once. -/

namespace Sys2Proof.Machine

/-! ### Acceptance's register effect (`beginRun`) -/

@[simp] theorem beginRun_ctrl (w : Word) (s : State) : (beginRun w s).ctrl = s.ctrl := rfl

@[simp] theorem beginRun_status (w : Word) (s : State) : (beginRun w s).status = ⟨false, s.status.err, false, s.status.skip⟩ := rfl

@[simp] theorem beginRun_srcAddr (w : Word) (s : State) : (beginRun w s).srcAddr = s.srcAddr := rfl

@[simp] theorem beginRun_srcLen (w : Word) (s : State) : (beginRun w s).srcLen = s.srcLen := rfl

@[simp] theorem beginRun_dstAddr (w : Word) (s : State) : (beginRun w s).dstAddr = s.dstAddr := rfl

@[simp] theorem beginRun_dstCap (w : Word) (s : State) : (beginRun w s).dstCap = s.dstCap := rfl

@[simp] theorem beginRun_frameW (w : Word) (s : State) : (beginRun w s).frameW = s.frameW := rfl

@[simp] theorem beginRun_frameH (w : Word) (s : State) : (beginRun w s).frameH = s.frameH := rfl

@[simp] theorem beginRun_expLen (w : Word) (s : State) : (beginRun w s).expLen = s.expLen := rfl

@[simp] theorem beginRun_resultLen (w : Word) (s : State) : (beginRun w s).resultLen = s.resultLen := rfl

@[simp] theorem beginRun_faultCause (w : Word) (s : State) : (beginRun w s).faultCause = s.faultCause := rfl

@[simp] theorem beginRun_faultInfo (w : Word) (s : State) : (beginRun w s).faultInfo = s.faultInfo := rfl

@[simp] theorem beginRun_rotPerm (w : Word) (s : State) : (beginRun w s).rotPerm = s.rotPerm := rfl

@[simp] theorem beginRun_skipCnt (w : Word) (s : State) : (beginRun w s).skipCnt = s.skipCnt := rfl

@[simp] theorem beginRun_lutIndex (w : Word) (s : State) : (beginRun w s).lutIndex = s.lutIndex := rfl

@[simp] theorem beginRun_phase (w : Word) (s : State) : (beginRun w s).phase = .busy (s.latch w) false := rfl

@[simp] theorem beginRun_mem (w : Word) (s : State) : (beginRun w s).mem = s.mem := rfl

@[simp] theorem beginRun_dirty (w : Word) (s : State) : (beginRun w s).dirty = s.dirty := rfl

@[simp] theorem beginRun_stale (w : Word) (s : State) : (beginRun w s).stale = s.stale := rfl

@[simp] theorem beginRun_platform (w : Word) (s : State) : (beginRun w s).platform = s.platform := rfl

@[simp] theorem beginRun_inputs (w : Word) (s : State) : (beginRun w s).inputs = s.inputs := rfl

@[simp] theorem beginRun_answer (w : Word) (s : State) : (beginRun w s).answer = s.answer := rfl

@[simp] theorem beginRun_draws (w : Word) (s : State) : (beginRun w s).draws = s.draws := rfl

/-! ### The completion step (`complete`) -/

@[simp] theorem complete_ctrl (l : Latched) (out : List Byte) (trail : Bool) (s : State) : (complete l out trail s).ctrl = s.ctrl := rfl

@[simp] theorem complete_status (l : Latched) (out : List Byte) (trail : Bool) (s : State) : (complete l out trail s).status = ⟨true, s.status.err, trail, s.status.skip⟩ := rfl

@[simp] theorem complete_srcAddr (l : Latched) (out : List Byte) (trail : Bool) (s : State) : (complete l out trail s).srcAddr = s.srcAddr := rfl

@[simp] theorem complete_srcLen (l : Latched) (out : List Byte) (trail : Bool) (s : State) : (complete l out trail s).srcLen = s.srcLen := rfl

@[simp] theorem complete_dstAddr (l : Latched) (out : List Byte) (trail : Bool) (s : State) : (complete l out trail s).dstAddr = s.dstAddr := rfl

@[simp] theorem complete_dstCap (l : Latched) (out : List Byte) (trail : Bool) (s : State) : (complete l out trail s).dstCap = s.dstCap := rfl

@[simp] theorem complete_frameW (l : Latched) (out : List Byte) (trail : Bool) (s : State) : (complete l out trail s).frameW = s.frameW := rfl

@[simp] theorem complete_frameH (l : Latched) (out : List Byte) (trail : Bool) (s : State) : (complete l out trail s).frameH = s.frameH := rfl

@[simp] theorem complete_expLen (l : Latched) (out : List Byte) (trail : Bool) (s : State) : (complete l out trail s).expLen = s.expLen := rfl

@[simp] theorem complete_resultLen (l : Latched) (out : List Byte) (trail : Bool) (s : State) : (complete l out trail s).resultLen = BitVec.ofNat 32 out.length := rfl

@[simp] theorem complete_faultCause (l : Latched) (out : List Byte) (trail : Bool) (s : State) : (complete l out trail s).faultCause = s.faultCause := rfl

@[simp] theorem complete_faultInfo (l : Latched) (out : List Byte) (trail : Bool) (s : State) : (complete l out trail s).faultInfo = s.faultInfo := rfl

@[simp] theorem complete_rotPerm (l : Latched) (out : List Byte) (trail : Bool) (s : State) : (complete l out trail s).rotPerm = s.rotPerm := rfl

@[simp] theorem complete_skipCnt (l : Latched) (out : List Byte) (trail : Bool) (s : State) : (complete l out trail s).skipCnt = s.skipCnt := rfl

@[simp] theorem complete_lutIndex (l : Latched) (out : List Byte) (trail : Bool) (s : State) : (complete l out trail s).lutIndex = s.lutIndex := rfl

@[simp] theorem complete_phase (l : Latched) (out : List Byte) (trail : Bool) (s : State) : (complete l out trail s).phase = .idle := rfl

@[simp] theorem complete_mem (l : Latched) (out : List Byte) (trail : Bool) (s : State) : (complete l out trail s).mem = s.mem.writeBytes l.dstAddr.toNat out := rfl

@[simp] theorem complete_dirty (l : Latched) (out : List Byte) (trail : Bool) (s : State) : (complete l out trail s).dirty = s.dirty := rfl

@[simp] theorem complete_stale (l : Latched) (out : List Byte) (trail : Bool) (s : State) : (complete l out trail s).stale = s.stale := rfl

@[simp] theorem complete_platform (l : Latched) (out : List Byte) (trail : Bool) (s : State) : (complete l out trail s).platform = s.platform := rfl

@[simp] theorem complete_inputs (l : Latched) (out : List Byte) (trail : Bool) (s : State) : (complete l out trail s).inputs = s.inputs := rfl

@[simp] theorem complete_answer (l : Latched) (out : List Byte) (trail : Bool) (s : State) : (complete l out trail s).answer = s.answer := rfl

@[simp] theorem complete_draws (l : Latched) (out : List Byte) (trail : Bool) (s : State) : (complete l out trail s).draws = s.draws + 1 := rfl

/-! ### The destination's copies stale (`exposeDestination`) -/

@[simp] theorem exposeDestination_ctrl (l : Latched) (s : State) : (exposeDestination l s).ctrl = s.ctrl := rfl

@[simp] theorem exposeDestination_status (l : Latched) (s : State) : (exposeDestination l s).status = s.status := rfl

@[simp] theorem exposeDestination_srcAddr (l : Latched) (s : State) : (exposeDestination l s).srcAddr = s.srcAddr := rfl

@[simp] theorem exposeDestination_srcLen (l : Latched) (s : State) : (exposeDestination l s).srcLen = s.srcLen := rfl

@[simp] theorem exposeDestination_dstAddr (l : Latched) (s : State) : (exposeDestination l s).dstAddr = s.dstAddr := rfl

@[simp] theorem exposeDestination_dstCap (l : Latched) (s : State) : (exposeDestination l s).dstCap = s.dstCap := rfl

@[simp] theorem exposeDestination_frameW (l : Latched) (s : State) : (exposeDestination l s).frameW = s.frameW := rfl

@[simp] theorem exposeDestination_frameH (l : Latched) (s : State) : (exposeDestination l s).frameH = s.frameH := rfl

@[simp] theorem exposeDestination_expLen (l : Latched) (s : State) : (exposeDestination l s).expLen = s.expLen := rfl

@[simp] theorem exposeDestination_resultLen (l : Latched) (s : State) : (exposeDestination l s).resultLen = s.resultLen := rfl

@[simp] theorem exposeDestination_faultCause (l : Latched) (s : State) : (exposeDestination l s).faultCause = s.faultCause := rfl

@[simp] theorem exposeDestination_faultInfo (l : Latched) (s : State) : (exposeDestination l s).faultInfo = s.faultInfo := rfl

@[simp] theorem exposeDestination_rotPerm (l : Latched) (s : State) : (exposeDestination l s).rotPerm = s.rotPerm := rfl

@[simp] theorem exposeDestination_skipCnt (l : Latched) (s : State) : (exposeDestination l s).skipCnt = s.skipCnt := rfl

@[simp] theorem exposeDestination_lutIndex (l : Latched) (s : State) : (exposeDestination l s).lutIndex = s.lutIndex := rfl

@[simp] theorem exposeDestination_phase (l : Latched) (s : State) : (exposeDestination l s).phase = s.phase := rfl

@[simp] theorem exposeDestination_mem (l : Latched) (s : State) : (exposeDestination l s).mem = s.mem := rfl

@[simp] theorem exposeDestination_dirty (l : Latched) (s : State) : (exposeDestination l s).dirty = s.dirty := rfl

@[simp] theorem exposeDestination_stale (l : Latched) (s : State) : (exposeDestination l s).stale = s.staleAfter [l.destination] := rfl

@[simp] theorem exposeDestination_platform (l : Latched) (s : State) : (exposeDestination l s).platform = s.platform := rfl

@[simp] theorem exposeDestination_inputs (l : Latched) (s : State) : (exposeDestination l s).inputs = s.inputs := rfl

@[simp] theorem exposeDestination_answer (l : Latched) (s : State) : (exposeDestination l s).answer = s.answer := rfl

@[simp] theorem exposeDestination_draws (l : Latched) (s : State) : (exposeDestination l s).draws = s.draws := rfl

/-! ### Taking a fault (`takeFault`) -/

@[simp] theorem takeFault_ctrl (f : FaultRecord) (s : State) : (takeFault f s).ctrl = s.ctrl := rfl

@[simp] theorem takeFault_status (f : FaultRecord) (s : State) : (takeFault f s).status = ⟨false, true, false, s.status.skip⟩ := rfl

@[simp] theorem takeFault_srcAddr (f : FaultRecord) (s : State) : (takeFault f s).srcAddr = s.srcAddr := rfl

@[simp] theorem takeFault_srcLen (f : FaultRecord) (s : State) : (takeFault f s).srcLen = s.srcLen := rfl

@[simp] theorem takeFault_dstAddr (f : FaultRecord) (s : State) : (takeFault f s).dstAddr = s.dstAddr := rfl

@[simp] theorem takeFault_dstCap (f : FaultRecord) (s : State) : (takeFault f s).dstCap = s.dstCap := rfl

@[simp] theorem takeFault_frameW (f : FaultRecord) (s : State) : (takeFault f s).frameW = s.frameW := rfl

@[simp] theorem takeFault_frameH (f : FaultRecord) (s : State) : (takeFault f s).frameH = s.frameH := rfl

@[simp] theorem takeFault_expLen (f : FaultRecord) (s : State) : (takeFault f s).expLen = s.expLen := rfl

@[simp] theorem takeFault_resultLen (f : FaultRecord) (s : State) : (takeFault f s).resultLen = 0 := rfl

@[simp] theorem takeFault_faultCause (f : FaultRecord) (s : State) : (takeFault f s).faultCause = f.cause := rfl

@[simp] theorem takeFault_faultInfo (f : FaultRecord) (s : State) : (takeFault f s).faultInfo = f.info := rfl

@[simp] theorem takeFault_rotPerm (f : FaultRecord) (s : State) : (takeFault f s).rotPerm = s.rotPerm := rfl

@[simp] theorem takeFault_skipCnt (f : FaultRecord) (s : State) : (takeFault f s).skipCnt = s.skipCnt := rfl

@[simp] theorem takeFault_lutIndex (f : FaultRecord) (s : State) : (takeFault f s).lutIndex = s.lutIndex := rfl

@[simp] theorem takeFault_phase (f : FaultRecord) (s : State) : (takeFault f s).phase = .idle := rfl

@[simp] theorem takeFault_mem (f : FaultRecord) (s : State) : (takeFault f s).mem = s.mem := rfl

@[simp] theorem takeFault_dirty (f : FaultRecord) (s : State) : (takeFault f s).dirty = s.dirty := rfl

@[simp] theorem takeFault_stale (f : FaultRecord) (s : State) : (takeFault f s).stale = s.stale := rfl

@[simp] theorem takeFault_platform (f : FaultRecord) (s : State) : (takeFault f s).platform = s.platform := rfl

@[simp] theorem takeFault_inputs (f : FaultRecord) (s : State) : (takeFault f s).inputs = s.inputs := rfl

@[simp] theorem takeFault_answer (f : FaultRecord) (s : State) : (takeFault f s).answer = s.answer := rfl

@[simp] theorem takeFault_draws (f : FaultRecord) (s : State) : (takeFault f s).draws = s.draws := rfl

/-! ### Leaving regions at any value (`scramble`) -/

@[simp] theorem scramble_ctrl (rs : List Region) (s : State) : (scramble rs s).ctrl = s.ctrl := rfl

@[simp] theorem scramble_status (rs : List Region) (s : State) : (scramble rs s).status = s.status := rfl

@[simp] theorem scramble_srcAddr (rs : List Region) (s : State) : (scramble rs s).srcAddr = s.srcAddr := rfl

@[simp] theorem scramble_srcLen (rs : List Region) (s : State) : (scramble rs s).srcLen = s.srcLen := rfl

@[simp] theorem scramble_dstAddr (rs : List Region) (s : State) : (scramble rs s).dstAddr = s.dstAddr := rfl

@[simp] theorem scramble_dstCap (rs : List Region) (s : State) : (scramble rs s).dstCap = s.dstCap := rfl

@[simp] theorem scramble_frameW (rs : List Region) (s : State) : (scramble rs s).frameW = s.frameW := rfl

@[simp] theorem scramble_frameH (rs : List Region) (s : State) : (scramble rs s).frameH = s.frameH := rfl

@[simp] theorem scramble_expLen (rs : List Region) (s : State) : (scramble rs s).expLen = s.expLen := rfl

@[simp] theorem scramble_resultLen (rs : List Region) (s : State) : (scramble rs s).resultLen = s.resultLen := rfl

@[simp] theorem scramble_faultCause (rs : List Region) (s : State) : (scramble rs s).faultCause = s.faultCause := rfl

@[simp] theorem scramble_faultInfo (rs : List Region) (s : State) : (scramble rs s).faultInfo = s.faultInfo := rfl

@[simp] theorem scramble_rotPerm (rs : List Region) (s : State) : (scramble rs s).rotPerm = s.rotPerm := rfl

@[simp] theorem scramble_skipCnt (rs : List Region) (s : State) : (scramble rs s).skipCnt = s.skipCnt := rfl

@[simp] theorem scramble_lutIndex (rs : List Region) (s : State) : (scramble rs s).lutIndex = s.lutIndex := rfl

@[simp] theorem scramble_phase (rs : List Region) (s : State) : (scramble rs s).phase = s.phase := rfl

@[simp] theorem scramble_mem (rs : List Region) (s : State) : (scramble rs s).mem = s.mem.markAnys rs s.draws := rfl

@[simp] theorem scramble_dirty (rs : List Region) (s : State) : (scramble rs s).dirty = s.dirty := rfl

@[simp] theorem scramble_stale (rs : List Region) (s : State) : (scramble rs s).stale = s.staleAfter rs := rfl

@[simp] theorem scramble_platform (rs : List Region) (s : State) : (scramble rs s).platform = s.platform := rfl

@[simp] theorem scramble_inputs (rs : List Region) (s : State) : (scramble rs s).inputs = s.inputs := rfl

@[simp] theorem scramble_answer (rs : List Region) (s : State) : (scramble rs s).answer = s.answer := rfl

@[simp] theorem scramble_draws (rs : List Region) (s : State) : (scramble rs s).draws = s.draws + 1 := rfl

/-! ### A write to STATUS (`acknowledge`) -/

@[simp] theorem acknowledge_ctrl (v : Word) (s : State) : (acknowledge v s).ctrl = s.ctrl := rfl

@[simp] theorem acknowledge_status (v : Word) (s : State) : (acknowledge v s).status = ⟨s.status.done && !v.getLsbD 1, s.status.err && !v.getLsbD 2, s.status.trail, s.status.skip && !v.getLsbD 5⟩ := rfl

@[simp] theorem acknowledge_srcAddr (v : Word) (s : State) : (acknowledge v s).srcAddr = s.srcAddr := rfl

@[simp] theorem acknowledge_srcLen (v : Word) (s : State) : (acknowledge v s).srcLen = s.srcLen := rfl

@[simp] theorem acknowledge_dstAddr (v : Word) (s : State) : (acknowledge v s).dstAddr = s.dstAddr := rfl

@[simp] theorem acknowledge_dstCap (v : Word) (s : State) : (acknowledge v s).dstCap = s.dstCap := rfl

@[simp] theorem acknowledge_frameW (v : Word) (s : State) : (acknowledge v s).frameW = s.frameW := rfl

@[simp] theorem acknowledge_frameH (v : Word) (s : State) : (acknowledge v s).frameH = s.frameH := rfl

@[simp] theorem acknowledge_expLen (v : Word) (s : State) : (acknowledge v s).expLen = s.expLen := rfl

@[simp] theorem acknowledge_resultLen (v : Word) (s : State) : (acknowledge v s).resultLen = s.resultLen := rfl

@[simp] theorem acknowledge_faultCause (v : Word) (s : State) : (acknowledge v s).faultCause = s.faultCause := rfl

@[simp] theorem acknowledge_faultInfo (v : Word) (s : State) : (acknowledge v s).faultInfo = s.faultInfo := rfl

@[simp] theorem acknowledge_rotPerm (v : Word) (s : State) : (acknowledge v s).rotPerm = s.rotPerm := rfl

@[simp] theorem acknowledge_skipCnt (v : Word) (s : State) : (acknowledge v s).skipCnt = s.skipCnt := rfl

@[simp] theorem acknowledge_lutIndex (v : Word) (s : State) : (acknowledge v s).lutIndex = s.lutIndex := rfl

@[simp] theorem acknowledge_phase (v : Word) (s : State) : (acknowledge v s).phase = s.phase := rfl

@[simp] theorem acknowledge_mem (v : Word) (s : State) : (acknowledge v s).mem = s.mem := rfl

@[simp] theorem acknowledge_dirty (v : Word) (s : State) : (acknowledge v s).dirty = s.dirty := rfl

@[simp] theorem acknowledge_stale (v : Word) (s : State) : (acknowledge v s).stale = s.stale := rfl

@[simp] theorem acknowledge_platform (v : Word) (s : State) : (acknowledge v s).platform = s.platform := rfl

@[simp] theorem acknowledge_inputs (v : Word) (s : State) : (acknowledge v s).inputs = s.inputs := rfl

@[simp] theorem acknowledge_answer (v : Word) (s : State) : (acknowledge v s).answer = s.answer := rfl

@[simp] theorem acknowledge_draws (v : Word) (s : State) : (acknowledge v s).draws = s.draws := rfl

/-! ### A dropped CMD write (`dropCommand`) -/

@[simp] theorem dropCommand_ctrl (s : State) : (dropCommand s).ctrl = s.ctrl := rfl

@[simp] theorem dropCommand_status (s : State) : (dropCommand s).status = ⟨s.status.done, s.status.err, s.status.trail, true⟩ := rfl

@[simp] theorem dropCommand_srcAddr (s : State) : (dropCommand s).srcAddr = s.srcAddr := rfl

@[simp] theorem dropCommand_srcLen (s : State) : (dropCommand s).srcLen = s.srcLen := rfl

@[simp] theorem dropCommand_dstAddr (s : State) : (dropCommand s).dstAddr = s.dstAddr := rfl

@[simp] theorem dropCommand_dstCap (s : State) : (dropCommand s).dstCap = s.dstCap := rfl

@[simp] theorem dropCommand_frameW (s : State) : (dropCommand s).frameW = s.frameW := rfl

@[simp] theorem dropCommand_frameH (s : State) : (dropCommand s).frameH = s.frameH := rfl

@[simp] theorem dropCommand_expLen (s : State) : (dropCommand s).expLen = s.expLen := rfl

@[simp] theorem dropCommand_resultLen (s : State) : (dropCommand s).resultLen = s.resultLen := rfl

@[simp] theorem dropCommand_faultCause (s : State) : (dropCommand s).faultCause = s.faultCause := rfl

@[simp] theorem dropCommand_faultInfo (s : State) : (dropCommand s).faultInfo = s.faultInfo := rfl

@[simp] theorem dropCommand_rotPerm (s : State) : (dropCommand s).rotPerm = s.rotPerm := rfl

@[simp] theorem dropCommand_skipCnt (s : State) : (dropCommand s).skipCnt = s.skipCnt + 1 := rfl

@[simp] theorem dropCommand_lutIndex (s : State) : (dropCommand s).lutIndex = s.lutIndex := rfl

@[simp] theorem dropCommand_phase (s : State) : (dropCommand s).phase = s.phase := rfl

@[simp] theorem dropCommand_mem (s : State) : (dropCommand s).mem = s.mem := rfl

@[simp] theorem dropCommand_dirty (s : State) : (dropCommand s).dirty = s.dirty := rfl

@[simp] theorem dropCommand_stale (s : State) : (dropCommand s).stale = s.stale := rfl

@[simp] theorem dropCommand_platform (s : State) : (dropCommand s).platform = s.platform := rfl

@[simp] theorem dropCommand_inputs (s : State) : (dropCommand s).inputs = s.inputs := rfl

@[simp] theorem dropCommand_answer (s : State) : (dropCommand s).answer = s.answer := rfl

@[simp] theorem dropCommand_draws (s : State) : (dropCommand s).draws = s.draws := rfl

end Sys2Proof.Machine
end

