-- ==== Sys2Proof/Laws/Ops.lean ====
section
/-! SUPPORT. What each shared operation can do, said once: the checks, the end of a run, the engine's step, the host's
accesses, one step of the machine. Later proofs cite these and do not unfold the operations. -/

namespace Sys2Proof.Machine

/-! ### The checks (R282) -/

theorem rangeFault_eq_none_iff (l : Latched) :
    rangeFault l = none ↔
      l.srcAddr.toNat + l.srcLen.toNat ≤ Config.spaceSize ∧ l.dstAddr.toNat + l.dstCap.toNat ≤ Config.spaceSize := by
  unfold rangeFault
  split
  · simp only [reduceCtorEq, false_iff]; omega
  · split
    · simp only [reduceCtorEq, false_iff]; omega
    · simp only [true_iff]; omega

theorem overlapFault_eq_none_iff (l : Latched) :
    overlapFault l = none ↔ regionsOverlap l.source l.destination = false := by
  unfold overlapFault
  split <;> simp_all

theorem busFault_eq_none_iff (p : Platform) (l : Latched) :
    busFault p l = none ↔
      (∀ a, inRegion l.source a = true → memAdmit p a = true) ∧
      (∀ a, inRegion l.destination a = true → memAdmit p a = true) := by
  unfold busFault
  rw [← lowestRejected_eq_none_iff, ← lowestRejected_eq_none_iff]
  cases lowestRejected p l.source <;> cases lowestRejected p l.destination <;> simp

theorem capacityFault_eq_none_iff (need : Option Nat) (l : Latched) :
    capacityFault need l = none ↔ ∀ n, need = some n → n ≤ l.dstCap.toNat := by
  cases need with
  | none => simp [capacityFault]
  | some n =>
    unfold capacityFault
    dsimp only
    split
    · simp only [reduceCtorEq, false_iff]
      intro h
      have := h n rfl
      omega
    · simp only [true_iff, Option.some.injEq, forall_eq']
      omega

/-- All checks pass iff each of them does (R282). -/
theorem checkFault_eq_none_iff (p : Platform) (g : Option FaultRecord) (need : Option Nat) (l : Latched) :
    checkFault p g need l = none ↔
      g = none ∧ rangeFault l = none ∧ overlapFault l = none ∧ busFault p l = none ∧ capacityFault need l = none := by
  unfold checkFault
  cases g <;> cases rangeFault l <;> cases overlapFault l <;> cases busFault p l <;> simp

/-! ### The end of a run (R242) -/

/-- What a run that fails a check ends in: the check's fault, with nothing else done but perhaps a draw, or, where it
is raced, any end of R77. -/
theorem finishChecked_cases (f : FaultRecord) (l : Latched) (raced : Bool) (s : State) :
    (∃ d, finishChecked f l raced s = { takeFault f s with draws := d }) ∨
    (raced = true ∧ Config.raceChecked s.draws = false ∧ finishChecked f l raced s = finishRaced l s) := by
  unfold finishChecked
  cases raced with
  | false => exact Or.inl ⟨s.draws, rfl⟩
  | true =>
    cases h : Config.raceChecked s.draws with
    | true => exact Or.inl ⟨s.draws + 1, rfl⟩
    | false => exact Or.inr ⟨rfl, rfl, rfl⟩

/-- Everything the engine's step of a command that uses memory can do. -/
theorem finishRun_cases (g : Option FaultRecord) (need : Option Nat)
    (f : List Byte → Except FaultRecord CommandResult) (l : Latched) (raced : Bool) (s : State) :
    (∃ c d, checkFault s.platform g need l = some c ∧ finishRun g need f l raced s = { takeFault c s with draws := d }) ∨
    (raced = true ∧ (checkFault s.platform g need l = none ∨ Config.raceChecked s.draws = false) ∧
      finishRun g need f l raced s = finishRaced l s) ∨
    (checkFault s.platform g need l = none ∧ raced = false ∧ ∃ r, f (s.sourceBytes l) = .ok r ∧
      finishRun g need f l raced s = complete l r.out r.trail (exposeDestination l s)) ∨
    (checkFault s.platform g need l = none ∧ raced = false ∧ ∃ c, f (s.sourceBytes l) = .error c ∧
      finishRun g need f l raced s = takeDataFault l c s) := by
  unfold finishRun
  cases hc : checkFault s.platform g need l with
  | some c =>
    rcases finishChecked_cases c l raced s with ⟨d, hd⟩ | ⟨h1, h2, h3⟩
    · exact Or.inl ⟨c, d, rfl, hd⟩
    · exact Or.inr (Or.inl ⟨h1, Or.inr h2, h3⟩)
  | none =>
    cases raced with
    | true => exact Or.inr (Or.inl ⟨rfl, Or.inl rfl, rfl⟩)
    | false =>
      cases hf : f (s.sourceBytes l) with
      | ok r => exact Or.inr (Or.inr (Or.inl ⟨rfl, rfl, r, rfl, rfl⟩))
      | error c => exact Or.inr (Or.inr (Or.inr ⟨rfl, rfl, c, rfl, rfl⟩))

theorem finishRun_checked {s : State} {g : Option FaultRecord} {need : Option Nat} {l : Latched} {c : FaultRecord}
    (f : List Byte → Except FaultRecord CommandResult)
    (h : checkFault s.platform g need l = some c) : finishRun g need f l false s = takeFault c s := by
  simp [finishRun, finishChecked, h]

theorem finishRun_ok {s : State} {g : Option FaultRecord} {need : Option Nat} {l : Latched} {r : CommandResult}
    {f : List Byte → Except FaultRecord CommandResult}
    (h : checkFault s.platform g need l = none) (hf : f (s.sourceBytes l) = .ok r) :
    finishRun g need f l false s = complete l r.out r.trail (exposeDestination l s) := by
  simp [finishRun, h, hf]

theorem finishRun_error {s : State} {g : Option FaultRecord} {need : Option Nat} {l : Latched} {c : FaultRecord}
    {f : List Byte → Except FaultRecord CommandResult}
    (h : checkFault s.platform g need l = none) (hf : f (s.sourceBytes l) = .error c) :
    finishRun g need f l false s = takeDataFault l c s := by
  simp [finishRun, h, hf]

/-- The fields a raced run's end does not touch, and what it leaves (R77). -/
theorem finishRaced_cases (l : Latched) (s : State) :
    (finishRaced l s = { scramble l.footprint s with
        resultLen := BitVec.ofNat 32 (Config.raceLength s.draws % (l.dstCap.toNat + 1))
        status := ⟨true, s.status.err, Config.raceTrail s.draws, s.status.skip⟩
        phase := .idle }) ∨
    (finishRaced l s = { scramble l.footprint s with
        faultCause := racedCause (Config.raceCause s.draws)
        faultInfo := Config.raceInfo s.draws
        resultLen := 0
        status := ⟨false, true, Config.raceTrail s.draws, s.status.skip⟩
        phase := .idle }) := by
  unfold finishRaced
  by_cases h : Config.raceCompletes s.draws = true
  · exact Or.inl (by simp only [h, if_true]; rfl)
  · exact Or.inr (by simp only [h, if_false, Bool.false_eq_true]; rfl)

@[simp] theorem whileBusy_idle (f : Latched → Bool → State → State) (s : State) (h : s.phase = .idle) :
    whileBusy f s = .next s := by
  simp [whileBusy, h]

@[simp] theorem whileBusy_busy (f : Latched → Bool → State → State) (s : State) (l : Latched) (raced : Bool)
    (h : s.phase = .busy l raced) : whileBusy f s = .next (f l raced s) := by
  simp [whileBusy, h]

/-! ### The engine's step -/

theorem runLatched_idle (run : Instr → State → Host.Outcome State Fault Refusal) (s : State) (h : s.phase = .idle) :
    runLatched run s = .next s := by
  simp [runLatched, h]

theorem runLatched_busy (run : Instr → State → Host.Outcome State Fault Refusal) (s : State) (l : Latched)
    (raced : Bool) (i : Instr) (h : s.phase = .busy l raced) (hd : decode l.word = .ok i) :
    runLatched run s = run i s := by
  simp [runLatched, h, hd]

theorem isBusy_eq_true_iff (s : State) : s.isBusy = true ↔ ∃ l raced, s.phase = .busy l raced := by
  unfold State.isBusy
  cases s.phase <;> simp

theorem isBusy_eq_false_iff (s : State) : s.isBusy = false ↔ s.phase = .idle := by
  unfold State.isBusy
  cases s.phase <;> simp

/-! ### Host accesses -/

theorem onBacked_eq_next (s : State) (r : Region) (t u : State) (h : onBacked s r t = .next u) :
    backed s.platform r = true ∧ u = t := by
  unfold onBacked at h
  split at h
  · cases h
    exact ⟨by assumption, rfl⟩
  · cases h

theorem phaseAfterWrite_cases (rs : List Region) (p : Phase) :
    (p = .idle ∧ phaseAfterWrite rs p = .idle) ∨ ∃ l r r', p = .busy l r ∧ phaseAfterWrite rs p = .busy l r' := by
  cases p with
  | idle => exact Or.inl ⟨rfl, rfl⟩
  | busy l r => exact Or.inr ⟨l, r, _, rfl, rfl⟩

/-- Everything a host's register access that answers next can do. -/
theorem hostRegWrite_eq_next (w : AccessWidth) (addr : Nat) (v : Word) (s t : State)
    (h : hostRegWrite w addr v s = .next t) : ∃ r, windowReg s.platform w addr = .ok r ∧ t = writeReg r v s := by
  unfold hostRegWrite at h
  split at h
  · cases h
    exact ⟨_, by assumption, rfl⟩
  · cases h

theorem hostRegRead_eq_next (w : AccessWidth) (addr : Nat) (s t : State) (h : hostRegRead w addr s = .next t) :
    ∃ r, windowReg s.platform w addr = .ok r ∧ t = { s with answer := some (.word (readReg r s)) } := by
  unfold hostRegRead at h
  split at h
  · cases h
    exact ⟨_, by assumption, rfl⟩
  · cases h

/-- A CMD write is accepted, faulted at once, or dropped (R240, R241). -/
theorem offerCommand_cases (w : Word) (s : State) :
    (s.isBusy = false ∧ s.status.err = false ∧ (∃ i, decode w = .ok i) ∧ offerCommand w s = beginRun w s) ∨
    (s.isBusy = false ∧ s.status.err = false ∧ (∃ e, decode w = .error e) ∧
      offerCommand w s = takeFault (illegalRecord w) (beginRun w s)) ∨
    ((s.isBusy = true ∨ s.status.err = true) ∧ offerCommand w s = dropCommand s) := by
  unfold offerCommand acceptCommand
  cases hb : s.isBusy <;> cases he : s.status.err <;> cases hd : decode w <;> simp

/-- A host access touches neither the platform, the instants to come, nor what only the engine's end of a run or an
illegal CMD write sets. -/
theorem hostAccess_frame (a : HostAccess) (s t : State) (h : hostAccess a s = .next t) :
    t.platform = s.platform ∧ t.inputs = s.inputs := by
  cases a with
  | regRead w addr =>
    obtain ⟨r, _, rfl⟩ := hostRegRead_eq_next _ _ _ _ h
    exact ⟨rfl, rfl⟩
  | regWrite w addr v =>
    obtain ⟨r, _, rfl⟩ := hostRegWrite_eq_next _ _ _ _ _ h
    cases r <;> try exact ⟨rfl, rfl⟩
    rcases offerCommand_cases v s with ⟨_, _, _, h1⟩ | ⟨_, _, _, h1⟩ | ⟨_, h1⟩ <;> simp [writeReg, h1]
  | memRead addr len =>
    obtain ⟨_, rfl⟩ := onBacked_eq_next _ _ _ _ h
    exact ⟨rfl, rfl⟩
  | memWrite addr bs =>
    obtain ⟨_, rfl⟩ := onBacked_eq_next _ _ _ _ h
    exact ⟨rfl, rfl⟩
  | cacheClean addr len =>
    obtain ⟨_, rfl⟩ := onBacked_eq_next _ _ _ _ h
    split <;> exact ⟨rfl, rfl⟩
  | cacheInvalidate addr len =>
    obtain ⟨_, rfl⟩ := onBacked_eq_next _ _ _ _ h
    split <;> exact ⟨rfl, rfl⟩

/-! ### One step -/

/-- Everything a step that answers next can do (R250, R289). -/
theorem step_cases (s t : State) (h : step s = .next t) :
    (s.inputs = [] ∧ runLatched exec s = .next t) ∨
    ∃ i rest, s.inputs = i :: rest ∧
      ((i.reset = true ∧ t = resetBlock { s with inputs := rest }) ∨
       (i.reset = false ∧ ∃ u, hostStep i.access { s with inputs := rest } = .next u ∧
          ((i.engine = true ∧ s.isBusy = true ∧ runLatched exec u = .next t) ∨
           ((i.engine = false ∨ s.isBusy = false) ∧ t = u)))) := by
  unfold step advance at h
  split at h
  · exact Or.inl ⟨by assumption, h⟩
  · rename_i i rest hi
    refine Or.inr ⟨i, rest, hi, ?_⟩
    unfold instantStep at h
    split at h
    · cases h
      exact Or.inl ⟨by assumption, rfl⟩
    · rename_i hr
      refine Or.inr ⟨by simpa using hr, ?_⟩
      split at h
      · rename_i u hu
        refine ⟨u, hu, ?_⟩
        have hb : State.isBusy { s with inputs := rest } = s.isBusy := rfl
        rw [hb] at h
        split at h
        · rename_i he
          simp only [Bool.and_eq_true] at he
          exact Or.inl ⟨he.1, he.2, h⟩
        · rename_i he
          cases h
          refine Or.inr ⟨?_, rfl⟩
          cases h1 : i.engine <;> cases h2 : s.isBusy <;> simp_all
      · cases h
      · cases h

end Sys2Proof.Machine
end

