-- ==== Sys2Proof/Laws/Exec.lean ====
section
/-! SUPPORT. What exec is while the command is in flight, one lemma per instruction, and the small facts about the
transforms that the commands call. -/

namespace Sys2Proof.Machine

/-! ### exec, instruction by instruction -/

theorem exec_idle (i : Instr) (s : State) (h : s.phase = .idle) : exec i s = .next s := by
  cases i <;> exact whileBusy_idle _ s h

theorem exec_nop (s : State) (l : Latched) (raced : Bool) (h : s.phase = .busy l raced) :
    exec .nop s = .next (complete l [] false s) := whileBusy_busy _ s l raced h

theorem exec_rot (s : State) (l : Latched) (raced : Bool) (h : s.phase = .busy l raced) :
    exec .rot s = .next (finishRun none (some l.srcLen.toNat)
      (fun src => .ok ⟨rotateBuffer l.perm l.tailm src, false⟩) l raced s) := whileBusy_busy _ s l raced h

theorem exec_unrot (s : State) (l : Latched) (raced : Bool) (h : s.phase = .busy l raced) :
    exec .unrot s = .next (finishRun none (some l.srcLen.toNat)
      (fun src => .ok ⟨unrotateBuffer l.perm l.tailm src, false⟩) l raced s) := whileBusy_busy _ s l raced h

theorem exec_fold (s : State) (l : Latched) (raced : Bool) (h : s.phase = .busy l raced) :
    exec .fold s = .next (finishRun none (some l.srcLen.toNat) (fun src => .ok ⟨src.map foldByte, false⟩) l raced s) :=
  whileBusy_busy _ s l raced h

theorem exec_unfold (s : State) (l : Latched) (raced : Bool) (h : s.phase = .busy l raced) :
    exec .unfold s = .next (finishRun none (some l.srcLen.toNat) (fun src => .ok ⟨src.map unfoldByte, false⟩) l raced s) :=
  whileBusy_busy _ s l raced h

theorem exec_denc (s : State) (l : Latched) (raced : Bool) (h : s.phase = .busy l raced) :
    exec .denc s = .next (finishRun (rowFault l) (some l.srcLen.toNat)
      (fun src => .ok ⟨deltaEncode l.dseg l.frameW.toNat src, false⟩) l raced s) := whileBusy_busy _ s l raced h

theorem exec_ddec (s : State) (l : Latched) (raced : Bool) (h : s.phase = .busy l raced) :
    exec .ddec s = .next (finishRun (rowFault l) (some l.srcLen.toNat)
      (fun src => .ok ⟨deltaDecode l.dseg l.frameW.toNat src, false⟩) l raced s) := whileBusy_busy _ s l raced h

theorem exec_spenc (s : State) (l : Latched) (raced : Bool) (h : s.phase = .busy l raced) :
    exec .spenc s = .next (finishRun none none (fun src => fitOutput l (spanEncode l.zmode src)) l raced s) :=
  whileBusy_busy _ s l raced h

theorem exec_spdec (s : State) (l : Latched) (raced : Bool) (h : s.phase = .busy l raced) :
    exec .spdec s = .next (finishRun none (some l.expLen.toNat)
      (fun src => spanDecode l.zmode l.expLen.toNat src) l raced s) := whileBusy_busy _ s l raced h

theorem exec_compress (s : State) (l : Latched) (raced : Bool) (h : s.phase = .busy l raced) :
    exec .compress s = .next (finishRun (frameFault true l) none
      (fun src => fitOutput l (compressBytes l src)) l raced s) := whileBusy_busy _ s l raced h

theorem exec_decompress (s : State) (l : Latched) (raced : Bool) (h : s.phase = .busy l raced) :
    exec .decompress s = .next (finishRun (frameFault false l) (some (frameBytes l)) (decompressBytes l) l raced s) :=
  whileBusy_busy _ s l raced h

/-! ### Lengths of the transforms that keep the length -/

@[simp] theorem length_sourceBytes (s : State) (l : Latched) : (s.sourceBytes l).length = l.srcLen.toNat := by
  simp [State.sourceBytes]

@[simp] theorem length_rotateGroup (perm : BitVec 24) (x : List Byte) : (rotateGroup perm x).length = 8 := by
  simp [rotateGroup]

@[simp] theorem length_unrotateGroup (perm : BitVec 24) (x : List Byte) : (unrotateGroup perm x).length = 8 := by
  simp [unrotateGroup]

@[simp] theorem length_rotateTail (tm : Bool) (x : List Byte) : (rotateTail tm x).length = x.length := by
  cases tm <;> simp [rotateTail]

@[simp] theorem length_unrotateTail (tm : Bool) (x : List Byte) : (unrotateTail tm x).length = x.length := by
  cases tm <;> simp [unrotateTail]

theorem length_mapGroups (g t : List Byte → List Byte) (hg : ∀ x, (g x).length = 8) (ht : ∀ x, (t x).length = x.length)
    (n : Nat) (s : List Byte) (h : 8 * n ≤ s.length) : (mapGroups g t n s).length = s.length := by
  induction n generalizing s with
  | zero => exact ht s
  | succ n ih =>
    have hd : 8 * n ≤ (s.drop Config.groupBytes).length := by
      simp only [List.length_drop, Config.groupBytes]
      omega
    rw [mapGroups, List.length_append, hg, ih _ hd]
    simp only [List.length_drop, Config.groupBytes]
    omega

/-- The rotation keeps the length (R100). -/
@[simp] theorem length_rotateBuffer (perm : BitVec 24) (tm : Bool) (s : List Byte) :
    (rotateBuffer perm tm s).length = s.length :=
  length_mapGroups _ _ (length_rotateGroup perm) (length_rotateTail tm) _ _ (Nat.mul_div_le _ _)

@[simp] theorem length_unrotateBuffer (perm : BitVec 24) (tm : Bool) (s : List Byte) :
    (unrotateBuffer perm tm s).length = s.length :=
  length_mapGroups _ _ (length_unrotateGroup perm) (length_unrotateTail tm) _ _ (Nat.mul_div_le _ _)

theorem length_deltaEncodeFrom (dseg : Bool) (w i : Nat) (prev : Byte) (s : List Byte) :
    (deltaEncodeFrom dseg w i prev s).length = s.length := by
  induction s generalizing i prev with
  | nil => rfl
  | cons b t ih => simp [deltaEncodeFrom, ih]

theorem length_deltaDecodeFrom (dseg : Bool) (w i : Nat) (prev : Byte) (s : List Byte) :
    (deltaDecodeFrom dseg w i prev s).length = s.length := by
  induction s generalizing i prev with
  | nil => rfl
  | cons b t ih => simp [deltaDecodeFrom, ih]

@[simp] theorem length_deltaEncode (dseg : Bool) (w : Nat) (s : List Byte) : (deltaEncode dseg w s).length = s.length :=
  length_deltaEncodeFrom ..

@[simp] theorem length_deltaDecode (dseg : Bool) (w : Nat) (s : List Byte) : (deltaDecode dseg w s).length = s.length :=
  length_deltaDecodeFrom ..

/-! ### Bits -/

/-- Bit `k` of a packed byte is the `k`-th bit packed (R101). -/
theorem getLsbD_packByte (f : Nat → Bool) (k : Nat) : (packByte f).getLsbD k = (decide (k < 8) && f k) := by
  by_cases h : k < 8
  · have hk : k = 0 ∨ k = 1 ∨ k = 2 ∨ k = 3 ∨ k = 4 ∨ k = 5 ∨ k = 6 ∨ k = 7 := by omega
    unfold packByte
    rcases hk with rfl | rfl | rfl | rfl | rfl | rfl | rfl | rfl <;>
      cases f 0 <;> cases f 1 <;> cases f 2 <;> cases f 3 <;> cases f 4 <;> cases f 5 <;> cases f 6 <;> cases f 7 <;>
        decide
  · simp [h, BitVec.getLsbD_of_ge _ _ (Nat.le_of_not_lt h)]

end Sys2Proof.Machine
end

