-- ==== Sys2Proof/Laws/HostNotation.lean ====
section
/-! SUPPORT. What the memory lines of the host notation do (R85): MW leaves its bytes in memory and none of them
uncleaned, MR of an idle block answers memory. -/

namespace Sys2Proof.Machine

/-- An instant that brings a host access and no more is that access. -/
@[simp] theorem stepInstant_access (a : HostAccess) (s : State) : stepInstant ⟨false, some a, false⟩ s = hostAccess a s := by
  show (match hostAccess a s with
    | .next t => if false && s.isBusy then runLatched exec t else .next t
    | .fault f => .fault f
    | .refused r => .refused r) = hostAccess a s
  cases hostAccess a s <;> rfl

/-- One access that answers next, then the others. -/
theorem stepAccesses_cons {a : HostAccess} {s t : State} (rest : List HostAccess) (h : hostAccess a s = .next t) :
    stepAccesses (a :: rest) s = stepAccesses rest t := by
  simp [stepAccesses, h]

/-- A byte is in a part common to the first regions, `r` and the second regions only if it is in all of them. -/
theorem inRegions_common_common (ds ss : List Region) (r : Region) (a : Nat)
    (h : inRegions ((regionsCommon ds r).flatMap (fun h => regionsCommon ss h)) a = true) :
    inRegions ds a = true ∧ inRegion r a = true ∧ inRegions ss a = true := by
  obtain ⟨q, hq, hqa⟩ := (inRegions_iff _ _).mp h
  obtain ⟨d, hd, hqd⟩ := List.mem_flatMap.mp hq
  obtain ⟨h1, h2⟩ := (inRegions_regionsCommon ss d a).mp ((inRegions_iff _ _).mpr ⟨q, hqd, hqa⟩)
  obtain ⟨h3, h4⟩ := (inRegions_regionsCommon ds r a).mp ((inRegions_iff _ _).mpr ⟨d, hd, h2⟩)
  exact ⟨h3, h4, h1⟩

/-- An MW of backed memory answers a next state in which the engine reads its bytes: where DMA is not coherent they are
cleaned (R69, R85). -/
theorem stepLine_mw (addr : HostValue) (bytes : List Byte) (r : HostRun) (hwf : r.machine.mem.wf = true)
    (hb : backed r.machine.platform ⟨(hostValue r.temps addr).toNat, bytes.length⟩ = true) :
    ∃ t, stepLine (.mw addr bytes) r = .next t ∧
      ∀ k (h : k < bytes.length), t.engineByte ((hostValue r.temps addr).toNat + k) = bytes[k] := by
  generalize ha : (hostValue r.temps addr).toNat = a at hb
  have hr := Memory.rising_of_wf _ hwf
  have hin : ∀ k, k < bytes.length → inRegion ⟨a, bytes.length⟩ (a + k) = true := by
    intro k hk
    rw [inRegion_iff]
    dsimp only
    omega
  have hread : ∀ k (h : k < bytes.length), (r.machine.mem.writeBytes a bytes).read (a + k) = bytes[k] := by
    intro k hk
    rw [Memory.read_writeBytes _ _ _ _ hr, if_pos (hin k hk)]
    simp [hk]
  simp only [stepLine, lineAccess, writeAccesses, ha, stepAccesses, stepInstant_access, hostAccess, hostMemWrite,
    hostClean, onBacked, hb, if_true]
  refine ⟨_, rfl, fun k hk => ?_⟩
  cases hc : r.machine.platform.coherent with
  | true => simp [State.engineByte, hc, hread k hk]
  | false =>
    have hdirty : inRegions (regionsMinus (⟨a, bytes.length⟩ :: regionsMinus r.machine.dirty ⟨a, bytes.length⟩)
        ⟨a, bytes.length⟩) (a + k) = false := by
      rw [← Bool.not_eq_true, inRegions_regionsMinus, hin k hk]
      simp
    simp only [State.engineByte, Bool.false_eq_true, if_false, hdirty, Bool.and_false]
    rw [Memory.read_markAnys, if_neg, hread k hk]
    intro h
    have h2 := (inRegions_common_common _ _ _ _ h).2.2
    rw [inRegions_regionsMinus, hin k hk] at h2
    simp at h2

/-- An MR of backed memory at an idle block answers the bytes of memory, where no byte read is both uncleaned and stale
(R70, R85). -/
theorem stepLine_mr (n : Nat) (addr len : HostValue) (r : HostRun) (hp : r.machine.phase = .idle)
    (hb : backed r.machine.platform ⟨(hostValue r.temps addr).toNat, (hostValue r.temps len).toNat⟩ = true)
    (hs : ∀ a, inRegions r.machine.dirty a = true → inRegions r.machine.stale a = false) :
    ∃ t, stepLine (.mr n addr len) r = .next t ∧
      t.answer = some (.bytes (r.machine.mem.readBytes (hostValue r.temps addr).toNat (hostValue r.temps len).toNat)) := by
  generalize ha : (hostValue r.temps addr).toNat = a at *
  generalize hn : (hostValue r.temps len).toNat = m at *
  simp only [stepLine, lineAccess, readAccesses, ha, hn, stepAccesses, stepInstant_access, hostAccess, hostMemRead,
    hostClean, hostInvalidate, onBacked]
  cases hc : r.machine.platform.coherent with
  | true => simp [hb, hc, hp, hostByte, inRunDestination, Memory.readBytes]
  | false =>
    simp only [hb, hc, if_true, Bool.false_eq_true, if_false]
    refine ⟨_, rfl, congrArg (fun x => some (Answer.bytes x)) (List.map_congr_left fun k hk => ?_)⟩
    have hin : inRegion ⟨a, m⟩ (a + k) = true := by
      rw [inRegion_iff]
      simp only [List.mem_range] at hk
      dsimp only
      omega
    have hidle : ∀ rs, phaseAfterWrite rs Phase.idle = .idle := fun _ => rfl
    have hstale : inRegions (regionsMinus r.machine.stale ⟨a, m⟩) (a + k) = false := by
      rw [← Bool.not_eq_true, inRegions_regionsMinus, hin]
      simp
    simp only [hostByte, inRunDestination, hp, hidle, hstale, Bool.and_false, Bool.or_false, Bool.false_eq_true, if_false]
    rw [Memory.read_markAnys, if_neg, Memory.read_markAnys, if_neg]
    · intro h
      have h1 := inRegions_common_common _ _ _ _ h
      rw [hs _ h1.1] at h1
      cases h1.2.2
    · rw [inRegions_regionsCommon, inRegions_regionsMinus, hin]
      simp

end Sys2Proof.Machine
end

