-- ==== Sys2Proof/Laws/PerInstr.lean ====
section
/-! SUPPORT. Facts about every command as syntax, one lemma per constructor. -/

namespace Sys2Proof.Laws

namespace WordRoundTrip

/-- The command's word decodes to it, is a legal word, and is found by the opcode table's numbering (R80, R81). -/
def Statement (i : Instr) : Prop :=
  i.wellFormed = true ∧ decode (encode i) = .ok i ∧ (rawCommand (encode i)).wellFormed = true ∧
    decodeTableWord 32 (encode i).toNat = some i

theorem nop : Statement .nop := by unfold Statement; decide
theorem rot : Statement .rot := by unfold Statement; decide
theorem unrot : Statement .unrot := by unfold Statement; decide
theorem fold : Statement .fold := by unfold Statement; decide
theorem unfold : Statement .unfold := by unfold Statement; decide
theorem denc : Statement .denc := by unfold Statement; decide
theorem ddec : Statement .ddec := by unfold Statement; decide
theorem spenc : Statement .spenc := by unfold Statement; decide
theorem spdec : Statement .spdec := by unfold Statement; decide
theorem compress : Statement .compress := by unfold Statement; decide
theorem decompress : Statement .decompress := by unfold Statement; decide

end WordRoundTrip

end Sys2Proof.Laws
end

