-- ==== Sys2Proof/Laws/Safety.lean ====
section
/-! SUPPORT. The claims' terms against the machine's operations: when all checks pass, what a fault of the checks makes of
a command, and that `complete`, `exposeDestination`, `takeFault` and `takeDataFault` leave what `Published`, `Completed`,
`CheckFaultTaken` and `DataFaultTaken` say. -/

namespace Sys2Proof.Machine

theorem regionsUsable_iff (p : Platform) (l : Latched) :
    RegionsUsable p l ↔ rangeFault l = none ∧ overlapFault l = none ∧ busFault p l = none := by
  rw [rangeFault_eq_none_iff, overlapFault_eq_none_iff, busFault_eq_none_iff]
  have hov : regionsOverlap l.source l.destination = false ↔
      ∀ a, inRegion l.source a = true → inRegion l.destination a = false := by
    rw [← Bool.not_eq_true, regionsOverlap_iff_common]
    constructor
    · intro h a ha
      rw [← Bool.not_eq_true]
      exact fun hb => h ⟨a, ha, hb⟩
    · rintro h ⟨a, ha, hb⟩
      rw [h a ha] at hb
      cases hb
  constructor
  · rintro ⟨h1, h2, h3, h4, h5⟩
    exact ⟨⟨h1, h2⟩, hov.mpr h3, h4, h5⟩
  · rintro ⟨⟨h1, h2⟩, h3, h4, h5⟩
    exact ⟨h1, h2, hov.mp h3, h4, h5⟩

/-- All checks of R282 pass iff none of them finds a fault. -/
theorem checksPass_iff (i : Instr) (p : Platform) (l : Latched) :
    ChecksPass i p l ↔ checkFault p (geometryFault i l) (staticNeed i l) l = none := by
  rw [checkFault_eq_none_iff, capacityFault_eq_none_iff]
  constructor
  · rintro ⟨h1, h2, h3⟩
    obtain ⟨h4, h5, h6⟩ := (regionsUsable_iff p l).mp h2
    exact ⟨h1, h4, h5, h6, h3⟩
  · rintro ⟨h1, h4, h5, h6, h3⟩
    exact ⟨h1, (regionsUsable_iff p l).mpr ⟨h4, h5, h6⟩, h3⟩

/-- A command that uses memory, is not raced and fails a check takes that check's fault (R282). -/
theorem exec_of_checkFault {i : Instr} {s : State} {l : Latched} {f : FaultRecord}
    (hi : i ≠ .nop) (hp : s.phase = .busy l false)
    (hf : checkFault s.platform (geometryFault i l) (staticNeed i l) l = some f) :
    exec i s = .next (takeFault f s) := by
  cases i with
  | nop => exact absurd rfl hi
  | rot => rw [exec_rot s l false hp]; exact congrArg _ (finishRun_checked _ hf)
  | unrot => rw [exec_unrot s l false hp]; exact congrArg _ (finishRun_checked _ hf)
  | fold => rw [exec_fold s l false hp]; exact congrArg _ (finishRun_checked _ hf)
  | unfold => rw [exec_unfold s l false hp]; exact congrArg _ (finishRun_checked _ hf)
  | denc => rw [exec_denc s l false hp]; exact congrArg _ (finishRun_checked _ hf)
  | ddec => rw [exec_ddec s l false hp]; exact congrArg _ (finishRun_checked _ hf)
  | spenc => rw [exec_spenc s l false hp]; exact congrArg _ (finishRun_checked _ hf)
  | spdec => rw [exec_spdec s l false hp]; exact congrArg _ (finishRun_checked _ hf)
  | compress => rw [exec_compress s l false hp]; exact congrArg _ (finishRun_checked _ hf)
  | decompress => rw [exec_decompress s l false hp]; exact congrArg _ (finishRun_checked _ hf)

/-! ### The footprint of a run -/

/-- The footprint holds the destination's addresses below 2^32 that are no source addresses. -/
theorem inRegions_footprint (l : Latched) (a : Nat) : inRegions l.footprint a = true ↔
    inRegion l.destination a = true ∧ inRegion l.source a = false ∧ a < Config.spaceSize := by
  unfold Latched.footprint
  rw [inRegions_regionMinus]
  simp only [inRegion_iff, regionBelow, regionStop]
  constructor
  · rintro ⟨⟨h1, h2⟩, h3⟩
    exact ⟨⟨h1, by omega⟩, h3, by omega⟩
  · rintro ⟨⟨h1, h2⟩, h3, h4⟩
    exact ⟨⟨h1, by omega⟩, h3⟩

/-- Where the regions are usable the footprint is the whole destination. -/
theorem inRegions_footprint_of_usable {p : Platform} {l : Latched} (h : RegionsUsable p l) (a : Nat) :
    inRegions l.footprint a = inRegion l.destination a := by
  rw [Bool.eq_iff_iff, inRegions_footprint]
  refine ⟨fun h1 => h1.1, fun h1 => ⟨h1, ?_, ?_⟩⟩
  · rw [← Bool.not_eq_true]
    intro h2
    have h3 := h.apart a h2
    rw [h1] at h3
    cases h3
  · have h4 := (inRegion_iff _ _).mp h1
    have h5 := h.destination_in_range
    simp only [Latched.destination] at h4
    omega

/-! ### What the shared ends of a run leave -/

theorem checkFaultTaken_takeFault (f : FaultRecord) (s : State) : CheckFaultTaken f s (takeFault f s) := by
  refine ⟨⟨?_, ?_, ?_, ?_, ?_, ?_, ?_, ⟨?_, ?_, ?_, ?_, ?_, ?_, ?_, ?_, ?_, ?_, ?_, ?_⟩, ⟨?_, ?_, ?_, ?_⟩⟩, ?_, ?_⟩ <;> rfl

theorem hostCopiesStale_of_staleAfter (r : Region) (s t : State) (h : t.stale = s.staleAfter [r]) :
    HostCopiesStale r s t := by
  unfold HostCopiesStale
  rw [h]
  unfold State.staleAfter
  constructor
  · intro hc
    simp [hc]
  · intro hc a
    simp only [hc, Bool.false_eq_true, if_false, List.foldl_cons, List.foldl_nil]
    have := inRegions_regionsMinus s.stale r a
    simp only [inRegions, List.cons_append, List.nil_append, List.any_cons] at this ⊢
    rw [Bool.eq_iff_iff, Bool.or_eq_true, Bool.or_eq_true, this]
    cases inRegion r a <;> simp

theorem dataFaultTaken_takeDataFault (l : Latched) (f : FaultRecord) (s : State) :
    DataFaultTaken l f s (takeDataFault l f s) := by
  refine ⟨⟨?_, ?_, ?_, ?_, ?_, ?_, ?_, ⟨?_, ?_, ?_, ?_, ?_, ?_, ?_, ?_, ?_, ?_, ?_, ?_⟩, ⟨?_, ?_, ?_, ?_⟩⟩, ?_,
    hostCopiesStale_of_staleAfter _ _ _ rfl⟩ <;> first | rfl | skip
  intro a ha
  show (s.mem.markAnys [l.destination] s.draws).read a = _
  rw [Memory.read_markAnys]
  simp [inRegions, ha]

/-- The completion step leaves its result at the destination and everything else as it was (R67, R242). -/
theorem published_complete (l : Latched) (out : List Byte) (trail : Bool) (s : State) (hwf : s.mem.wf = true)
    (hlen : out.length < Config.spaceSize) : Published l out trail s (complete l out trail s) := by
  have hr := Memory.rising_of_wf _ hwf
  refine ⟨?_, ?_, ?_, rfl, rfl, rfl, rfl, rfl, rfl, ⟨?_, ?_, ?_, ?_, ?_, ?_, ?_, ?_, ?_, ?_, ?_, ?_⟩, ⟨?_, ?_, ?_, ?_⟩⟩ <;>
    first | rfl | skip
  · intro k hk
    show (s.mem.writeBytes l.dstAddr.toNat out).read _ = _
    rw [Memory.read_writeBytes _ _ _ _ hr, if_pos (by rw [inRegion_iff]; dsimp only; omega)]
    simp [hk]
  · intro a ha
    show (s.mem.writeBytes l.dstAddr.toNat out).read _ = _
    rw [Memory.read_writeBytes _ _ _ _ hr, if_neg (by rw [ha]; decide)]
  · show (BitVec.ofNat 32 out.length).toNat = _
    rw [BitVec.toNat_ofNat]
    exact Nat.mod_eq_of_lt hlen

/-- A command that uses memory completes with its result published and its destination's copies stale. -/
theorem completed_complete (l : Latched) (out : List Byte) (trail : Bool) (s : State) (hwf : s.mem.wf = true)
    (hlen : out.length < Config.spaceSize) : Completed l out trail s (complete l out trail (exposeDestination l s)) := by
  refine ⟨?_, hostCopiesStale_of_staleAfter _ _ _ rfl⟩
  have h := published_complete l out trail (exposeDestination l s) hwf hlen
  exact ⟨h.result, h.elsewhere, h.resultLen, h.done, h.trail, h.err, h.phase, h.faultCause, h.faultInfo,
    ⟨h.registers.ctrl, h.registers.srcAddr, h.registers.srcLen, h.registers.dstAddr, h.registers.dstCap,
      h.registers.frameW, h.registers.frameH, h.registers.expLen, h.registers.rotPerm, h.registers.skipCnt,
      h.registers.lutIndex, h.registers.skip⟩,
    ⟨h.outside.platform, h.outside.inputs, h.outside.dirty, h.outside.answer⟩⟩

end Sys2Proof.Machine
end

