-- ==== Sys2Proof/Tests/Slice0.lean ====
section
/-! SUPPORT. The model's own tests: ill-formed words, written-out command words, one step of each command against the
worked examples of the spec (the command rules and 95_test_vectors.md), the registers, and for each statement of
Certificates/Slice0/Obligations.lean that has hypotheses a state and operands that meet them (`witness_…`). -/

namespace Sys2Proof.Tests

open Sys2Proof.Machine

/-! ### Well-formedness: what each check refuses (R80, R82) -/

theorem test_wf_refuses_reserved_bits : (RawCommand.mk 0x00 1).wellFormed = false := by decide
theorem test_wf_refuses_reserved_opcode : (RawCommand.mk 0x0B 0).wellFormed = false := by decide
theorem test_wf_accepts_last_opcode : (RawCommand.mk 0x0A 0).wellFormed = true := by decide
theorem test_instr_wf : Instr.compress.wellFormed = true := by decide

/-! ### Decoding: RSVD (24 bits) and OP (8 bits) written out from R80 and R81 -/

theorem test_decode_nop : decode (0#24 ++ 0b00000000#8) = .ok .nop := by decide
theorem test_decode_rot : decode (0#24 ++ 0b00000001#8) = .ok .rot := by decide
theorem test_decode_unrot : decode (0#24 ++ 0b00000010#8) = .ok .unrot := by decide
theorem test_decode_fold : decode (0#24 ++ 0b00000011#8) = .ok .fold := by decide
theorem test_decode_unfold : decode (0#24 ++ 0b00000100#8) = .ok .unfold := by decide
theorem test_decode_denc : decode (0#24 ++ 0b00000101#8) = .ok .denc := by decide
theorem test_decode_ddec : decode (0#24 ++ 0b00000110#8) = .ok .ddec := by decide
theorem test_decode_spenc : decode (0#24 ++ 0b00000111#8) = .ok .spenc := by decide
theorem test_decode_spdec : decode (0#24 ++ 0b00001000#8) = .ok .spdec := by decide
theorem test_decode_compress : decode (0#24 ++ 0b00001001#8) = .ok .compress := by decide
theorem test_decode_decompress : decode (0#24 ++ 0b00001010#8) = .ok .decompress := by decide
theorem test_decode_refuses_first_reserved : decode (0#24 ++ 0b00001011#8) = .error (.reservedOpcode 0x0B) := by decide
theorem test_decode_refuses_top_bit : decode 0x80000001 = .error (.reservedBits 0x80000001) := by decide
theorem test_decode_bytes : decodeBytes [0x09, 0, 0, 0, 0xEE] = .ok (.compress, [0xEE]) := by decide
theorem test_decode_short : decodeBytes [0x09, 0, 0] = .error .shortWord := by decide

/-! ### A small machine -/

/-- A window at 0x400, the low 64 KiB of DMA memory admitted, DMA coherent. -/
def demoPlatform : Platform := ⟨8, [⟨0, 0x10000⟩], true⟩

/-- An operand set in the reset modes: the source at 0x1000, the destination of `cap` bytes at 0x2000. -/
def demoLatched (i : Instr) (n cap : Nat) : Latched where
  word := encode i
  dseg := false
  zmode := .chain
  tailm := false
  srcAddr := 0x1000
  srcLen := BitVec.ofNat 32 n
  dstAddr := 0x2000
  dstCap := BitVec.ofNat 32 cap
  frameW := 4
  frameH := 2
  expLen := 9
  perm := Config.identityPerm

/-- The machine with this operand set in flight and `src` at 0x1000. -/
def demoRun (l : Latched) (src : List Byte) : State :=
  { State.reset with
    platform := demoPlatform
    mem := Memory.empty.writeBytes 0x1000 src
    phase := .busy l false }

/-- `demoRun` in the reset modes. -/
def demo (i : Instr) (src : List Byte) (cap : Nat) : State := demoRun (demoLatched i src.length cap) src

/-- The idle machine on the small platform. -/
def idle : State := { State.reset with platform := demoPlatform }

/-- The next state; the reset state where there is none. -/
def after (o : Host.Outcome State Fault Refusal) : State :=
  match o with
  | .next t => t
  | _ => State.reset

/-- STATUS and the result a host reads at the destination. -/
def published (o : Host.Outcome State Fault Refusal) : Word × List Byte :=
  (statusWord (after o), (after o).mem.readBytes 0x2000 (after o).resultLen.toNat)

/-- STATUS, FAULT_CAUSE, FAULT_INFO. -/
def faulted (o : Host.Outcome State Fault Refusal) : Word × Word × Word :=
  (statusWord (after o), causeCode (after o).faultCause, (after o).faultInfo)

/-! ### One step of each command -/

-- R243's example
theorem test_nop : published (exec .nop (demo .nop [1, 2] 4)) = (0x02, []) := by decide
-- R107's example; V-ROT-6 row 1 with a tail of one byte
theorem test_rot : published (exec .rot (demo .rot [0xFF, 0, 0, 0, 0, 0, 0, 0] 8)) = (0x02, [1, 1, 1, 1, 1, 1, 1, 1]) := by
  decide
theorem test_rot_perm : published (exec .rot (demoRun { demoLatched .rot 8 9 with perm := 0xFAC681 }
    [0x12, 0x34, 0x56, 0x78, 0x9A, 0xBC, 0xDE, 0xF0])) = (0x02, [0x00, 0x56, 0x65, 0x78, 0xFF, 0xA9, 0xCC, 0xF0]) := by
  decide
-- V-ROT-6 row 1; the tail of P4
theorem test_unrot_perm : published (exec .unrot (demoRun { demoLatched .unrot 8 8 with perm := 0xFAC681 }
    [0x12, 0x34, 0x56, 0x78, 0x9A, 0xBC, 0xDE, 0xF0])) = (0x02, [0x55, 0x00, 0x66, 0x78, 0xFF, 0xAA, 0xCC, 0xF0]) := by
  decide
theorem test_unrot_tail : published (exec .unrot (demo .unrot [0x99, 0x99] 2)) = (0x02, [0x55, 0xAA]) := by decide
-- R135's and R136's examples; DST_OVERFLOW (R277)
theorem test_fold : published (exec .fold (demo .fold [0x00, 0x01, 0xFF, 0x80, 0x7F] 5)) =
    (0x02, [0x00, 0x02, 0x01, 0xFF, 0xFE]) := by decide
theorem test_fold_overflow : faulted (exec .fold (demo .fold [1, 2] 1)) = (0x04, 6, 1) := by decide
theorem test_unfold : published (exec .unfold (demo .unfold [0x00, 0x02, 0x01, 0xFF, 0xFE] 5)) =
    (0x02, [0x00, 0x01, 0xFF, 0x80, 0x7F]) := by decide
-- R137's examples
theorem test_denc_rows : published (exec .denc (demo .denc [10, 10, 12, 12, 0, 0, 0, 0] 8)) =
    (0x02, [20, 0, 4, 0, 0, 0, 0, 0]) := by decide
theorem test_denc_chain : published (exec .denc (demoRun { demoLatched .denc 8 8 with dseg := true }
    [10, 10, 12, 12, 0, 0, 0, 0])) = (0x02, [20, 0, 4, 0, 23, 0, 0, 0]) := by decide
-- R138's example; R273, sub-code 1
theorem test_ddec : published (exec .ddec (demo .ddec [20, 0, 4, 0, 0, 0, 0, 0] 8)) =
    (0x02, [10, 10, 12, 12, 0, 0, 0, 0]) := by decide
theorem test_ddec_geometry : faulted (exec .ddec (demoRun { demoLatched .ddec 1 1 with frameW := 0 } [1])) = (0x04, 2, 1) := by
  decide
-- R172's example
theorem test_spenc : published (exec .spenc (demo .spenc [0, 0, 0x0A, 1, 2, 0, 0, 0, 0] 18)) =
    (0x02, [0x01, 0x82, 0x0A, 0x01, 0x02, 0x03]) := by decide
theorem test_spenc_overflow : faulted (exec .spenc (demo .spenc [5] 1)) = (0x04, 6, 1) := by decide
-- R173's example; SRC_TRUNCATED at the end of the stream (R278)
theorem test_spdec : published (exec .spdec (demo .spdec [0x01, 0x82, 0x0A, 0x01, 0x02, 0x03] 9)) =
    (0x02, [0, 0, 0x0A, 1, 2, 0, 0, 0, 0]) := by decide
theorem test_spdec_truncated : faulted (exec .spdec (demo .spdec [0x01] 9)) = (0x04, 7, 1) := by decide
-- R203's example (V-FRM-1a); R273, sub-code 4
theorem test_compress : published (exec .compress (demo .compress [10, 10, 12, 12, 0, 0, 0, 0] 0x40)) =
    (0x02, [0x01, 0x82, 0x0A, 0x01, 0x02, 0x03]) := by decide
theorem test_compress_geometry : faulted (exec .compress (demo .compress [10, 10] 0x40)) = (0x04, 2, 4) := by decide
-- V-FRM-1e; V-FRM-5a
theorem test_decompress_trail : published (exec .decompress
    (demo .decompress [0x01, 0x82, 0x0A, 0x01, 0x02, 0x03, 0xEE, 0xEE] 8)) =
      (0x12, [10, 10, 12, 12, 0, 0, 0, 0]) := by decide
theorem test_decompress_mismatch : faulted (exec .decompress
    (demo .decompress [0x84, 0x01, 0x01, 0x0B, 0x00, 0x02, 0x03] 8)) = (0x04, 10, 0) := by decide

/-! ### The zero-run codes and the length block at their boundaries (R162 to R164, R200) -/

theorem test_zeros_chain_382 : zeroRunCode .chain 382 = [0x7F, 0x7F, 0x7F, 0x00] := by decide
theorem test_zeros_cont_383 : zeroRunCode .cont 383 = [0x7F, 0xFF, 0x00] := by decide
theorem test_zeros_split_129 : zeroRunCode .split 129 = [0x7F, 0x00] := by decide
theorem test_length_block_382 : lengthBlock 382 = [0x7F, 0xFF, 0x00] := by decide
theorem test_span_single_zero : spanEncode .chain [5, 0, 6, 0] = [0x82, 5, 0, 6, 0x00] := by decide

/-! ### Registers and control (V-CTL-2, V-CTL-4, V-CTL-5, V-CTL-8) -/

/-- One instant of the machine. -/
def instant (x : Instant) (s : State) : State := after (step { s with inputs := [x] })

/-- The machine after a host writes the register at the offset. -/
def write (off : Nat) (v : Word) (s : State) : State := instant ⟨false, some (windowWrite demoPlatform off v), false⟩ s

theorem test_ctrl_reserved_zmode : readReg .ctrl (write 0x04 0xFFFFFFFF idle) = 0x13 := by decide
theorem test_perm_refused : readReg .rotPerm (write 0x38 0x00000000 idle) = 0x00FAC688 := by decide
theorem test_drop_while_busy : statusWord (write 0x0C 0xFF (write 0x0C 0x00 idle)) = 0x21 := by decide
theorem test_illegal_word : faulted (.next (write 0x0C 0x0B idle)) = (0x04, 1, 0x0B) := by decide
theorem test_drop_while_err : statusWord (write 0x0C 0x00 (write 0x0C 0x0B idle)) = 0x24 := by decide
theorem test_clear_meets_completion :
    statusWord (instant ⟨false, some (windowWrite demoPlatform 0x08 0x26), true⟩ (write 0x0C 0x00 idle)) = 0x02 := by decide
theorem test_reset_in_run : statusWord (instant ⟨true, none, false⟩ (write 0x0C 0x01 idle)) = 0x00 := by decide
/-- Whether the run in flight is raced. -/
def isRaced (s : State) : Bool :=
  match s.phase with
  | .idle => false
  | .busy _ raced => raced

-- R168: a literal both overlong and cut off is DEC_OVERRUN
theorem test_span_overrun_before_truncation : spanDecode .chain 2 [0x00, 0x81] = .error ⟨.decOverrun, 1⟩ := rfl
-- R77 and notes/assumptions/7.md: an invalidate of an uncleaned source byte races the run
theorem test_invalidate_races :
    isRaced (after (hostInvalidate 0x1000 1 { demo .rot [1] 8 with
      platform := ⟨8, [⟨0, 0x10000⟩], false⟩, dirty := [⟨0x1000, 1⟩] })) = true := by decide
-- R70 and notes/assumptions/7.md: a completion with one byte exposes the whole destination, NOP exposes nothing
theorem test_completion_exposes_destination :
    inRegions (after (exec .fold { demo .fold [1] 8 with platform := ⟨8, [⟨0, 0x10000⟩], false⟩ })).stale 0x2007 = true ∧
    (after (exec .nop { demo .nop [1] 8 with platform := ⟨8, [⟨0, 0x10000⟩], false⟩ })).stale = [] := by decide
-- R85 and notes/assumptions/13.md: BEQ compares with a temporary
theorem test_beq_with_temporary :
    nextLine [.label 0, .beq 1 (.temp 2) 0] [.word 0, .word 5, .word 5] (.beq 1 (.temp 2) 0) 1 = 0 ∧
    nextLine [.label 0, .beq 1 (.temp 2) 0] [.word 0, .word 5, .word 6] (.beq 1 (.temp 2) 0) 1 = 2 := by decide
-- R85, R69, R70: MW leaves nothing uncleaned, MR reads a result of an ended run as memory has it
theorem test_mw_cleans :
    (after (stepLine (.mw (.const 0x1000) [7]) (hostStart { idle with platform := ⟨8, [⟨0, 0x10000⟩], false⟩ }))).dirty = [] := by
  decide
theorem test_mr_invalidates :
    (after (stepLine (.mr 2 (.const 0x2000) (.temp 0)) { hostStart { idle with
      platform := ⟨8, [⟨0, 0x10000⟩], false⟩, stale := [⟨0x2000, 8⟩], mem := Memory.empty.writeBytes 0x2000 [9] } with
        temps := [.word 2] })).answer = some (.bytes [9, 0]) := by decide
theorem test_fetch_word_runs : statusWord (after (step (State.reset.withFetchWord 32 0))) = 0x02 := by decide

/-! ### States and operands that meet the statements' hypotheses -/

/-- The regions are usable where no check of R282 objects. -/
theorem usable (p : Platform) (l : Latched) (h : checkFault p none none l = none) : RegionsUsable p l := by
  rw [checkFault_eq_none_iff] at h
  exact (regionsUsable_iff p l).mpr ⟨h.2.1, h.2.2.1, h.2.2.2.1⟩

/-- Two bytes in, as many bytes of room, both regions at the top of the admitted stretch. -/
def edge (i : Instr) : Latched :=
  { demoLatched i 2 2 with srcAddr := 0xFFFC, dstAddr := 0xFFFE, expLen := 2, frameW := 1, frameH := 2 }

theorem witness_StepRunsTheLatchedCommand :
    (demo .rot [1] 8).phase = .busy (demoLatched .rot 1 8) false ∧ decode (demoLatched .rot 1 8).word = .ok .rot ∧
    ({ demo .rot [1] 8 with inputs := [engineInstant] } : State).inputs = engineInstant :: [] ∧
    engineInstant.reset = false ∧ hostStep engineInstant.access (demo .rot [1] 8) = .next (demo .rot [1] 8) ∧
    ({ idle with inputs := [engineInstant] } : State).phase = .idle :=
  ⟨rfl, by decide, rfl, rfl, rfl, rfl⟩

theorem witness_ResetReadings : idle.phase = .idle := rfl

theorem witness_ResetDuringRun : (demo .rot [1] 8).phase = .busy (demoLatched .rot 1 8) false ∧
    (demoLatched .rot 1 8).usesMemory = true ∧ inRegion (demoLatched .rot 1 8).destination 0x2007 = true ∧
    inRegion (demoLatched .rot 1 8).source 0x2007 = false ∧ inRegion (demoLatched .rot 1 8).source 0x1000 = true ∧
    (demoLatched .nop 1 8).usesMemory = false := ⟨rfl, by decide, by decide, by decide, by decide, by decide⟩

theorem witness_StatusWrite :
    (write 0x0C 0x00 idle).phase = .busy (idle.latch 0x00) false ∧ decode (idle.latch 0x00).word = .ok .nop ∧
    ({ write 0x0C 0x00 idle with inputs := [⟨false, some (windowWrite demoPlatform 0x08 0x26), true⟩] } : State).inputs =
      ⟨false, some (windowWrite demoPlatform 0x08 0x26), true⟩ :: [] := ⟨by decide, by decide, rfl⟩

/-- A written word for each value of v[3:2]. -/
theorem witness_CtrlWrite : (0x10 : Word).extractLsb' 2 2 = 0 ∧ (0x07 : Word).extractLsb' 2 2 = 1 ∧
    (0xFFFFFFFB : Word).extractLsb' 2 2 = 2 ∧ (0x0C : Word).extractLsb' 2 2 = 3 := by decide

/-- Both clauses of PermWrite: eight distinct fields, and fields that are not. -/
theorem witness_PermWrite :
    (∀ p, p < 8 → ∀ q, q < 8 → (0xFF053977 : Word).extractLsb' (3 * p) 3 = (0xFF053977 : Word).extractLsb' (3 * q) 3 → p = q) ∧
    ¬ (∀ p, p < 8 → ∀ q, q < 8 → (0x00FAC689 : Word).extractLsb' (3 * p) 3 = (0x00FAC689 : Word).extractLsb' (3 * q) 3 → p = q) := by
  decide

theorem witness_OperandRegistersReadBack : Reg.frameH.isOperand = true ∧ Reg.expLen.isOperand = true := by decide

theorem witness_UnassignedOffsets : 0x44 ≤ 0x7C ∧ 0x44 % 4 = 0 ∧ 0x7C % 4 = 0 := by decide

/-- An access at the last register word has a meaning; a byte access there, and a word access past it, have none. -/
theorem witness_DefinedRegisterAccesses :
    (∃ off, off % 4 = 0 ∧ off ≤ 0x7C ∧ 0x47C = regBase idle.platform + off) ∧ AccessWidth.bits8 ≠ .bits32 ∧
    ¬ (∃ off, off % 4 = 0 ∧ off ≤ 0x7C ∧ 0x480 = regBase idle.platform + off) := by
  refine ⟨⟨0x7C, by decide⟩, by decide, ?_⟩
  rintro ⟨off, h1, h2, h3⟩
  have : regBase idle.platform = 0x400 := by decide
  omega

theorem witness_CommandAccepted : idle.phase = .idle ∧ idle.status.err = false ∧ decode 0x0A = .ok .decompress := by decide

/-- Both ways to be illegal, at the first reserved opcode and at the lowest RSVD bit. -/
theorem witness_IllegalCommandFaults : idle.phase = .idle ∧ idle.status.err = false ∧
    0x0B ≤ ((0x0B : Word).extractLsb' 0 8).toNat ∧ (0x100 : Word).extractLsb' 8 24 ≠ 0 := by decide

theorem witness_CommandDropped : (demo .rot [1] 8).isBusy = true ∧ (write 0x0C 0x0B idle).status.err = true := by decide

theorem witness_RegisterWritesDuringRunDoNotReachTheCommand :
    (demo .rot [1] 8).phase = .busy (demoLatched .rot 1 8) false ∧ (demo .rot [1] 8).status.err = false ∧
    (∃ t t', hostAccess (.regWrite .bits32 0x410 7) (demo .rot [1] 8) = .next t ∧ exec .rot t = .next t') ∧
    ∃ s', exec .rot (demo .rot [1] 8) = .next s' := ⟨rfl, rfl, ⟨_, _, rfl, rfl⟩, _, rfl⟩

theorem witness_CommandDependsOnLatchAndMemoryAlone :
    ({ demo .fold [1] 0 with frameW := 7 } : State).phase = .busy (demoLatched .fold 1 0) false ∧
    (∃ s' u', exec .fold (demo .fold [1] 0) = .next s' ∧ exec .fold { demo .fold [1] 0 with frameW := 7 } = .next u' ∧
      s'.status.done = false) := ⟨rfl, _, _, rfl, rfl, by decide⟩

theorem witness_NothingPublishedBeforeTheEnd :
    (demo .rot [1] 8).status.done = false ∧ (demo .rot [1] 8).status.err = false ∧ (demo .rot [1] 8).status.trail = false ∧
    ∃ t, step { demo .rot [1] 8 with inputs := [⟨false, some (windowRead demoPlatform 0x08), false⟩] } = .next t :=
  ⟨rfl, rfl, rfl, _, rfl⟩

theorem witness_EngineStepEndsTheRun : (demo .rot [1] 8).phase = .busy (demoLatched .rot 1 8) false ∧
    (demo .rot [1] 8).status.err = false ∧ idle.phase = .idle ∧ idle.inputs = [] := ⟨rfl, rfl, rfl, rfl⟩

theorem witness_SimultaneousEvents :
    ({ demo .rot [1] 8 with inputs := [⟨true, none, true⟩] } : State).inputs = ⟨true, none, true⟩ :: [] ∧
    ({ demo .rot [1] 8 with inputs := [⟨false, some (windowWrite demoPlatform 0x0C 1), true⟩] } : State).inputs =
      ⟨false, some (windowWrite (demo .rot [1] 8).platform 0x0C 1), true⟩ :: [] ∧
    decode (demoLatched .rot 1 8).word = .ok .rot := ⟨rfl, rfl, by decide⟩

theorem witness_ErrorAcknowledged : (write 0x0C 0x0B idle).phase = .idle ∧ (write 0x0C 0x0B idle).status.err = true ∧
    (0x04 : Word).getLsbD 2 = true ∧ decode 0x01 = .ok .rot := by decide

theorem witness_NopCompletes : ({ demo .nop [] 0 with phase := .busy (demoLatched .nop 1 1) true } : State).phase =
    .busy (demoLatched .nop 1 1) true := rfl

/-- The hypotheses that all completion statements share, in the state with both regions ending at the last admitted
address. -/
def Ready (i : Instr) : Prop :=
  (demoRun (edge i) [7, 0]).phase = .busy (edge i) false ∧ (demoRun (edge i) [7, 0]).mem.wf = true ∧
    RegionsUsable (demoRun (edge i) [7, 0]).platform (edge i)

theorem ready (i : Instr) : Ready i :=
  ⟨rfl, (show (Memory.empty.writeBytes 0x1000 [7, 0]).wf = true from by decide), usable _ _ (by cases i <;> decide)⟩

theorem witness_RotAndUnrotComplete : Ready .rot ∧ Ready .unrot ∧ (edge .rot).srcLen.toNat ≤ (edge .rot).dstCap.toNat :=
  ⟨ready _, ready _, by decide⟩

theorem witness_FoldAndUnfoldComplete : Ready .fold ∧ (edge .fold).srcLen.toNat ≤ (edge .fold).dstCap.toNat :=
  ⟨ready _, by decide⟩

theorem witness_DencAndDdecComplete : Ready .denc ∧ RowsUsable (edge .denc) ∧
    RowsUsable { edge .denc with dseg := true, frameW := 0 } ∧ (edge .denc).srcLen.toNat ≤ (edge .denc).dstCap.toNat :=
  ⟨ready _, Or.inr (by decide), Or.inl rfl, by decide⟩

/-- The source bytes at 0xFFFC are two zeros: one token of one byte. -/
theorem witness_SpencCompletes : Ready .spenc ∧
    (spanEncode (edge .spenc).zmode ((demoRun (edge .spenc) [7, 0]).sourceBytes (edge .spenc))).length ≤
      (edge .spenc).dstCap.toNat := ⟨ready _, by decide⟩

theorem witness_SpdecCompletes : Ready .spdec ∧ (edge .spdec).expLen.toNat ≤ (edge .spdec).dstCap.toNat ∧
    spanDecode (edge .spdec).zmode (edge .spdec).expLen.toNat ((demoRun (edge .spdec) [7, 0]).sourceBytes (edge .spdec)) =
      .ok ⟨[0, 0], false⟩ := ⟨ready _, by decide, rfl⟩

theorem witness_CompressCompletes :
    (demo .compress [1, 2, 3, 4, 5, 6, 7, 8] 18).phase = .busy (demoLatched .compress 8 18) false ∧
    (demo .compress [1, 2, 3, 4, 5, 6, 7, 8] 18).mem.wf = true ∧
    RegionsUsable demoPlatform (demoLatched .compress 8 18) ∧ FrameUsable (demoLatched .compress 8 18) ∧
    (demoLatched .compress 8 18).srcLen.toNat =
      (demoLatched .compress 8 18).frameW.toNat * (demoLatched .compress 8 18).frameH.toNat ∧
    (compressBytes (demoLatched .compress 8 18)
      ((demo .compress [1, 2, 3, 4, 5, 6, 7, 8] 18).sourceBytes (demoLatched .compress 8 18))).length ≤ 18 :=
  ⟨rfl, by decide, usable _ _ (by decide), ⟨by decide, by decide, by decide, by decide⟩, by decide, by decide⟩

/-- The compressed frame of V-FRM-1b. -/
def stream : List Byte := [0x01, 0x82, 0x0A, 0x01, 0x02, 0x03]

theorem witness_DecompressCompletes :
    (demo .decompress stream 8).phase = .busy (demoLatched .decompress 6 8) false ∧
    (demo .decompress stream 8).mem.wf = true ∧
    RegionsUsable demoPlatform (demoLatched .decompress 6 8) ∧ FrameUsable (demoLatched .decompress 6 8) ∧
    (demoLatched .decompress 6 8).frameW.toNat * (demoLatched .decompress 6 8).frameH.toNat ≤ 8 ∧
    spanDecode .chain (bufferBytes (demoLatched .decompress 6 8))
      ((demo .decompress stream 8).sourceBytes (demoLatched .decompress 6 8)) =
        .ok ⟨[0, 0, 0x0A, 1, 2, 0, 0, 0, 0], false⟩ ∧
    unrotateBuffer Config.identityPerm false [0, 0, 0x0A, 1, 2, 0, 0, 0, 0] = lengthBlock 8 ++ [20, 0, 4, 0, 0, 0, 0, 0] :=
  ⟨rfl, by decide, usable _ _ (by decide), ⟨by decide, by decide, by decide, by decide⟩, by decide, rfl, by decide⟩

/-- A run at an instant that brings a register read. -/
def waiting : State := { demo .rot [1] 8 with inputs := [⟨false, some (windowRead demoPlatform 0x08), false⟩] }

/-- The waiting run, then the run after that instant. -/
def wait (k : Nat) : State := if k = 0 then waiting else after (step waiting)

/-- Both ways of the first part: coherent DMA; and DMA that is not, with no uncleaned write, and with one at the last
source byte. Of the second part: one instant of waiting, then a host read of a source byte. -/
theorem witness_SourceBytesAreMemory :
    ((demo .rot [1] 8).platform.coherent = true ∧ ∀ a, inRegion (demoLatched .rot 1 8).source a = true →
      inRegions ({ idle with platform := ⟨8, [], false⟩ } : State).dirty a = false) ∧
    (0 < (demoLatched .rot 1 8).srcLen.toNat ∧
      inRegions ({ idle with platform := ⟨8, [], false⟩, dirty := [⟨0x1000, 1⟩] } : State).dirty
        ((demoLatched .rot 1 8).srcAddr.toNat + 0) = true) ∧
    (demoLatched .rot 1 8).usesMemory = true ∧ (wait 0).mem.wf = true ∧ step (wait 0) = .next (wait 1) ∧
    (wait 0).phase = .busy (demoLatched .rot 1 8) false ∧ (wait 1).phase = .busy (demoLatched .rot 1 8) false ∧
    ∃ u, hostStep (some (.memRead 0x1000 1)) (wait 1) = .next u ∧ u.phase = .busy (demoLatched .rot 1 8) false :=
  ⟨⟨rfl, fun _ _ => rfl⟩, by decide, by decide, by decide, rfl, rfl, rfl, _, rfl, rfl⟩

/-- Each region one byte past 2^32. -/
theorem witness_AddrRangeFaults :
    (∀ l : Latched, (demoRun l []).phase = .busy l false ∧ (demoRun l []).platform = demoPlatform) ∧
    4294967296 < ({ demoLatched .rot 2 0 with srcAddr := 0xFFFFFFFF } : Latched).srcAddr.toNat +
      (demoLatched .rot 2 0).srcLen.toNat ∧
    (demoLatched .rot 0 2).srcAddr.toNat + (demoLatched .rot 0 2).srcLen.toNat ≤ 4294967296 ∧
    4294967296 < ({ demoLatched .rot 0 2 with dstAddr := 0xFFFFFFFF } : Latched).dstAddr.toNat +
      (demoLatched .rot 0 2).dstCap.toNat ∧
    geometryFault .rot { demoLatched .rot 2 0 with srcAddr := 0xFFFFFFFF } = none ∧
    geometryFault .compress { demoLatched .compress 8 2 with dstAddr := 0xFFFFFFFF } = none :=
  ⟨fun _ => ⟨rfl, rfl⟩, by decide⟩

/-- The regions share one address, the last of the source and the first of the destination. -/
theorem witness_OverlapFaults :
    (∀ l : Latched, (demoRun l []).phase = .busy l false ∧ (demoRun l []).platform = demoPlatform) ∧
    geometryFault .rot { demoLatched .rot 2 8 with dstAddr := 0x1001 } = none ∧
    inRegion ({ demoLatched .rot 2 8 with dstAddr := 0x1001 } : Latched).source 0x1001 = true ∧
    inRegion ({ demoLatched .rot 2 8 with dstAddr := 0x1001 } : Latched).destination 0x1001 = true :=
  ⟨fun _ => ⟨rfl, rfl⟩, by decide⟩

/-- A source region, and a destination region, whose second byte is the first address not admitted. -/
theorem witness_BusErrorFaults :
    (∀ l : Latched, (demoRun l []).phase = .busy l false ∧ (demoRun l []).platform = demoPlatform) ∧
    memAdmit demoPlatform 0x10000 = false ∧ memAdmit demoPlatform 0xFFFF = true ∧
    inRegion ({ demoLatched .rot 2 8 with srcAddr := 0xFFFF } : Latched).source 0x10000 = true ∧
    inRegion ({ demoLatched .rot 2 2 with dstAddr := 0xFFFF } : Latched).destination 0x10000 = true ∧
    overlapFault { demoLatched .rot 2 8 with srcAddr := 0xFFFF } = none ∧
    overlapFault { demoLatched .rot 2 2 with dstAddr := 0xFFFF } = none ∧
    lowestRejected demoPlatform (demoLatched .rot 2 2).source = none :=
  ⟨fun _ => ⟨rfl, rfl⟩, by decide⟩

/-- One byte too little room, for each form. -/
theorem witness_DstOverflowFaults :
    (∀ l : Latched, (demoRun l []).phase = .busy l false ∧ (demoRun l []).platform = demoPlatform) ∧
    RegionsUsable demoPlatform (demoLatched .rot 2 1) ∧
    (demoLatched .rot 2 1).dstCap.toNat < (demoLatched .rot 2 1).srcLen.toNat ∧
    (demoLatched .spdec 2 8).dstCap.toNat < (demoLatched .spdec 2 8).expLen.toNat ∧
    geometryFault .decompress (demoLatched .decompress 2 7) = none ∧
    (demoLatched .decompress 2 7).dstCap.toNat < frameBytes (demoLatched .decompress 2 7) ∧
    (demoLatched .spenc 1 1).dstCap.toNat < (spanEncode .chain ((demo .spenc [5] 1).sourceBytes (demoLatched .spenc 1 1))).length ∧
    geometryFault .compress (demoLatched .compress 8 1) = none ∧
    (demoLatched .compress 8 1).dstCap.toNat < (compressBytes (demoLatched .compress 8 1)
      ((demo .compress [1, 2, 3, 4, 5, 6, 7, 8] 1).sourceBytes (demoLatched .compress 8 1))).length :=
  ⟨fun _ => ⟨rfl, rfl⟩, usable _ _ (by decide), by decide, by decide, by decide, by decide, by decide, by decide, by decide⟩

/-- One geometry for each sub-code, with all earlier ones passed. -/
theorem witness_BadGeometryFaults :
    (∀ l : Latched, (demoRun l []).phase = .busy l false ∧ (demoRun l []).platform = demoPlatform) ∧
    ({ demoLatched .compress 8 1 with frameW := 0 } : Latched).frameW = 0 ∧
    ({ demoLatched .compress 8 1 with frameH := 0 } : Latched).frameW ≠ 0 ∧
    4294967296 ≤ ({ demoLatched .compress 8 1 with frameW := 0x10000, frameH := 0x10000 } : Latched).frameW.toNat * 0x10000 ∧
    (demoLatched .compress 7 1).srcLen.toNat ≠ frameBytes (demoLatched .compress 7 1) ∧
    frameFault true { demoLatched .compress 0xFFFFFFFF 1 with frameW := 0xFFFFFFFF, frameH := 1 } = some ⟨.badGeometry, 5⟩ ∧
    (demoLatched .denc 1 1).dseg = false :=
  ⟨fun _ => ⟨rfl, rfl⟩, by decide⟩

theorem witness_SpanDecodeFaultsEndTheCommand :
    (∀ l : Latched, (demoRun l []).phase = .busy l false ∧ (demoRun l []).platform = demoPlatform) ∧
    ChecksPass .spdec demoPlatform (demoLatched .spdec 1 9) ∧ ChecksPass .decompress demoPlatform (demoLatched .decompress 1 8) ∧
    spanDecode .chain 9 ((demo .spdec [0x01] 9).sourceBytes (demoLatched .spdec 1 9)) = .error ⟨.srcTruncated, 1⟩ ∧
    spanDecode .chain (bufferBytes (demoLatched .decompress 1 8))
      ((demo .decompress [0x01] 8).sourceBytes (demoLatched .decompress 1 8)) = .error ⟨.srcTruncated, 1⟩ :=
  ⟨fun _ => ⟨rfl, rfl⟩, (checksPass_iff _ _ _).mpr (by decide), (checksPass_iff _ _ _).mpr (by decide), rfl, rfl⟩

/-- A frame of 127 bytes, whose block has two, and a stream that unrotates to 0x7F 0x01 and zeros. -/
def longFrame : Latched := { demoLatched .decompress 9 127 with frameW := 127, frameH := 1 }

def longStream : List Byte := [0x86, 3, 1, 1, 1, 1, 1, 1, 0x79]

/-- What `longStream` decodes to. -/
def longOutput : List Byte := [3, 1, 1, 1, 1, 1, 1] ++ List.replicate 122 0

/-- V-FRM-5a, where the first byte of the block differs; and a block whose second byte is the first that differs. -/
theorem witness_LenMismatchFaults :
    (∀ l : Latched, (demoRun l []).phase = .busy l false ∧ (demoRun l []).platform = demoPlatform) ∧
    ChecksPass .decompress demoPlatform (demoLatched .decompress 7 8) ∧
    (∃ r, spanDecode .chain (bufferBytes (demoLatched .decompress 7 8))
      ((demo .decompress [0x84, 0x01, 0x01, 0x0B, 0x00, 0x02, 0x03] 8).sourceBytes (demoLatched .decompress 7 8)) = .ok r ∧
      (unrotateBuffer Config.identityPerm false r.out)[0]? ≠ (lengthBlock 8)[0]?) ∧ 0 < (lengthBlock 8).length ∧
    ChecksPass .decompress demoPlatform longFrame ∧
    spanDecode .chain (bufferBytes longFrame) ((demoRun longFrame longStream).sourceBytes longFrame) = .ok ⟨longOutput, false⟩ ∧
    1 < (lengthBlock 127).length ∧ (unrotateBuffer Config.identityPerm false longOutput)[1]? ≠ (lengthBlock 127)[1]? ∧
    (unrotateBuffer Config.identityPerm false longOutput)[0]? = (lengthBlock 127)[0]? :=
  ⟨fun _ => ⟨rfl, rfl⟩, (checksPass_iff _ _ _).mpr (by decide), ⟨_, rfl, by decide⟩, by decide,
    (checksPass_iff _ _ _).mpr (by decide), rfl, by decide, by decide +kernel, by decide +kernel⟩

theorem witness_MalformedOnlyInChain : spanDecode .chain 200 [0x00, 0x7F, 0x7F, 0x80] = .error ⟨.malformed, 3⟩ ∧
    (0x80 : Byte).getLsbD 7 = true ∧ (SpanToken.zeros 1).valid .chain = true ∧
    (outputOf [.zeros 1]).length < 200 := ⟨rfl, by decide, by decide, by decide⟩

/-- The shortest and the longest literal, the longest zero run of SPLIT, and a longer one that only the other modes
have; runs whose length 128 divides and does not; a literal of two bytes, cut off after its header, one byte too long. -/
theorem witness_DecoderReadsEveryTokenSequence :
    (∀ k ∈ [SpanToken.literal [0], SpanToken.literal (List.replicate 128 0), SpanToken.zeros 128], k.valid .split = true) ∧
    (SpanToken.zeros 1000).valid .chain = true ∧ (SpanToken.zeros 129).valid .split = false ∧
    1 < ((SpanToken.zeros 128).code .chain).length ∧ 1 < ((SpanToken.literal [0]).code .split).length ∧
    (List.replicate 128 (0 : Byte)).length ≤ 128 ∧ 128 % 128 = 0 ∧ 129 % 128 ≠ 0 ∧
    (SpanToken.literal [1, 2]).valid .chain = true ∧ (outputOf [.zeros 1]).length < 2 ∧
    2 < (outputOf [.zeros 1]).length + ([1, 2] : List Byte).length := by
  refine ⟨by simp [SpanToken.valid], by decide, by decide, by decide, by decide, by simp, by decide, by decide, by decide,
    by decide, by decide⟩

/-- A raced run whose checks pass, and one whose destination is one byte too small. -/
theorem witness_RacedRunEndsFreely :
    ({ demo .rot [1] 8 with phase := .busy (demoLatched .rot 1 8) true } : State).phase = .busy (demoLatched .rot 1 8) true ∧
    ChecksPass .rot demoPlatform (demoLatched .rot 1 8) ∧
    checkFault demoPlatform none (some 2) (demoLatched .rot 2 1) = some ⟨.dstOverflow, 1⟩ :=
  ⟨rfl, (checksPass_iff _ _ _).mpr (by decide), by decide⟩

theorem witness_DeltaEncodeBytes : 4 < ([10, 10, 12, 12, 0, 0, 0, 0] : List Byte).length := by decide

theorem witness_DeltaDecodeBytes : 7 < ([20, 0, 4, 0, 0, 0, 0, 0] : List Byte).length := by decide

/-- A group and a tail of two bytes, their last bits. -/
theorem witness_RotationBits : 0 < (List.replicate 10 (0 : Byte)).length / 8 ∧ 1 < (List.replicate 10 (0 : Byte)).length % 8 := by
  decide

theorem witness_RotatorRoundTrip : isPermutation Config.identityPerm = true ∧ isPermutation 0xFAC681 = true := by decide

theorem witness_SpanEncodeSizeBound : ∀ b ∈ List.replicate 129 (1 : Byte), b ≠ 0 := by decide

/-- A literal that keeps an isolated zero, before a last zero; and one of 128 bytes that ends with a zero, before
another literal. Not: an isolated zero apart from its literal, a run in two, a literal that stops early. -/
theorem witness_SpanRoundTrip : encoderChoice [.literal [5, 0, 6], .zeros 1] = true ∧
    encoderChoice [.zeros 3, .literal (List.replicate 127 1 ++ [0]), .literal [2]] = true ∧
    encoderChoice [.literal [5], .zeros 1, .literal [6]] = false ∧ encoderChoice [.zeros 1, .zeros 2] = false ∧
    encoderChoice [.literal [5], .literal [6]] = false :=
  ⟨by decide, by decide +kernel, by decide, by decide, by decide⟩

/-- The last value of one byte and the first of two. -/
theorem witness_LengthBlockFacts : 126 < 127 ∧ 127 ≤ 127 := by decide

/-- COMPRESS of R203's example, then DECOMPRESS of what it left. -/
theorem witness_DecompressUndoesCompress :
    (∀ l : Latched, (demoRun l []).phase = .busy l false ∧ (demoRun l []).platform = demoPlatform) ∧
    ChecksPass .compress demoPlatform (demoLatched .compress 8 0x40) ∧
    (compressBytes (demoLatched .compress 8 0x40)
      ((demo .compress [10, 10, 12, 12, 0, 0, 0, 0] 0x40).sourceBytes (demoLatched .compress 8 0x40))).length ≤ 0x40 ∧
    (∃ t, exec .compress (demo .compress [10, 10, 12, 12, 0, 0, 0, 0] 0x40) = .next t) ∧
    (demo .decompress stream 8).mem.wf = true ∧ ChecksPass .decompress demoPlatform (demoLatched .decompress 6 8) ∧
    (demo .decompress stream 8).sourceBytes (demoLatched .decompress 6 8) =
      (published (exec .compress (demo .compress [10, 10, 12, 12, 0, 0, 0, 0] 0x40))).2 :=
  ⟨fun _ => ⟨rfl, rfl⟩, (checksPass_iff _ _ _).mpr (by decide), by decide, ⟨_, rfl⟩, by decide,
    (checksPass_iff _ _ _).mpr (by decide), by decide⟩

theorem witness_EngineWritesOnlyItsDestination : (demo .fold [1] 8).mem.wf = true ∧
    inRegion (demoLatched .fold 1 8).source 0x1000 = true ∧ ∃ t, exec .fold (demo .fold [1] 8) = .next t :=
  ⟨by decide, by decide, _, rfl⟩

/-- The small platform without coherence. -/
def apart : State := { idle with platform := ⟨8, [⟨0, 0x10000⟩], false⟩ }

/-- The last admitted bytes, on a coherent platform and on one that is not; the first address not admitted, and the
first beyond the DMA space; the last byte of a run's destination and the one after it; a stale byte and the one after. -/
theorem witness_HostReadsSeeMemory :
    (∀ a, inRegion ⟨0xFFFE, 2⟩ a = true → a < Config.spaceSize ∧ memAdmit demoPlatform a = true) ∧
    apart.phase = .idle ∧ apart.platform.coherent = false ∧ inRegions apart.dirty 0xFFFF = false ∧
    inRegion ⟨0xFFFF, 2⟩ 0x10000 = true ∧ memAdmit demoPlatform 0x10000 = false ∧
    inRegion ⟨0xFFFFFFFF, 2⟩ Config.spaceSize = true ∧ (demo .rot [1] 8).phase = .busy (demoLatched .rot 1 8) false ∧
    (demoLatched .rot 1 8).usesMemory = true ∧ inRegion (demoLatched .rot 1 8).destination (0x2006 + 1) = true ∧
    inRegion (demoLatched .rot 1 8).destination (0x2006 + 2) = false ∧
    inRegions ({ apart with stale := [⟨0x2000, 8⟩] } : State).stale (0x2006 + 1) = true ∧
    inRegions ({ apart with stale := [⟨0x2000, 8⟩] } : State).stale (0x2006 + 2) = false := by
  refine ⟨fun a h => ?_, rfl, rfl, rfl, by decide, by decide, by decide, rfl, by decide, by decide, by decide, by decide,
    by decide⟩
  rw [inRegion_iff] at h
  refine ⟨by dsimp only at h; simp only [Config.spaceSize]; omega, ?_⟩
  rw [memAdmit_iff]
  exact ⟨⟨0, 0x10000⟩, by decide, (inRegion_iff _ _).mpr (by dsimp only at h ⊢; omega)⟩

/-- The last byte of a run's destination, and the one after it; and an uncleaned byte where DMA is not coherent. -/
theorem witness_HostWriteStoresAndMarksTheRace : backed demoPlatform ⟨0x2007, 1⟩ = true ∧ (demo .rot [1] 8).mem.wf = true ∧
    inRegion ⟨0x2007, 1⟩ 0x2007 = true ∧ inRegion (demoLatched .rot 1 8).destination 0x2007 = true ∧
    inRegion (demoLatched .rot 1 8).destination 0x2008 = false ∧ backed apart.platform ⟨0x2007, 1⟩ = true ∧
    apart.platform.coherent = false ∧ apart.mem.wf = true ∧
    inRegions ({ apart with dirty := [⟨0x2007, 1⟩] } : State).dirty 0x2007 = true := by decide

theorem idle_inv : Inv idle := ⟨by decide, by decide, fun _ _ h => by cases h⟩

theorem witness_RegistersReadLegalValues : Inv idle ∧ Inv (demo .rot [1] 8) :=
  ⟨idle_inv, ⟨by decide, by decide, fun l raced h => by
    cases h
    exact ⟨rfl, rfl, rfl, by decide, .rot, by decide⟩⟩⟩

theorem witness_EveryStepKeepsTheInvariant : Inv idle ∧ ∃ t, step idle = .next t := ⟨idle_inv, _, rfl⟩

theorem witness_EveryStepKeepsMemoryInSpace : MemoryInSpace (write 0x08 0 idle).mem ∧
    MemoryInSpace (Memory.empty.writeBytes 0xFFFFFFFF [7]) ∧
    ∃ t, step { idle with mem := Memory.empty.writeBytes 0xFFFFFFFF [7] } = .next t :=
  ⟨⟨by decide, by decide⟩, ⟨by decide, by decide⟩, _, rfl⟩

/-- A host access without meaning stops a step, and so does one to memory that is not there. -/
theorem witness_StepStopsOnlyAtAHostAccess :
    step { idle with inputs := [⟨false, some (.regRead .bits8 0x400), false⟩] } = .refused .undefinedRegisterAccess ∧
    step { idle with inputs := [⟨false, some (.memRead 0x10000 1), false⟩] } = .fault .unbackedHostAddress ∧
    ∃ t, step idle = .next t := ⟨rfl, rfl, _, rfl⟩

end Sys2Proof.Tests
end

/-! PROOFS. Family 00_scope.md: the host's memory accesses as one kind of update, what they leave of a run's source
region, and the settled obligations O32 and O54. -/

namespace Sys2Proof.Machine

/-! ### Regions, as equations between Booleans -/

@[simp] theorem inRegions_cons (r : Region) (rs : List Region) (a : Nat) :
    inRegions (r :: rs) a = (inRegion r a || inRegions rs a) := rfl

@[simp] theorem inRegions_nil (a : Nat) : inRegions [] a = false := rfl

@[simp] theorem inRegions_regionsMinus_eq (rs : List Region) (cut : Region) (a : Nat) :
    inRegions (regionsMinus rs cut) a = (inRegions rs a && !inRegion cut a) := by
  rw [Bool.eq_iff_iff, inRegions_regionsMinus, Bool.and_eq_true, Bool.not_eq_true']

@[simp] theorem inRegions_regionsCommon_eq (rs : List Region) (r : Region) (a : Nat) :
    inRegions (regionsCommon rs r) a = (inRegion r a && inRegions rs a) := by
  rw [Bool.eq_iff_iff, inRegions_regionsCommon, Bool.and_eq_true, and_comm]

/-- The parts of the regions `ss` that lie in one of `hs` hold exactly the addresses in both. -/
@[simp] theorem inRegions_flatMap_regionsCommon (hs ss : List Region) (a : Nat) :
    inRegions (hs.flatMap (fun h => regionsCommon ss h)) a = (inRegions hs a && inRegions ss a) := by
  induction hs with
  | nil => rfl
  | cons h hs ih =>
    have happend : inRegions (regionsCommon ss h ++ hs.flatMap (fun h => regionsCommon ss h)) a =
        (inRegions (regionsCommon ss h) a || inRegions (hs.flatMap (fun h => regionsCommon ss h)) a) := List.any_append
    rw [List.flatMap_cons, happend, ih, inRegions_regionsCommon_eq, inRegions_cons, Bool.and_or_distrib_right]

theorem inRegion_add (addr len k : Nat) (h : k < len) : inRegion ⟨addr, len⟩ (addr + k) = true := by
  rw [inRegion_iff]
  exact ⟨Nat.le_add_right _ _, Nat.add_lt_add_left h _⟩

/-! ### Which writes race a run (R77) -/

/-- Regions reach a run's source or destination exactly through an address they share with it. -/
theorem any_regionsOverlap_iff (rs : List Region) (l : Latched) :
    rs.any (fun r => regionsOverlap r l.source || regionsOverlap r l.destination) = true ↔
      ∃ a, inRegions rs a = true ∧ (inRegion l.source a = true ∨ inRegion l.destination a = true) := by
  simp only [List.any_eq_true, Bool.or_eq_true, regionsOverlap_iff_common, inRegions_iff]
  constructor
  · rintro ⟨r, hr, ⟨a, hra, ha⟩ | ⟨a, hra, ha⟩⟩
    · exact ⟨a, ⟨r, hr, hra⟩, Or.inl ha⟩
    · exact ⟨a, ⟨r, hr, hra⟩, Or.inr ha⟩
  · rintro ⟨a, ⟨r, hr, hra⟩, ha | ha⟩
    · exact ⟨r, hr, Or.inl ⟨a, hra, ha⟩⟩
    · exact ⟨r, hr, Or.inr ⟨a, hra, ha⟩⟩

/-- A run goes on through a write by another agent, and is raced afterwards exactly if it was or if the write touches
one of its bytes. -/
theorem phaseAfterWrite_busy (rs : List Region) (l : Latched) (raced : Bool) :
    ∃ raced', phaseAfterWrite rs (.busy l raced) = .busy l raced' ∧
      (raced' = true ↔ raced = true ∨ (l.usesMemory = true ∧
        ∃ a, inRegions rs a = true ∧ (inRegion l.source a = true ∨ inRegion l.destination a = true))) := by
  refine ⟨_, rfl, ?_⟩
  rw [Bool.or_eq_true, Bool.and_eq_true, any_regionsOverlap_iff]

/-- A write that leaves a run not raced has touched no byte of its source. -/
theorem source_untouched_of_unraced {rs : List Region} {p : Phase} {l : Latched} {a : Nat} (hm : l.usesMemory = true)
    (h : phaseAfterWrite rs p = .busy l false) (ha : inRegion l.source a = true) : inRegions rs a = false := by
  cases p with
  | idle => cases h
  | busy l' raced =>
    obtain ⟨raced', hphase, hraced⟩ := phaseAfterWrite_busy rs l' raced
    obtain ⟨rfl, rfl⟩ : l' = l ∧ raced' = false := by
      rw [hphase] at h
      cases h
      exact ⟨rfl, rfl⟩
    rw [← Bool.not_eq_true]
    intro hin
    exact absurd (hraced.mpr (Or.inr ⟨hm, a, hin, Or.inl ha⟩)) (by decide)

/-! ### The host's memory accesses as one kind of update -/

/-- `s` after another agent has written bytes of `hits`: memory, the two lists and the draw count as given, the phase
raced where it has to be, every other field as it was. -/
def State.touched (hits : List Region) (mem : Memory) (dirty stale : List Region) (draws : Nat) (s : State) : State :=
  { s with mem := mem, phase := phaseAfterWrite hits s.phase, dirty := dirty, stale := stale, draws := draws }

section
variable (hits : List Region) (mem : Memory) (dirty stale : List Region) (draws : Nat) (s : State)

@[simp] theorem State.touched_mem : (s.touched hits mem dirty stale draws).mem = mem := rfl

@[simp] theorem State.touched_phase :
    (s.touched hits mem dirty stale draws).phase = phaseAfterWrite hits s.phase := rfl

@[simp] theorem State.touched_dirty : (s.touched hits mem dirty stale draws).dirty = dirty := rfl

@[simp] theorem State.touched_stale : (s.touched hits mem dirty stale draws).stale = stale := rfl

/-- No register shows that another agent has written memory. -/
@[simp] theorem readReg_touched (r : Reg) : readReg r (s.touched hits mem dirty stale draws) = readReg r s := by
  have hbusy : (s.touched hits mem dirty stale draws).isBusy = s.isBusy := by
    unfold State.isBusy State.touched
    cases s.phase <;> rfl
  cases r with
  | status =>
    show statusWord _ = statusWord s
    unfold statusWord
    rw [hbusy]
    rfl
  | _ => rfl

end

section
variable {s : State} {addr len : Nat}

theorem onBacked_of_backed {r : Region} (t : State) (h : backed s.platform r = true) : onBacked s r t = .next t :=
  if_pos h

theorem hostAccess_memWrite {bs : List Byte} (h : backed s.platform ⟨addr, bs.length⟩ = true) :
    hostAccess (.memWrite addr bs) s = .next (s.touched [⟨addr, bs.length⟩] (s.mem.writeBytes addr bs)
      (if s.platform.coherent then s.dirty else ⟨addr, bs.length⟩ :: regionsMinus s.dirty ⟨addr, bs.length⟩)
      (if s.platform.coherent then s.stale else regionsMinus s.stale ⟨addr, bs.length⟩) s.draws) :=
  onBacked_of_backed _ h

theorem hostAccess_cacheClean_of_coherent (h : backed s.platform ⟨addr, len⟩ = true)
    (hc : s.platform.coherent = true) : hostAccess (.cacheClean addr len) s = .next s := by
  show onBacked s _ (if s.platform.coherent then s else _) = _
  rw [onBacked_of_backed _ h, if_pos hc]

theorem hostAccess_cacheInvalidate_of_coherent (h : backed s.platform ⟨addr, len⟩ = true)
    (hc : s.platform.coherent = true) : hostAccess (.cacheInvalidate addr len) s = .next s := by
  show onBacked s _ (if s.platform.coherent then s else _) = _
  rw [onBacked_of_backed _ h, if_pos hc]

/-- A clean where DMA is not coherent writes the uncleaned bytes of its region back (notes/assumptions/7.md). -/
theorem hostAccess_cacheClean (h : backed s.platform ⟨addr, len⟩ = true) (hc : s.platform.coherent = false) :
    hostAccess (.cacheClean addr len) s = .next (s.touched (regionsCommon s.dirty ⟨addr, len⟩)
      (s.mem.markAnys ((regionsCommon s.dirty ⟨addr, len⟩).flatMap (fun q => regionsCommon s.stale q)) s.draws)
      (regionsMinus s.dirty ⟨addr, len⟩) s.stale (s.draws + 1)) := by
  show onBacked s _ (if s.platform.coherent then s else _) = _
  rw [onBacked_of_backed _ h, hc]
  rfl

/-- An invalidate where DMA is not coherent leaves any value in the uncleaned bytes of its region
(notes/assumptions/7.md). -/
theorem hostAccess_cacheInvalidate (h : backed s.platform ⟨addr, len⟩ = true) (hc : s.platform.coherent = false) :
    hostAccess (.cacheInvalidate addr len) s = .next (s.touched (regionsCommon s.dirty ⟨addr, len⟩)
      (s.mem.markAnys (regionsCommon s.dirty ⟨addr, len⟩) s.draws)
      (regionsMinus s.dirty ⟨addr, len⟩) (regionsMinus s.stale ⟨addr, len⟩) (s.draws + 1)) := by
  show onBacked s _ (if s.platform.coherent then s else _) = _
  rw [onBacked_of_backed _ h, hc]
  rfl

end

/-! ### What a host access can do to memory -/

theorem writeReg_mem_dirty (r : Reg) (v : Word) (s : State) :
    (writeReg r v s).mem = s.mem ∧ (writeReg r v s).dirty = s.dirty := by
  cases r with
  | cmd =>
    show (offerCommand v s).mem = s.mem ∧ (offerCommand v s).dirty = s.dirty
    rcases offerCommand_cases v s with ⟨_, _, _, h⟩ | ⟨_, _, _, h⟩ | ⟨_, h⟩ <;> rw [h] <;> exact ⟨rfl, rfl⟩
  | _ => exact ⟨rfl, rfl⟩

/-- `hits` are the only bytes of memory that differ in `t` or are newly uncleaned there, and the run of `s` has been
told of them. -/
structure TouchesOnly (hits : List Region) (s t : State) : Prop where
  canonical : s.mem.wf = true → t.mem.wf = true
  elsewhere : s.mem.wf = true → ∀ a, inRegions hits a = false → t.mem.read a = s.mem.read a
  uncleaned : ∀ a, inRegions hits a = false → inRegions s.dirty a = false → inRegions t.dirty a = false
  phase : t.phase = phaseAfterWrite hits s.phase

/-- A host access leaves memory and the list of uncleaned writes alone, or writes as another agent does (R77). -/
theorem hostAccess_memory_cases (x : HostAccess) (s t : State) (h : hostAccess x s = .next t) :
    (t.mem = s.mem ∧ t.dirty = s.dirty) ∨ ∃ hits, TouchesOnly hits s t := by
  cases x with
  | regRead w addr =>
    obtain ⟨r, _, rfl⟩ := hostRegRead_eq_next _ _ _ _ h
    exact Or.inl ⟨rfl, rfl⟩
  | regWrite w addr v =>
    obtain ⟨r, _, rfl⟩ := hostRegWrite_eq_next _ _ _ _ _ h
    exact Or.inl (writeReg_mem_dirty r v s)
  | memRead addr len =>
    obtain ⟨_, rfl⟩ := onBacked_eq_next _ _ _ _ h
    exact Or.inl ⟨rfl, rfl⟩
  | memWrite addr bs =>
    obtain ⟨hb, _⟩ := onBacked_eq_next _ _ _ _ h
    cases (hostAccess_memWrite hb).symm.trans h
    refine Or.inr ⟨_, fun hwf => Memory.wf_writeBytes _ _ _ hwf, fun hwf a ha => ?_, fun a ha hd => ?_, rfl⟩
    · simp only [inRegions_cons, inRegions_nil, Bool.or_false] at ha
      rw [State.touched_mem, Memory.read_writeBytes _ _ _ _ (Memory.rising_of_wf _ hwf), ha]
      rfl
    · simp only [inRegions_cons, inRegions_nil, Bool.or_false] at ha
      cases s.platform.coherent <;> simp [ha, hd]
  | cacheClean addr len =>
    obtain ⟨hb, _⟩ := onBacked_eq_next _ _ _ _ h
    cases hc : s.platform.coherent with
    | true =>
      cases (hostAccess_cacheClean_of_coherent hb hc).symm.trans h
      exact Or.inl ⟨rfl, rfl⟩
    | false =>
      cases (hostAccess_cacheClean hb hc).symm.trans h
      refine Or.inr ⟨_, fun hwf => Memory.wf_markAnys _ _ _ hwf, fun _ a ha => ?_, fun a _ hd => ?_, rfl⟩
      · simp only [State.touched_mem, Memory.read_markAnys, inRegions_flatMap_regionsCommon, ha, Bool.false_and,
          Bool.false_eq_true, if_false]
      · simp [hd]
  | cacheInvalidate addr len =>
    obtain ⟨hb, _⟩ := onBacked_eq_next _ _ _ _ h
    cases hc : s.platform.coherent with
    | true =>
      cases (hostAccess_cacheInvalidate_of_coherent hb hc).symm.trans h
      exact Or.inl ⟨rfl, rfl⟩
    | false =>
      cases (hostAccess_cacheInvalidate hb hc).symm.trans h
      refine Or.inr ⟨_, fun hwf => Memory.wf_markAnys _ _ _ hwf, fun _ a ha => ?_, fun a _ hd => ?_, rfl⟩
      · simp only [State.touched_mem, Memory.read_markAnys, ha, Bool.false_eq_true, if_false]
      · simp [hd]

/-! ### The engine's step ends the run (R242) -/

theorem finishRaced_phase (l : Latched) (s : State) : (finishRaced l s).phase = .idle := by
  rcases finishRaced_cases l s with h | h <;> rw [h]

theorem finishRun_phase (g : Option FaultRecord) (need : Option Nat)
    (f : List Byte → Except FaultRecord CommandResult) (l : Latched) (raced : Bool) (s : State) :
    (finishRun g need f l raced s).phase = .idle := by
  rcases finishRun_cases g need f l raced s with ⟨c, d, _, h⟩ | ⟨_, _, h⟩ | ⟨_, _, r, _, h⟩ | ⟨_, _, c, _, h⟩ <;> rw [h]
  · rfl
  · exact finishRaced_phase l s
  · rfl
  · rfl

theorem whileBusy_next_idle {f : Latched → Bool → State → State} {s t : State}
    (hf : ∀ l raced, (f l raced s).phase = .idle) (h : whileBusy f s = .next t) : t.phase = .idle := by
  cases hp : s.phase with
  | idle =>
    rw [whileBusy_idle f s hp] at h
    cases h
    exact hp
  | busy l raced =>
    rw [whileBusy_busy f s l raced hp] at h
    cases h
    exact hf l raced

theorem exec_next_idle (i : Instr) (s t : State) (h : exec i s = .next t) : t.phase = .idle := by
  cases i with
  | nop => exact whileBusy_next_idle (fun _ _ => rfl) h
  | _ => exact whileBusy_next_idle (fun _ _ => finishRun_phase ..) h

theorem runLatched_next_idle (s t : State) (h : runLatched exec s = .next t) : t.phase = .idle := by
  unfold runLatched at h
  split at h
  · cases h
    assumption
  · split at h
    · exact exec_next_idle _ _ _ h
    · cases h
      rfl

/-- A step after which a run is open is the host access of its instant and no more: neither reset nor the engine's
step fell there. -/
theorem step_busy_is_hostStep {s t : State} {l : Latched} {raced : Bool} (h : step s = .next t)
    (hp : t.phase = .busy l raced) : ∃ x rest, hostStep x { s with inputs := rest } = .next t := by
  have not_idle : t.phase ≠ .idle := by rw [hp]; exact Phase.noConfusion
  rcases step_cases s t h with ⟨_, hrun⟩ | ⟨i, rest, _, ⟨_, rfl⟩ | ⟨_, u, hu, ⟨_, _, hrun⟩ | ⟨_, rfl⟩⟩⟩
  · exact absurd (runLatched_next_idle _ _ hrun) not_idle
  · exact absurd rfl not_idle
  · exact absurd (runLatched_next_idle _ _ hrun) not_idle
  · exact ⟨_, _, hu⟩

/-! ### The source of a run that stays not raced (R66, R240; notes/assumptions/15.md) -/

/-- From `s` to `t` no byte of the run's source has changed and none has become uncleaned. -/
structure SourceKept (l : Latched) (s t : State) : Prop where
  canonical : t.mem.wf = true
  platform : t.platform = s.platform
  bytes : ∀ a, inRegion l.source a = true → t.mem.read a = s.mem.read a
  cleaned : ∀ a, inRegion l.source a = true → inRegions s.dirty a = false → inRegions t.dirty a = false

theorem SourceKept.refl (l : Latched) (s : State) (h : s.mem.wf = true) : SourceKept l s s :=
  ⟨h, rfl, fun _ _ => rfl, fun _ _ hd => hd⟩

theorem SourceKept.trans {l : Latched} {s t u : State} (h1 : SourceKept l s t) (h2 : SourceKept l t u) :
    SourceKept l s u :=
  ⟨h2.canonical, h2.platform.trans h1.platform, fun a ha => (h2.bytes a ha).trans (h1.bytes a ha),
    fun a ha hd => h2.cleaned a ha (h1.cleaned a ha hd)⟩

/-- A host access that leaves a run open and not raced keeps its source. -/
theorem hostStep_keeps_source {x : Option HostAccess} {s t : State} {l : Latched} (hm : l.usesMemory = true)
    (hwf : s.mem.wf = true) (h : hostStep x s = .next t) (hp : t.phase = .busy l false) : SourceKept l s t := by
  cases x with
  | none =>
    cases h
    exact SourceKept.refl l s hwf
  | some x =>
    have hplat := (hostAccess_frame x s t h).1
    rcases hostAccess_memory_cases x s t h with ⟨hmem, hdirty⟩ | ⟨hits, htouch⟩
    · exact ⟨by rw [hmem, hwf], hplat, fun _ _ => by rw [hmem], fun _ _ hd => by rw [hdirty, hd]⟩
    · have hfree : ∀ a, inRegion l.source a = true → inRegions hits a = false := fun a =>
        source_untouched_of_unraced hm (htouch.phase.symm.trans hp)
      exact ⟨htouch.canonical hwf, hplat, fun a ha => htouch.elsewhere hwf a (hfree a ha),
        fun a ha => htouch.uncleaned a (hfree a ha)⟩

theorem step_keeps_source {s t : State} {l : Latched} (hm : l.usesMemory = true) (hwf : s.mem.wf = true)
    (h : step s = .next t) (hp : t.phase = .busy l false) : SourceKept l s t := by
  obtain ⟨x, rest, hx⟩ := step_busy_is_hostStep h hp
  obtain ⟨hcan, hplat, hbytes, hclean⟩ := hostStep_keeps_source hm (s := { s with inputs := rest }) hwf hx hp
  exact ⟨hcan, hplat, hbytes, hclean⟩

/-- Steps through which one run stays open and not raced keep its source. -/
theorem path_keeps_source {path : Nat → State} {l : Latched} (hm : l.usesMemory = true)
    (hwf : (path 0).mem.wf = true) (n : Nat) (hstep : ∀ k, k < n → step (path k) = .next (path (k + 1)))
    (hp : ∀ k, k ≤ n → (path k).phase = .busy l false) : SourceKept l (path 0) (path n) := by
  induction n with
  | zero => exact SourceKept.refl l _ hwf
  | succ n ih =>
    have hn := ih (fun k hk => hstep k (by omega)) (fun k hk => hp k (by omega))
    exact hn.trans (step_keeps_source hm hn.canonical (hstep n (by omega)) (hp (n + 1) (Nat.le_refl _)))

/-! ### The source bytes (R66, R69) -/

theorem sourceBytes_getElem? (s : State) (l : Latched) (k : Nat) (h : k < l.srcLen.toNat) :
    (s.sourceBytes l)[k]? = some (s.engineByte (l.srcAddr.toNat + k)) := by
  simp [State.sourceBytes, h]

/-- The engine reads a byte that is coherent or not uncleaned as memory has it. -/
theorem engineByte_eq_read {s : State} {a : Nat} (h : s.platform.coherent = true ∨ inRegions s.dirty a = false) :
    s.engineByte a = s.mem.read a := by
  rcases h with h | h <;> simp [State.engineByte, h]

theorem sourceBytes_eq_readBytes {s : State} {l : Latched}
    (h : s.platform.coherent = true ∨ ∀ a, inRegion l.source a = true → inRegions s.dirty a = false) :
    s.sourceBytes l = s.mem.readBytes l.srcAddr.toNat l.srcLen.toNat := by
  refine List.map_congr_left fun k hk => engineByte_eq_read (h.imp_right fun hclean => hclean _ ?_)
  exact inRegion_add _ _ k (List.mem_range.mp hk)

theorem SourceKept.sourceBytes_eq {l : Latched} {s t : State} (hk : SourceKept l s t)
    (h : s.platform.coherent = true ∨ ∀ a, inRegion l.source a = true → inRegions s.dirty a = false) :
    t.sourceBytes l = s.sourceBytes l := by
  have ht : t.platform.coherent = true ∨ ∀ a, inRegion l.source a = true → inRegions t.dirty a = false :=
    h.imp (fun hc => by rw [hk.platform, hc]) (fun hclean a ha => hk.cleaned a ha (hclean a ha))
  rw [sourceBytes_eq_readBytes h, sourceBytes_eq_readBytes ht]
  exact List.map_congr_left fun k hmem => hk.bytes _ (inRegion_add _ _ k (List.mem_range.mp hmem))

/-- Settles O32: the second part from `SourceKept`, carried along the path and over the last host access. -/
theorem sourceBytesAreMemory : Obligations.SourceBytesAreMemory := by
  unfold Obligations.SourceBytesAreMemory
  refine ⟨fun s l => ⟨length_sourceBytes s l, fun k hk => ?byteRead, sourceBytes_eq_readBytes⟩, ?keptAlongRun⟩
  case byteRead =>
    rw [sourceBytes_getElem? s l k hk]
    simp [State.engineByte]
  case keptAlongRun =>
    intro l n path x u hm hwf hstep hp hx hu
    have hpath := path_keeps_source hm hwf n hstep hp
    have hkept := hpath.trans (hostStep_keeps_source hm hpath.canonical hx hu)
    exact ⟨hkept.bytes, hkept.sourceBytes_eq⟩

/-! ### A host write, a clean, an invalidate (R69, R70, R77) -/

theorem phaseAfterWrite_of_idle {p : Phase} (rs : List Region) (h : p = .idle) : phaseAfterWrite rs p = .idle := by
  rw [h]
  rfl

/-- Settles O54: the three accesses are updates by `State.touched`, whose bytes, lists and phase are each known. -/
theorem hostWriteStoresAndMarksTheRace : Obligations.HostWriteStoresAndMarksTheRace := by
  unfold Obligations.HostWriteStoresAndMarksTheRace
  intro s addr bs hb hwf
  refine ⟨⟨_, hostAccess_memWrite hb, fun k hk => ?written, fun a ha => ?elsewhere, fun hc => by simp [hc],
    fun hc a => ?lists, fun r => readReg_touched .., rfl, phaseAfterWrite_of_idle _, fun l raced hp => ?racedByWrite⟩,
    fun hc => ⟨hostAccess_cacheClean_of_coherent hb hc, hostAccess_cacheInvalidate_of_coherent hb hc⟩,
    fun hc => ⟨_, _, hostAccess_cacheClean hb hc, hostAccess_cacheInvalidate hb hc,
      fun a => ⟨inRegions_regionsMinus_eq _ _ _, rfl, rfl, inRegions_regionsMinus_eq _ _ _, ?cleaned, ?invalidated⟩,
      fun r => ⟨readReg_touched .., readReg_touched ..⟩, rfl, phaseAfterWrite_of_idle _,
      fun l raced hp => ?racedByCache⟩⟩
  case written =>
    rw [State.touched_mem, Memory.read_writeBytes _ _ _ _ (Memory.rising_of_wf _ hwf), if_pos (inRegion_add _ _ k hk)]
    simp [hk]
  case elsewhere =>
    rw [State.touched_mem, Memory.read_writeBytes _ _ _ _ (Memory.rising_of_wf _ hwf), ha]
    rfl
  case lists => cases hin : inRegion ⟨addr, bs.length⟩ a <;> simp [hc, hin]
  case racedByWrite =>
    simpa only [State.touched_phase, hp, inRegions_cons, inRegions_nil, Bool.or_false] using
      phaseAfterWrite_busy [⟨addr, bs.length⟩] l raced
  case cleaned =>
    simp only [State.touched_mem, Memory.read_markAnys, inRegions_flatMap_regionsCommon, inRegions_regionsCommon_eq]
  case invalidated => simp only [State.touched_mem, Memory.read_markAnys, inRegions_regionsCommon_eq]
  case racedByCache =>
    simpa only [State.touched_phase, hp, inRegions_regionsCommon_eq, Bool.and_eq_true, and_assoc] using
      phaseAfterWrite_busy (regionsCommon s.dirty ⟨addr, bs.length⟩) l raced

end Sys2Proof.Machine

/-! PROOFS. Family 10_state.md: the end of a run as one relation between states, what a host access can do, and the
invariant. -/

namespace Sys2Proof.Machine

/-! ### The engine's step as the end of a run (R242, R250, R283) -/

/-- What every end of a run leaves, however it ends: the phase IDLE with DONE or ERR set, a canonical memory canonical,
and the registers and the outside that no end of a run writes. -/
structure RunEnded (s t : State) : Prop where
  idle : t.phase = .idle
  reported : t.status.done = true ∨ t.status.err = true
  canonical : s.mem.wf = true → t.mem.wf = true
  registers : RegistersKept s t
  outside : OutsideKept s t

theorem RunEnded.of_takeFault (f : FaultRecord) (d : Nat) (s : State) :
    RunEnded s { takeFault f s with draws := d } :=
  ⟨rfl, Or.inr rfl, id, by constructor <;> rfl, by constructor <;> rfl⟩

theorem RunEnded.of_takeDataFault (l : Latched) (f : FaultRecord) (s : State) : RunEnded s (takeDataFault l f s) :=
  ⟨rfl, Or.inr rfl, Memory.wf_markAnys _ _ _, by constructor <;> rfl, by constructor <;> rfl⟩

theorem RunEnded.of_complete (l : Latched) (out : List Byte) (trail : Bool) (s : State) :
    RunEnded s (complete l out trail s) :=
  ⟨rfl, Or.inl rfl, Memory.wf_writeBytes _ _ _, by constructor <;> rfl, by constructor <;> rfl⟩

theorem RunEnded.of_complete_exposed (l : Latched) (out : List Byte) (trail : Bool) (s : State) :
    RunEnded s (complete l out trail (exposeDestination l s)) :=
  ⟨rfl, Or.inl rfl, Memory.wf_writeBytes _ _ _, by constructor <;> rfl, by constructor <;> rfl⟩

theorem RunEnded.of_finishRaced (l : Latched) (s : State) : RunEnded s (finishRaced l s) := by
  rcases finishRaced_cases l s with h | h <;> rw [h]
  · exact ⟨rfl, Or.inl rfl, Memory.wf_markAnys _ _ _, by constructor <;> rfl, by constructor <;> rfl⟩
  · exact ⟨rfl, Or.inr rfl, Memory.wf_markAnys _ _ _, by constructor <;> rfl, by constructor <;> rfl⟩

theorem RunEnded.of_finishRun (g : Option FaultRecord) (need : Option Nat)
    (f : List Byte → Except FaultRecord CommandResult) (l : Latched) (raced : Bool) (s : State) :
    RunEnded s (finishRun g need f l raced s) := by
  rcases finishRun_cases g need f l raced s with ⟨c, d, _, h⟩ | ⟨_, _, h⟩ | ⟨_, _, r, _, h⟩ | ⟨_, _, c, _, h⟩ <;> rw [h]
  · exact .of_takeFault c d s
  · exact .of_finishRaced l s
  · exact .of_complete_exposed l r.out r.trail s
  · exact .of_takeDataFault l c s

/-- Every command but NOP ends its run by `finishRun`, with its own checks and a transform that depends on the latched
operands alone. -/
theorem exec_eq_finishRun {i : Instr} (hi : i ≠ .nop) (l : Latched) :
    ∃ f, ∀ (s : State) (raced : Bool), s.phase = .busy l raced →
      exec i s = .next (finishRun (geometryFault i l) (staticNeed i l) f l raced s) := by
  cases i with
  | nop => exact absurd rfl hi
  | rot => exact ⟨_, fun s => exec_rot s l⟩
  | unrot => exact ⟨_, fun s => exec_unrot s l⟩
  | fold => exact ⟨_, fun s => exec_fold s l⟩
  | unfold => exact ⟨_, fun s => exec_unfold s l⟩
  | denc => exact ⟨_, fun s => exec_denc s l⟩
  | ddec => exact ⟨_, fun s => exec_ddec s l⟩
  | spenc => exact ⟨_, fun s => exec_spenc s l⟩
  | spdec => exact ⟨_, fun s => exec_spdec s l⟩
  | compress => exact ⟨_, fun s => exec_compress s l⟩
  | decompress => exact ⟨_, fun s => exec_decompress s l⟩

/-- While BUSY every command answers a next state, in which the run has ended. -/
theorem exec_ends_run (i : Instr) {s : State} {l : Latched} {raced : Bool} (hp : s.phase = .busy l raced) :
    ∃ t, exec i s = .next t ∧ RunEnded s t := by
  by_cases hi : i = .nop
  · subst hi
    exact ⟨_, exec_nop s l raced hp, .of_complete l [] false s⟩
  · obtain ⟨f, hf⟩ := exec_eq_finishRun hi l
    exact ⟨_, hf s raced hp, .of_finishRun ..⟩

/-- The engine's step always answers a next state: at IDLE the same state, while BUSY one in which the run has ended. -/
theorem runLatched_cases (s : State) :
    (s.phase = .idle ∧ runLatched exec s = .next s) ∨ ∃ t, runLatched exec s = .next t ∧ RunEnded s t := by
  cases hp : s.phase with
  | idle => exact Or.inl ⟨rfl, runLatched_idle exec s hp⟩
  | busy l raced =>
    refine Or.inr ?_
    cases hd : decode l.word with
    | ok i =>
      rw [runLatched_busy exec s l raced i hp hd]
      exact exec_ends_run i hp
    | error e =>
      exact ⟨takeFault (illegalRecord l.word) s, by simp only [runLatched, hp, hd],
        .of_takeFault (illegalRecord l.word) s.draws s⟩

theorem runLatched_eq_next {s t : State} (h : runLatched exec s = .next t) :
    (s.phase = .idle ∧ t = s) ∨ RunEnded s t := by
  rcases runLatched_cases s with ⟨hp, h'⟩ | ⟨u, h', hended⟩ <;> cases h'.symm.trans h
  · exact Or.inl ⟨hp, rfl⟩
  · exact Or.inr hended

/-! ### What a host access can do -/

/-- Everything a host access that answers next can do: a register write; an answer, or nothing; a write to memory, its
own or one of the hosts' caches, as another agent's. -/
theorem hostAccess_cases {a : HostAccess} {s t : State} (h : hostAccess a s = .next t) :
    (∃ r v, t = writeReg r v s) ∨ (∃ answer draws, t = { s with answer := answer, draws := draws }) ∨
    ∃ hits mem dirty stale draws, (s.mem.wf = true → mem.wf = true) ∧ t = s.touched hits mem dirty stale draws := by
  cases a with
  | regRead w addr =>
    obtain ⟨r, _, rfl⟩ := hostRegRead_eq_next _ _ _ _ h
    exact Or.inr (Or.inl ⟨_, s.draws, rfl⟩)
  | regWrite w addr v =>
    obtain ⟨r, _, rfl⟩ := hostRegWrite_eq_next _ _ _ _ _ h
    exact Or.inl ⟨r, v, rfl⟩
  | memRead addr len =>
    obtain ⟨_, rfl⟩ := onBacked_eq_next _ _ _ _ h
    exact Or.inr (Or.inl ⟨_, _, rfl⟩)
  | memWrite addr bs =>
    obtain ⟨hb, _⟩ := onBacked_eq_next _ _ _ _ h
    cases (hostAccess_memWrite hb).symm.trans h
    exact Or.inr (Or.inr ⟨_, _, _, _, _, Memory.wf_writeBytes _ _ _, rfl⟩)
  | cacheClean addr len =>
    obtain ⟨hb, _⟩ := onBacked_eq_next _ _ _ _ h
    cases hc : s.platform.coherent with
    | true =>
      cases (hostAccess_cacheClean_of_coherent hb hc).symm.trans h
      exact Or.inr (Or.inl ⟨s.answer, s.draws, rfl⟩)
    | false =>
      cases (hostAccess_cacheClean hb hc).symm.trans h
      exact Or.inr (Or.inr ⟨_, _, _, _, _, Memory.wf_markAnys _ _ _, rfl⟩)
  | cacheInvalidate addr len =>
    obtain ⟨hb, _⟩ := onBacked_eq_next _ _ _ _ h
    cases hc : s.platform.coherent with
    | true =>
      cases (hostAccess_cacheInvalidate_of_coherent hb hc).symm.trans h
      exact Or.inr (Or.inl ⟨s.answer, s.draws, rfl⟩)
    | false =>
      cases (hostAccess_cacheInvalidate hb hc).symm.trans h
      exact Or.inr (Or.inr ⟨_, _, _, _, _, Memory.wf_markAnys _ _ _, rfl⟩)

/-! ### The invariant, part by part (R46) -/

theorem isPermutation_identityPerm : isPermutation Config.identityPerm = true := by decide

/-- ROT_PERM holds a permutation after a write of any value (R40). -/
theorem isPermutation_permWritten (old : BitVec 24) (v : Word) (h : isPermutation old = true) :
    isPermutation (permWritten old v) = true := by
  unfold permWritten
  split
  · assumption
  · exact h

/-- A state with no open run satisfies the invariant as soon as memory and ROT_PERM do. -/
theorem Inv.of_idle {s : State} (hm : s.mem.wf = true) (hperm : isPermutation s.rotPerm = true) (hp : s.phase = .idle) :
    Inv s :=
  ⟨hm, hperm, fun _ _ h => absurd (hp.symm.trans h) Phase.noConfusion⟩

theorem Inv.status_of_busy {s : State} (h : Inv s) (hb : s.isBusy = true) :
    s.status.done = false ∧ s.status.err = false ∧ s.status.trail = false := by
  obtain ⟨l, raced, hp⟩ := (isBusy_eq_true_iff s).mp hb
  obtain ⟨hdone, herr, htrail, _⟩ := h.run_open l raced hp
  exact ⟨hdone, herr, htrail⟩

theorem RunEnded.inv {s t : State} (h : RunEnded s t) (hs : Inv s) : Inv t :=
  .of_idle (h.canonical hs.memory_canonical) (by rw [h.registers.rotPerm, hs.permutation_held]) h.idle

theorem Inv.resetBlock {s : State} (h : Inv s) : Inv (resetBlock s) := by
  refine .of_idle ?_ isPermutation_identityPerm rfl
  show (if s.isBusy then scramble (runFootprint s) s else s).mem.wf = true
  split
  · exact Memory.wf_markAnys _ _ _ h.memory_canonical
  · exact h.memory_canonical

/-- A write to STATUS while a run is open finds DONE and ERR 0 and leaves them so. -/
theorem Inv.acknowledge {s : State} (v : Word) (h : Inv s) : Inv (acknowledge v s) := by
  refine ⟨h.memory_canonical, h.permutation_held, fun l raced hp => ?_⟩
  obtain ⟨hdone, herr, hrest⟩ := h.run_open l raced hp
  exact ⟨by simp [hdone], by simp [herr], hrest⟩

/-- An accepted word is a legal command, latched with ERR 0 and the permutation that ROT_PERM holds; any other CMD write
opens no run. -/
theorem Inv.offerCommand {s : State} (w : Word) (h : Inv s) : Inv (offerCommand w s) := by
  rcases offerCommand_cases w s with ⟨_, herr, hlegal, heq⟩ | ⟨_, _, _, heq⟩ | ⟨_, heq⟩ <;> rw [heq]
  · refine ⟨h.memory_canonical, h.permutation_held, fun l raced hp => ?_⟩
    cases hp
    exact ⟨rfl, herr, rfl, h.permutation_held, hlegal⟩
  · exact .of_idle h.memory_canonical h.permutation_held rfl
  · exact ⟨h.memory_canonical, h.permutation_held, h.run_open⟩

theorem Inv.writeReg {s : State} (r : Reg) (v : Word) (h : Inv s) : Inv (writeReg r v s) := by
  cases r with
  | status => exact h.acknowledge v
  | cmd => exact h.offerCommand v
  | rotPerm => exact ⟨h.memory_canonical, isPermutation_permWritten _ _ h.permutation_held, h.run_open⟩
  | _ => exact ⟨h.memory_canonical, h.permutation_held, h.run_open⟩

/-- Another agent's write leaves the run open that was open, with its operand set. -/
theorem Inv.touched {s : State} (hits : List Region) {mem : Memory} (dirty stale : List Region) (draws : Nat)
    (h : Inv s) (hm : mem.wf = true) : Inv (s.touched hits mem dirty stale draws) := by
  refine ⟨hm, h.permutation_held, fun l raced' hp => ?_⟩
  rw [State.touched_phase] at hp
  rcases phaseAfterWrite_cases hits s.phase with ⟨_, h'⟩ | ⟨l', raced, _, hbusy, h'⟩ <;> cases h'.symm.trans hp
  exact h.run_open l raced hbusy

theorem Inv.hostAccess {a : HostAccess} {s t : State} (h : Inv s) (ha : hostAccess a s = .next t) : Inv t := by
  rcases hostAccess_cases ha with ⟨r, v, rfl⟩ | ⟨answer, draws, rfl⟩ | ⟨hits, mem, dirty, stale, draws, hm, rfl⟩
  · exact h.writeReg r v
  · exact ⟨h.memory_canonical, h.permutation_held, h.run_open⟩
  · exact h.touched hits dirty stale draws (hm h.memory_canonical)

theorem Inv.hostStep {x : Option HostAccess} {s t : State} (h : Inv s) (hx : hostStep x s = .next t) : Inv t := by
  cases x with
  | none =>
    cases hx
    exact h
  | some a => exact h.hostAccess hx

theorem Inv.runLatched {s t : State} (h : Inv s) (hrun : runLatched exec s = .next t) : Inv t := by
  rcases runLatched_eq_next hrun with ⟨_, rfl⟩ | hended
  · exact h
  · exact hended.inv h

/-- Settles O57: a step is a reset, a host access, an engine step, or the last two in that order, and each of them keeps
the invariant. -/
theorem everyStepKeepsTheInvariant : Obligations.EveryStepKeepsTheInvariant := by
  unfold Obligations.EveryStepKeepsTheInvariant
  intro s t hs hstep
  rcases step_cases s t hstep with ⟨_, hrun⟩ | ⟨x, rest, _, hinstant⟩
  · exact hs.runLatched hrun
  · have hs' : Inv { s with inputs := rest } := ⟨hs.memory_canonical, hs.permutation_held, hs.run_open⟩
    rcases hinstant with ⟨_, rfl⟩ | ⟨_, u, hu, ⟨_, _, hrun⟩ | ⟨_, rfl⟩⟩
    · exact hs'.resetBlock
    · exact (hs'.hostStep hu).runLatched hrun
    · exact hs'.hostStep hu

/-- Settles O56: the memory lists nothing, ROT_PERM holds the identity, the phase is IDLE. -/
theorem resetSatisfiesTheInvariant : Obligations.ResetSatisfiesTheInvariant :=
  ⟨.of_idle Memory.wf_empty isPermutation_identityPerm rfl, List.forall_mem_nil _, List.forall_mem_nil _⟩

end Sys2Proof.Machine

/-! PROOFS. Family 10_state.md: one step taken apart, where it stops, and what the end of a run depends on. -/

namespace Sys2Proof.Machine

/-! ### One step, by what its instant brings (R71, R289) -/

section
variable {s u : State} {x : Instant} {rest : List Instant}

theorem step_of_no_inputs (h : s.inputs = []) : step s = runLatched exec s := by
  simp only [step, advance, h]

theorem step_of_inputs (h : s.inputs = x :: rest) :
    step s = instantStep (runLatched exec) x { s with inputs := rest } := by
  simp only [step, advance, h]

variable {engine : State → Host.Outcome State Fault Refusal}

theorem instantStep_reset (hr : x.reset = true) : instantStep engine x s = .next (resetBlock s) := if_pos hr

/-- The engine's step falls after a host access that answers, and only in a run that was open before it. -/
theorem instantStep_of_hostStep (hr : x.reset = false) (hu : hostStep x.access s = .next u) :
    instantStep engine x s = if x.engine && s.isBusy then engine u else .next u := by
  simp [instantStep, hr, hu]

/-- Where the host access has no meaning the instant has none. -/
theorem instantStep_of_no_next (hr : x.reset = false) (h : ∀ u, hostStep x.access s ≠ .next u) :
    instantStep engine x s = hostStep x.access s := by
  rw [instantStep, hr]
  cases ha : hostStep x.access s with
  | next u => exact absurd ha (h u)
  | fault f => rfl
  | refused e => rfl

theorem instantStep_idle (hr : x.reset = false) (hb : s.isBusy = false) :
    instantStep engine x s = hostStep x.access s := by
  by_cases h : ∃ u, hostStep x.access s = .next u
  · obtain ⟨u, hu⟩ := h
    rw [instantStep_of_hostStep hr hu, hb, Bool.and_false, hu]
    rfl
  · exact instantStep_of_no_next hr (not_exists.mp h)

end

/-! ### A run stays open through a host access -/

theorem writeReg_phase_of_busy {s : State} (r : Reg) (v : Word) (h : s.isBusy = true) :
    (writeReg r v s).phase = s.phase := by
  cases r with
  | cmd =>
    show (offerCommand v s).phase = s.phase
    rw [offerCommand, h]
    rfl
  | _ => rfl

theorem hostAccess_keeps_run {a : HostAccess} {s t : State} {l : Latched} {raced : Bool} (hp : s.phase = .busy l raced)
    (h : hostAccess a s = .next t) : ∃ raced', t.phase = .busy l raced' := by
  rcases hostAccess_cases h with ⟨r, v, rfl⟩ | ⟨_, _, rfl⟩ | ⟨hits, _, _, _, _, _, rfl⟩
  · exact ⟨raced, by rw [writeReg_phase_of_busy r v ((isBusy_eq_true_iff s).mpr ⟨l, raced, hp⟩), hp]⟩
  · exact ⟨raced, hp⟩
  · obtain ⟨raced', hbusy, _⟩ := phaseAfterWrite_busy hits l raced
    exact ⟨raced', by rw [State.touched_phase, hp, hbusy]⟩

theorem hostStep_keeps_run {a : Option HostAccess} {s t : State} {l : Latched} {raced : Bool}
    (hp : s.phase = .busy l raced) (h : hostStep a s = .next t) : ∃ raced', t.phase = .busy l raced' := by
  cases a with
  | none =>
    cases h
    exact ⟨raced, hp⟩
  | some a => exact hostAccess_keeps_run hp h

/-- Settles O3: the engine step that falls after a host access finds the run that was open before it. -/
theorem stepRunsTheLatchedCommand : Obligations.StepRunsTheLatchedCommand := by
  unfold Obligations.StepRunsTheLatchedCommand
  refine ⟨fun s x rest hp hi hr => ?idle, fun s l raced i hp hd => ⟨fun hi => ?lastInstant, ?anInstant⟩⟩
  case idle =>
    have hb : State.isBusy { s with inputs := rest } = false := (isBusy_eq_false_iff _).mpr hp
    rw [step_of_inputs hi, instantStep_idle hr hb]
  case lastInstant => rw [step_of_no_inputs hi, runLatched_busy exec s l raced i hp hd]
  case anInstant =>
    intro x rest u hi hr hu
    obtain ⟨raced', hu_busy⟩ := hostStep_keeps_run (s := { s with inputs := rest }) hp hu
    have hb : State.isBusy { s with inputs := rest } = true := (isBusy_eq_true_iff _).mpr ⟨l, raced, hp⟩
    have hstep : step s = if x.engine then runLatched exec u else .next u := by
      rw [step_of_inputs hi, instantStep_of_hostStep hr hu, hb, Bool.and_true]
    refine ⟨⟨raced', hu_busy⟩, fun he => ?_, fun he => ?_⟩
    · rw [hstep, if_pos he, runLatched_busy exec u l raced' i hu_busy hd]
    · rw [hstep, he]
      rfl

/-! ### Where a step stops (R47, R63; notes/assumptions/6.md and 8.md) -/

theorem runLatched_answers (s : State) : ∃ t, runLatched exec s = .next t := by
  rcases runLatched_cases s with ⟨_, h⟩ | ⟨t, h, _⟩ <;> exact ⟨_, h⟩

/-- A step that answers no next state is a host access of its instant. -/
theorem step_answers_or_is_hostAccess (s : State) :
    (∃ t, step s = .next t) ∨ ∃ x rest a, s.inputs = x :: rest ∧ x.reset = false ∧ x.access = some a ∧
      step s = hostAccess a { s with inputs := rest } := by
  cases hi : s.inputs with
  | nil =>
    rw [step_of_no_inputs hi]
    exact Or.inl (runLatched_answers s)
  | cons x rest =>
    rw [step_of_inputs hi]
    cases hr : x.reset with
    | true => exact Or.inl ⟨_, instantStep_reset hr⟩
    | false =>
      by_cases h : ∃ u, hostStep x.access { s with inputs := rest } = .next u
      · obtain ⟨u, hu⟩ := h
        rw [instantStep_of_hostStep hr hu]
        refine Or.inl ?_
        split
        · exact runLatched_answers u
        · exact ⟨u, rfl⟩
      · rw [instantStep_of_no_next hr (not_exists.mp h)]
        cases ha : x.access with
        | none => exact absurd ⟨_, by rw [ha]; rfl⟩ h
        | some a => exact Or.inr ⟨x, rest, a, rfl, hr, ha, rfl⟩

theorem windowReg_eq_error {p : Platform} {w : AccessWidth} {addr : Nat} {e : Refusal}
    (h : windowReg p w addr = .error e) : e = .undefinedRegisterAccess ∨ e = .outsideWindow := by
  unfold windowReg at h
  split at h
  · cases h
    exact Or.inr rfl
  · split at h <;> cases h
    exact Or.inl rfl

theorem onBacked_ne_refused (s : State) (r : Region) (t : State) (e : Refusal) : onBacked s r t ≠ .refused e := by
  unfold onBacked
  split <;> nofun

/-- A host access is refused only for the register it names (R63). -/
theorem hostAccess_eq_refused {a : HostAccess} {s : State} {e : Refusal} (h : hostAccess a s = .refused e) :
    e = .undefinedRegisterAccess ∨ e = .outsideWindow := by
  cases a with
  | regRead w addr =>
    cases hw : windowReg s.platform w addr <;> simp only [hostAccess, hostRegRead, hw] at h <;> cases h
    exact windowReg_eq_error hw
  | regWrite w addr v =>
    cases hw : windowReg s.platform w addr <;> simp only [hostAccess, hostRegWrite, hw] at h <;> cases h
    exact windowReg_eq_error hw
  | memRead _ _ => exact absurd h (onBacked_ne_refused _ _ _ _)
  | memWrite _ _ => exact absurd h (onBacked_ne_refused _ _ _ _)
  | cacheClean _ _ => exact absurd h (onBacked_ne_refused _ _ _ _)
  | cacheInvalidate _ _ => exact absurd h (onBacked_ne_refused _ _ _ _)

theorem hostStep_frame {a : Option HostAccess} {s t : State} (h : hostStep a s = .next t) :
    t.platform = s.platform ∧ t.inputs = s.inputs := by
  cases a with
  | none =>
    cases h
    exact ⟨rfl, rfl⟩
  | some a => exact hostAccess_frame a s t h

theorem runLatched_frame {s t : State} (h : runLatched exec s = .next t) :
    t.platform = s.platform ∧ t.inputs = s.inputs := by
  rcases runLatched_eq_next h with ⟨_, rfl⟩ | hended
  · exact ⟨rfl, rfl⟩
  · exact ⟨hended.outside.platform, hended.outside.inputs⟩

theorem resetBlock_frame (s : State) : (resetBlock s).platform = s.platform ∧ (resetBlock s).inputs = s.inputs := by
  unfold resetBlock
  split <;> exact ⟨rfl, rfl⟩

/-- A step that answers keeps the platform and uses up the first of the instants to come. -/
theorem step_frame {s t : State} (h : step s = .next t) : t.platform = s.platform ∧ t.inputs = s.inputs.drop 1 := by
  rcases step_cases s t h with ⟨hi, hrun⟩ | ⟨x, rest, hi, hinstant⟩ <;> rw [hi]
  · obtain ⟨hplatform, hinputs⟩ := runLatched_frame hrun
    exact ⟨hplatform, hinputs.trans hi⟩
  · rcases hinstant with ⟨_, rfl⟩ | ⟨_, u, hu, ⟨_, _, hrun⟩ | ⟨_, rfl⟩⟩
    · exact resetBlock_frame { s with inputs := rest }
    · obtain ⟨hplatform, hinputs⟩ := runLatched_frame hrun
      obtain ⟨hplatform', hinputs'⟩ := hostStep_frame hu
      exact ⟨hplatform.trans hplatform', hinputs.trans hinputs'⟩
    · exact hostStep_frame hu

/-- Settles O59: a step that does not answer is a host access, which alone can fault or be refused. -/
theorem stepStopsOnlyAtAHostAccess : Obligations.StepStopsOnlyAtAHostAccess := by
  unfold Obligations.StepStopsOnlyAtAHostAccess
  refine fun s => ⟨fun t => step_frame, fun f hf => ?fault, fun e he => ?refused⟩
  case fault =>
    rcases step_answers_or_is_hostAccess s with ⟨t, ht⟩ | ⟨x, rest, a, hi, hr, ha, hstep⟩
    · cases ht.symm.trans hf
    · exact ⟨x, rest, a, hi, hr, ha, hstep.symm.trans hf⟩
  case refused =>
    rcases step_answers_or_is_hostAccess s with ⟨t, ht⟩ | ⟨x, rest, a, hi, hr, ha, hstep⟩
    · cases ht.symm.trans he
    · have hrefused := hstep.symm.trans he
      exact ⟨hostAccess_eq_refused hrefused, x, rest, a, hi, hr, ha, hrefused⟩

/-! ### What the end of a run depends on (R44, R47, R83, R315) -/

/-- The two states agree in all that the engine reads besides the latched operands. -/
structure SameForEngine (s u : State) : Prop where
  mem : u.mem = s.mem
  platform : u.platform = s.platform
  dirty : u.dirty = s.dirty
  draws : u.draws = s.draws

/-- The two states agree in what a run reports: the cause and the info of a fault only where it ended in one. -/
structure SameReport (s u : State) : Prop where
  mem : u.mem = s.mem
  resultLen : u.resultLen = s.resultLen
  done : u.status.done = s.status.done
  trail : u.status.trail = s.status.trail
  fault : s.status.done = false → u.faultCause = s.faultCause ∧ u.faultInfo = s.faultInfo

section
variable {s u : State}

theorem SameForEngine.sourceBytes (h : SameForEngine s u) (l : Latched) : u.sourceBytes l = s.sourceBytes l := by
  simp only [State.sourceBytes, State.engineByte, h.mem, h.platform, h.dirty, h.draws]

theorem SameForEngine.takeFault (h : SameForEngine s u) (f : FaultRecord) :
    SameReport (takeFault f s) (takeFault f u) :=
  ⟨h.mem, rfl, rfl, rfl, fun _ => ⟨rfl, rfl⟩⟩

theorem SameForEngine.takeDataFault (h : SameForEngine s u) (l : Latched) (f : FaultRecord) :
    SameReport (takeDataFault l f s) (takeDataFault l f u) :=
  ⟨congrArg₂ (·.markAnys [l.destination] ·) h.mem h.draws, rfl, rfl, rfl, fun _ => ⟨rfl, rfl⟩⟩

theorem SameForEngine.complete (h : SameForEngine s u) (l : Latched) (out : List Byte) (trail : Bool) :
    SameReport (complete l out trail s) (complete l out trail u) :=
  ⟨congrArg (·.writeBytes l.dstAddr.toNat out) h.mem, rfl, rfl, rfl, fun hd => nomatch hd⟩

theorem SameForEngine.finishRaced (h : SameForEngine s u) (l : Latched) :
    SameReport (finishRaced l s) (finishRaced l u) := by
  have hmem : u.mem.markAnys l.footprint u.draws = s.mem.markAnys l.footprint s.draws := by rw [h.mem, h.draws]
  unfold Machine.finishRaced
  simp only [h.draws]
  split
  · exact ⟨hmem, rfl, rfl, rfl, fun hd => nomatch hd⟩
  · exact ⟨hmem, rfl, rfl, rfl, fun _ => ⟨rfl, rfl⟩⟩

theorem SameForEngine.finishChecked (h : SameForEngine s u) (f : FaultRecord) (l : Latched) (raced : Bool) :
    SameReport (finishChecked f l raced s) (finishChecked f l raced u) := by
  unfold Machine.finishChecked
  rw [h.draws]
  split
  · split
    · exact ⟨h.mem, rfl, rfl, rfl, fun _ => ⟨rfl, rfl⟩⟩
    · exact h.finishRaced l
  · exact h.takeFault f

theorem SameForEngine.finishRun (h : SameForEngine s u) (g : Option FaultRecord) (need : Option Nat)
    (f : List Byte → Except FaultRecord CommandResult) (l : Latched) (raced : Bool) :
    SameReport (finishRun g need f l raced s) (finishRun g need f l raced u) := by
  unfold Machine.finishRun
  rw [h.platform, h.sourceBytes l]
  split
  · exact h.finishChecked _ l raced
  · split
    · exact h.finishRaced l
    · split
      · have hexposed : SameForEngine (exposeDestination l s) (exposeDestination l u) :=
          ⟨h.mem, h.platform, h.dirty, h.draws⟩
        exact hexposed.complete l _ _
      · exact h.takeDataFault l _

theorem SameForEngine.exec {s' u' : State} {l : Latched} {raced : Bool} (h : SameForEngine s u) (i : Instr)
    (hs : s.phase = .busy l raced) (hu : u.phase = .busy l raced) (hs' : exec i s = .next s')
    (hu' : exec i u = .next u') : SameReport s' u' := by
  by_cases hi : i = .nop
  · subst hi
    cases (exec_nop s l raced hs).symm.trans hs'
    cases (exec_nop u l raced hu).symm.trans hu'
    exact h.complete l [] false
  · obtain ⟨f, hf⟩ := exec_eq_finishRun hi l
    cases (hf s raced hs).symm.trans hs'
    cases (hf u raced hu).symm.trans hu'
    exact h.finishRun _ _ f l raced

end

/-- Settles O19: each end of a run reads no register, so states that agree for the engine end with the same report. -/
theorem commandDependsOnLatchAndMemoryAlone : Obligations.CommandDependsOnLatchAndMemoryAlone := by
  unfold Obligations.CommandDependsOnLatchAndMemoryAlone
  intro i s u l raced s' u' hs hu hmem hplatform hdirty hdraws hs' hu'
  have hsame : SameForEngine s u := ⟨hmem, hplatform, hdirty, hdraws⟩
  obtain ⟨hmem', hlen, hdone, htrail, hfault⟩ := hsame.exec i hs hu hs' hu'
  exact ⟨hmem', hlen, hdone, htrail, hfault⟩

end Sys2Proof.Machine

/-! PROOFS. Family 10_state.md: the register window by its offsets, the registers that a write reaches, and the bits of
the register words. -/

namespace Sys2Proof.Machine

/-! ### The register window by its offsets (R22, R63) -/

theorem windowReg_offset (p : Platform) {off : Nat} (haligned : off % 4 = 0) (hinside : off < Config.windowBytes) :
    windowReg p .bits32 (regBase p + off) = .ok (regAt off) := by
  have houtside : ¬ (regBase p + off < regBase p ∨ regBase p + Config.windowBytes ≤ regBase p + off) := by omega
  rw [windowReg, if_neg houtside, Nat.add_sub_cancel_left, if_pos ⟨rfl, haligned⟩]

section
variable (s : State) {off : Nat} (v : Word)

theorem hostAccess_windowRead (haligned : off % 4 = 0) (hinside : off < Config.windowBytes) :
    hostAccess (windowRead s.platform off) s = .next { s with answer := some (.word (readReg (regAt off) s)) } := by
  simp only [windowRead, hostAccess, hostRegRead, windowReg_offset s.platform haligned hinside]

theorem hostAccess_windowWrite (haligned : off % 4 = 0) (hinside : off < Config.windowBytes) :
    hostAccess (windowWrite s.platform off v) s = .next (writeReg (regAt off) v s) := by
  simp only [windowWrite, hostAccess, hostRegWrite, windowReg_offset s.platform haligned hinside]

end

@[simp] theorem regAt_offsetOf (r : Reg) : regAt (offsetOf r) = r := by cases r <;> rfl

/-- Every register stands at an aligned offset of the window. -/
theorem offsetOf_mem_window (r : Reg) : offsetOf r % 4 = 0 ∧ offsetOf r < Config.windowBytes := by
  cases r <;> decide

theorem regAt_unassigned {off : Nat} (h : 0x44 ≤ off) : regAt off = .unassigned := by
  unfold regAt
  split <;> first | rfl | omega

/-- Settles O12: no register stands at these offsets. -/
theorem unassignedOffsets : Obligations.UnassignedOffsets := by
  unfold Obligations.UnassignedOffsets
  intro s off v hlow hhigh haligned
  have hinside : off < Config.windowBytes := by unfold Config.windowBytes; omega
  rw [hostAccess_windowRead s haligned hinside, hostAccess_windowWrite s v haligned hinside, regAt_unassigned hlow]
  exact ⟨rfl, rfl⟩

/-- Settles O11: the access is to the register that `regAt` finds at the offset. -/
theorem registerReadsAndReadOnlyRegisters : Obligations.RegisterReadsAndReadOnlyRegisters := by
  unfold Obligations.RegisterReadsAndReadOnlyRegisters
  intro s v
  refine ⟨fun e he => ?reads, fun off hoff => ?writes, ?causes⟩
  case reads =>
    have hreg : e.1 % 4 = 0 ∧ e.1 < Config.windowBytes ∧ e.2 = readReg (regAt e.1) s := by
      revert e
      simp [readReg, regAt, Config.windowBytes]
    obtain ⟨haligned, hinside, hword⟩ := hreg
    rw [hostAccess_windowRead s haligned hinside, hword]
  case writes =>
    have hreg : off % 4 = 0 ∧ off < Config.windowBytes ∧ writeReg (regAt off) v s = s := by
      revert off
      simp [writeReg, regAt, Config.windowBytes]
    obtain ⟨haligned, hinside, hignored⟩ := hreg
    rw [hostAccess_windowWrite s v haligned hinside, hignored]
  case causes => simp [readReg, causeCode]

/-! ### The operand registers (R29 to R35) -/

theorem Reg.eq_of_isOperand {r : Reg} (hr : r.isOperand = true) : r = .srcAddr ∨ r = .srcLen ∨ r = .dstAddr ∨
    r = .dstCap ∨ r = .frameW ∨ r = .frameH ∨ r = .expLen := by
  cases r <;> simp [Reg.isOperand] at hr ⊢

section
variable {r : Reg} (hr : r.isOperand = true) (v : Word) (s : State)
include hr

theorem readReg_writeReg_self : readReg r (writeReg r v s) = v := by
  rcases Reg.eq_of_isOperand hr with rfl | rfl | rfl | rfl | rfl | rfl | rfl <;> rfl

/-- A write to an operand register is seen by no read of another register. -/
theorem readReg_writeReg_of_ne {q : Reg} (hq : q ≠ r) : readReg q (writeReg r v s) = readReg q s := by
  rcases Reg.eq_of_isOperand hr with rfl | rfl | rfl | rfl | rfl | rfl | rfl <;> cases q <;>
    first | rfl | exact absurd rfl hq

theorem writeReg_operand_phase_mem : (writeReg r v s).phase = s.phase ∧ (writeReg r v s).mem = s.mem := by
  rcases Reg.eq_of_isOperand hr with rfl | rfl | rfl | rfl | rfl | rfl | rfl <;> exact ⟨rfl, rfl⟩

end

/-- Settles O10: a write to an operand register changes its own field alone. -/
theorem operandRegistersReadBack : Obligations.OperandRegistersReadBack := by
  unfold Obligations.OperandRegistersReadBack
  intro r s v hr
  obtain ⟨haligned, hinside⟩ := offsetOf_mem_window r
  obtain ⟨hphase, hmem⟩ := writeReg_operand_phase_mem hr v s
  refine ⟨writeReg r v s, ?_, readReg_writeReg_self hr v s, fun q => readReg_writeReg_of_ne hr v s, hphase, hmem⟩
  rw [hostAccess_windowWrite s v haligned hinside, regAt_offsetOf]

/-! ### Reset (R48, R310) -/

theorem readReg_reset (r : Reg) : readReg r State.reset = resetReading r := by cases r <;> rfl

/-- What a register reads after reset does not depend on the state that reset falls on. -/
theorem readReg_resetBlock (r : Reg) (s : State) : readReg r (resetBlock s) = resetReading r := by
  rw [← readReg_reset r]
  cases r <;> rfl

theorem resetBlock_mem_of_idle {s : State} (h : s.phase = .idle) : (resetBlock s).mem = s.mem := by
  simp only [resetBlock, (isBusy_eq_false_iff s).mpr h, Bool.false_eq_true, if_false]

/-- Settles O4: reset takes only the outside and memory from the state it falls on. -/
theorem resetReadings : Obligations.ResetReadings :=
  fun s r => ⟨readReg_reset r, rfl, readReg_resetBlock r s, rfl, rfl, rfl, rfl, resetBlock_mem_of_idle⟩

/-! ### The bits of STATUS and CTRL (R24, R26) -/

/-- The word with one bit `k` has that bit and no other. -/
theorem getLsbD_bitAt {k : Nat} (hk : k < 32) (b : Bool) (j : Nat) :
    (bitAt k b).getLsbD j = (decide (j = k) && b) := by
  cases b with
  | false => simp [bitAt]
  | true =>
    have htwoPow : bitAt k true = BitVec.twoPow 32 k := by
      apply BitVec.eq_of_toNat_eq
      simp [bitAt, BitVec.toNat_twoPow]
    rw [htwoPow, BitVec.getLsbD_twoPow, Bool.and_true, decide_eq_true hk, Bool.true_and]
    exact decide_eq_decide.mpr eq_comm

theorem getLsbD_statusWord (s : State) (k : Nat) : (statusWord s).getLsbD k =
    (if k = 0 then s.isBusy else if k = 1 then s.status.done else if k = 2 then s.status.err
     else if k = 3 then s.irq else if k = 4 then s.status.trail else if k = 5 then s.status.skip else false) := by
  simp only [statusWord, BitVec.getLsbD_or, getLsbD_bitAt, Nat.reduceLT]
  split_ifs <;> simp_all

/-- Settles O8, by the bits of the STATUS word. -/
theorem statusAndInterruptReading : Obligations.StatusAndInterruptReading :=
  fun s k => ⟨getLsbD_statusWord s k, (getLsbD_statusWord s 3).symm⟩

theorem zmodeBits_eq_bitAt (z : ZMode) :
    zmodeBits z = bitAt 0 (decide (z = .cont)) ||| bitAt 1 (decide (z = .split)) := by
  cases z <;> decide

theorem getLsbD_ctrlWord (c : Ctrl) (k : Nat) : (ctrlWord c).getLsbD k =
    (if k = 0 then c.irqEn else if k = 1 then c.dseg else if k = 2 then decide (c.zmode = .cont)
     else if k = 3 then decide (c.zmode = .split) else if k = 4 then c.tailm else false) := by
  simp only [ctrlWord, zmodeBits_eq_bitAt, BitVec.getLsbD_or, BitVec.getLsbD_shiftLeft, getLsbD_bitAt, Nat.reduceLT]
  split_ifs <;> simp_all
  omega

/-! ### A write to CTRL (R25) -/

/-- The two bits of ZMODE in a word, the rest masked out. -/
theorem and_0x0C_eq (v : Word) : v &&& (0x0C : Word) = (v.extractLsb' 2 2).setWidth 32 <<< 2 := by
  apply BitVec.eq_of_getLsbD_eq
  intro k hk
  have hmask : (0x0C : Word).getLsbD k = decide (2 ≤ k ∧ k < 4) := by
    interval_cases k <;> rfl
  rw [BitVec.getLsbD_and, hmask, BitVec.getLsbD_shiftLeft, BitVec.getLsbD_setWidth, BitVec.getLsbD_extractLsb']
  by_cases h : 2 ≤ k ∧ k < 4
  · rw [Nat.add_sub_cancel' h.1]
    have : k - 2 < 2 ∧ k - 2 < 32 ∧ ¬ k < 2 := by omega
    simp_all
  · have : ¬ k - 2 < 2 ∨ k < 2 := by omega
    rcases this with this | this <;> simp [*]

theorem ctrlWord_and_0x0C (c : Ctrl) : ctrlWord c &&& (0x0C : Word) = zmodeBits c.zmode <<< 2 := by
  obtain ⟨irqEn, dseg, zmode, tailm⟩ := c
  cases irqEn <;> cases dseg <;> cases zmode <;> cases tailm <;> decide

theorem ctrlWord_and_0x0C_ne (c : Ctrl) : ctrlWord c &&& (0x0C : Word) ≠ 0x0C := by
  rw [ctrlWord_and_0x0C]
  cases c.zmode <;> decide

/-- Only 0b11 leaves ZMODE as it was; any other two bits are what it then reads. -/
theorem zmodeBits_zmodeWritten (old : ZMode) (x : BitVec 2) :
    zmodeBits (zmodeWritten old x.toNat) = if x = 3 then zmodeBits old else x.setWidth 32 := by
  cases old <;> revert x <;> decide

/-- The word with bit `k` of `v` alone. -/
theorem bitAt_getLsbD (v : Word) {k : Nat} (hk : k < 32) : bitAt k (v.getLsbD k) = v &&& bitAt k true := by
  apply BitVec.eq_of_getLsbD_eq
  intro j _
  rw [BitVec.getLsbD_and, getLsbD_bitAt hk, getLsbD_bitAt hk]
  by_cases h : j = k <;> simp [h]

/-- CTRL after a write of `v` reads bits 0, 1, 4 of `v`, and bits 3:2 of `v` unless they are 0b11. -/
theorem ctrlWord_ctrlWritten (c : Ctrl) (v : Word) : ctrlWord (ctrlWritten c v) = (v &&& (0x13 : Word)) |||
    (if v &&& (0x0C : Word) = 0x0C then ctrlWord c &&& (0x0C : Word) else v &&& (0x0C : Word)) := by
  have hmask : (0x13 : Word) = bitAt 0 true ||| bitAt 1 true ||| bitAt 4 true := by decide
  have hfields : v &&& (0x13 : Word) = bitAt 0 (v.getLsbD 0) ||| bitAt 1 (v.getLsbD 1) ||| bitAt 4 (v.getLsbD 4) := by
    simp only [hmask, bitAt_getLsbD, Nat.reduceLT, BitVec.and_or_distrib_left]
  have hreserved : ∀ x : BitVec 2, (x.setWidth 32 <<< 2 : Word) = 0x0C ↔ x = 3 := by decide
  have hzmode : zmodeBits (ctrlWritten c v).zmode <<< 2 =
      if v &&& (0x0C : Word) = 0x0C then ctrlWord c &&& (0x0C : Word) else v &&& (0x0C : Word) := by
    rw [ctrlWord_and_0x0C, and_0x0C_eq, ctrlWritten, zmodeBits_zmodeWritten]
    simp only [hreserved]
    split <;> rfl
  rw [← hzmode, hfields, ctrlWord]
  simp only [ctrlWritten, BitVec.or_assoc, BitVec.or_comm (bitAt 4 _)]

/-- Settles O6: the word CTRL then reads is `ctrlWord_ctrlWritten`. -/
theorem ctrlWrite : Obligations.CtrlWrite := by
  unfold Obligations.CtrlWrite
  intro s v
  refine ⟨_, hostAccess_windowWrite s v (by decide) (by decide), rfl, rfl, rfl, rfl, fun h => ?_, fun h => ?_,
    fun h => ?_, fun h => ?_, ctrlWord_ctrlWritten s.ctrl v, ctrlWord_and_0x0C_ne _⟩
  all_goals
    show zmodeWritten s.ctrl.zmode (v.extractLsb' 2 2).toNat = _
    rw [h]
    rfl

/-! ### A write to STATUS (R27) -/

/-- Settles O7: the engine step falls after the write, so what it sets stays. -/
theorem statusWrite : Obligations.StatusWrite := by
  unfold Obligations.StatusWrite
  intro s v
  have hwrite : ∀ s : State, hostAccess (windowWrite s.platform 0x08 v) s = .next (acknowledge v s) :=
    fun s => hostAccess_windowWrite s v (by decide) (by decide)
  refine ⟨?clears, fun l raced i rest hp hd hi => ?engineWins⟩
  case clears =>
    have hcleared : ∀ held written : Bool, (held && !written) = if written then false else held := by decide
    rw [hwrite s, acknowledge]
    simp only [hcleared]
  case engineWins =>
    have hacknowledged := hwrite { s with inputs := rest }
    obtain ⟨_, hrun, _⟩ := (stepRunsTheLatchedCommand.2 s l raced i hp hd).2 _ rest _ hi rfl hacknowledged
    obtain ⟨t, ht, hended⟩ := exec_ends_run i (s := acknowledge v { s with inputs := rest }) hp
    exact ⟨t, (hrun rfl).trans ht, hended.idle, hended.reported⟩

/-! ### ROT_PERM (R39, R40) -/

/-- The fields of a permutation are pairwise distinct, as bit fields. -/
theorem isPermutation_iff (v : BitVec 24) : isPermutation v = true ↔
    ∀ p q, p < 8 → q < 8 → v.extractLsb' (3 * p) 3 = v.extractLsb' (3 * q) 3 → p = q := by
  simp only [isPermutation, permFields, decide_eq_true_eq, List.nodup_map_iff_inj_on List.nodup_range, List.mem_range,
    permField, BitVec.toNat_inj]
  exact ⟨fun h p q hp hq => h p hp q hq, fun h p hp q hq => h p q hp hq⟩

theorem setWidth_extractLsb'_24 (v : Word) : (v.extractLsb' 0 24).setWidth 32 = v &&& (0x00FFFFFF : Word) := by
  apply BitVec.eq_of_toNat_eq
  have hmod : v.toNat &&& 0x00FFFFFF = v.toNat % 2 ^ 24 := Nat.and_two_pow_sub_one_eq_mod v.toNat 24
  simp [hmod]
  omega

/-- A written word's low 24 bits hold a permutation iff its eight fields are pairwise distinct. -/
theorem isPermutation_extractLsb'_iff (v : Word) : isPermutation (v.extractLsb' 0 24) = true ↔
    ∀ p q, p < 8 → q < 8 → v.extractLsb' (3 * p) 3 = v.extractLsb' (3 * q) 3 → p = q := by
  have hfield : ∀ p, p < 8 → (v.extractLsb' 0 24).extractLsb' (3 * p) 3 = v.extractLsb' (3 * p) 3 :=
    fun p hp => BitVec.extractLsb'_extractLsb'_of_le (by omega)
  rw [isPermutation_iff]
  refine forall₄_congr fun p q hp hq => ?_
  rw [hfield p hp, hfield q hq]

/-- Settles O9: pairwise distinct fields of the written word are a permutation in its low 24 bits. -/
theorem permWrite : Obligations.PermWrite := by
  unfold Obligations.PermWrite
  intro s v
  rw [← isPermutation_extractLsb'_iff]
  refine ⟨_, hostAccess_windowWrite s v (by decide) (by decide), rfl, fun h => ?distinct, fun h => ?repeated⟩
  case distinct =>
    show (permWritten s.rotPerm v).setWidth 32 = _
    rw [permWritten, if_pos h, setWidth_extractLsb'_24]
  case repeated =>
    show (permWritten s.rotPerm v).setWidth 32 = s.rotPerm.setWidth 32
    rw [permWritten, if_neg h]

/-! ### LUT_PROBE (R42, R132) -/

/-- UNFOLD undoes FOLD, at each of the 256 bytes. -/
theorem unfoldByte_foldByte : ∀ x : Byte, unfoldByte (foldByte x) = x := by decide

/-- LUT_PROBE reads three bytes side by side: FOLD in the lowest, UNFOLD in the next, the index above both. -/
theorem getLsbD_lutWord (idx : Byte) {k : Nat} (hk : k < 32) : (lutWord idx).getLsbD k =
    (if k < 8 then (foldByte idx).getLsbD k else if k < 16 then (unfoldByte idx).getLsbD (k - 8)
     else idx.getLsbD (k - 16)) := by
  have hin : k - 8 < 32 ∧ k - 16 < 32 := by omega
  simp only [lutWord, BitVec.getLsbD_or, BitVec.getLsbD_shiftLeft, BitVec.getLsbD_setWidth, hk, hin, decide_true,
    Bool.true_and]
  by_cases h8 : k < 8
  · have h16 : k < 16 := by omega
    simp [h8, h16]
  · have hfold : (foldByte idx).getLsbD k = false := BitVec.getLsbD_of_ge _ _ (by omega)
    by_cases h16 : k < 16
    · simp [h8, h16, hfold]
    · have hunfold : (unfoldByte idx).getLsbD (k - 8) = false := BitVec.getLsbD_of_ge _ _ (by omega)
      simp [h8, h16, hfold, hunfold]

/-- One byte of a word, known from its bits. -/
theorem extractLsb'_eq_of_bits {w : Word} {lo : Nat} {b : Byte}
    (h : ∀ k, k < 8 → w.getLsbD (lo + k) = b.getLsbD k) : w.extractLsb' lo 8 = b := by
  apply BitVec.eq_of_getLsbD_eq
  intro k hk
  rw [BitVec.getLsbD_extractLsb', h k hk, decide_eq_true hk, Bool.true_and]

/-- The four bytes of what LUT_PROBE reads (R42). -/
theorem lutWord_bytes (idx : Byte) :
    (lutWord idx).extractLsb' 0 8 = foldByte idx ∧ (lutWord idx).extractLsb' 8 8 = unfoldByte idx ∧
    (lutWord idx).extractLsb' 16 8 = idx ∧ (lutWord idx).extractLsb' 24 8 = 0 := by
  refine ⟨?_, ?_, ?_, ?_⟩ <;> refine extractLsb'_eq_of_bits fun k hk => ?_ <;> rw [getLsbD_lutWord idx (by omega)]
  · simp [hk]
  · simp [show ¬ 8 + k < 8 by omega, show 8 + k < 16 by omega]
  · simp [show ¬ 16 + k < 8 by omega, show ¬ 16 + k < 16 by omega]
  · simp [show ¬ 24 + k < 8 by omega, show ¬ 24 + k < 16 by omega, show 8 ≤ 24 + k - 16 by omega]

/-- Settles O14, by the four bytes of the word that LUT_PROBE reads. -/
theorem lutProbe : Obligations.LutProbe := by
  unfold Obligations.LutProbe
  refine ⟨fun s v => ⟨hostAccess_windowWrite s v (by decide) (by decide),
    hostAccess_windowRead s (by decide) (by decide), ?bytes⟩, readReg_reset .lutProbe⟩
  obtain ⟨hfold, hunfold, hidx, hzero⟩ := lutWord_bytes s.lutIndex
  exact ⟨hfold, hunfold, hidx, hzero, unfoldByte_foldByte s.lutIndex⟩

/-! ### The values the registers read (R46) -/

theorem causeCode_le (c : Cause) : (causeCode c).toNat ≤ 0xA := by cases c <;> decide

/-- CTRL never reads 0b11 in ZMODE. -/
theorem ctrlWord_zmode_ne (c : Ctrl) : (ctrlWord c).extractLsb' 2 2 ≠ 3 := by
  intro h
  refine ctrlWord_and_0x0C_ne c ?_
  rw [and_0x0C_eq, h]
  rfl

/-- Settles O55, by the bits of STATUS and CTRL and the parts of the invariant. -/
theorem registersReadLegalValues : Obligations.RegistersReadLegalValues := by
  unfold Obligations.RegistersReadLegalValues
  intro s
  have hstatus : ∀ k, (readReg .status s).getLsbD k = _ := getLsbD_statusWord s
  have hctrl : ∀ k, (readReg .ctrl s).getLsbD k = _ := getLsbD_ctrlWord s.ctrl
  have hrot : readReg .rotPerm s = s.rotPerm.setWidth 32 := rfl
  refine ⟨?irq, ctrlWord_zmode_ne s.ctrl, ?permHigh, causeCode_le s.faultCause, fun hinv => ⟨fun hb => ?busy, ?perm⟩⟩
  case irq => rw [hstatus, hstatus, hstatus, hctrl]; rfl
  case permHigh =>
    rw [hrot]
    ext k hk
    simp
  case busy =>
    rw [hstatus] at hb
    rw [hstatus, hstatus, hstatus]
    exact hinv.status_of_busy hb
  case perm =>
    have hfield : ∀ p, p < 8 → (s.rotPerm.setWidth 32).extractLsb' (3 * p) 3 = s.rotPerm.extractLsb' (3 * p) 3 :=
      fun p hp => BitVec.extractLsb'_setWidth_of_le (by omega)
    intro p q hp hq
    rw [hrot, hfield p hp, hfield q hq]
    exact (isPermutation_iff s.rotPerm).mp hinv.permutation_held p q hp hq

end Sys2Proof.Machine

/-! PROOFS. Family 20_memory.md: every way memory changes as one relation, `WrittenWithin`, and what it keeps: the bytes
elsewhere, and the DMA space. -/

namespace Sys2Proof.Machine

/-! ### Nothing is held outside the DMA space (R60, R65) -/

theorem regionStop_le_of_mem_regionMinus {r cut q : Region} (h : q ∈ regionMinus r cut) :
    regionStop q ≤ regionStop r := by
  by_cases hr : 0 < r.len
  · exact (regionMinus_within r cut q h).2 (regionMinus_pos r cut q hr h)
  · have hapart : regionsOverlap r cut = false := by simp [regionsOverlap, hr]
    obtain rfl : q = r := by simpa [regionMinus, hapart] using h
    exact Nat.le_refl _

/-- A stretch left by a cut ends no later than the stretch it was cut from. -/
theorem regionStop_le_of_mem_cutAnys {anys : List AnyRegion} {cut : Region} {r : AnyRegion}
    (h : r ∈ cutAnys anys cut) : ∃ o ∈ anys, regionStop r.region ≤ regionStop o.region := by
  obtain ⟨o, ho, hr⟩ := List.mem_flatMap.mp h
  obtain ⟨q, hq, rfl⟩ := List.mem_map.mp hr
  exact ⟨o, ho, regionStop_le_of_mem_regionMinus hq⟩

/-- A non-empty region whose addresses lie below a bound ends there or before. -/
theorem regionStop_le_of_forall_lt {r : Region} {n : Nat} (hr : 0 < r.len)
    (h : ∀ a, inRegion r a = true → a < n) : regionStop r ≤ n := by
  have hlast := h (r.base + (r.len - 1)) (inRegion_add r.base r.len _ (by omega))
  unfold regionStop
  omega

section
variable {m : Memory} (h : MemoryInSpace m)
include h

theorem MemoryInSpace.stretches_cut (cut : Region) :
    ∀ r ∈ cutAnys m.anys cut, regionStop r.region ≤ Config.spaceSize := by
  intro r hr
  obtain ⟨o, ho, hle⟩ := regionStop_le_of_mem_cutAnys hr
  exact hle.trans (h.2 o ho)

theorem MemoryInSpace.writeByte {a : Nat} (b : Byte) (ha : a < Config.spaceSize) :
    MemoryInSpace (m.writeByte a b) := by
  refine ⟨fun c hc => ?_, h.stretches_cut ⟨a, 1⟩⟩
  rcases mem_setCell _ _ _ _ hc with hold | ⟨rfl, _⟩
  · exact h.1 c hold
  · exact ha

theorem MemoryInSpace.markAny {r : Region} (d : Nat) (hr : ∀ a, inRegion r a = true → a < Config.spaceSize) :
    MemoryInSpace (m.markAny r d) := by
  unfold Memory.markAny
  split
  · exact h
  · refine ⟨fun c hc => h.1 c (List.mem_of_mem_filter hc), fun q hq => ?_⟩
    rcases (mem_insertAny _ _ _).mp hq with rfl | hold
    · exact regionStop_le_of_forall_lt (Nat.pos_of_ne_zero ‹_›) hr
    · exact h.stretches_cut r q hold

end

theorem MemoryInSpace.writeBytes {m : Memory} (h : MemoryInSpace m) {a : Nat} {bs : List Byte}
    (hbs : ∀ x, inRegion ⟨a, bs.length⟩ x = true → x < Config.spaceSize) : MemoryInSpace (m.writeBytes a bs) := by
  induction bs generalizing m a with
  | nil => exact h
  | cons b bs ih =>
    simp only [inRegion_iff, List.length_cons] at hbs ih
    exact ih (h.writeByte b (hbs a (by omega))) fun x hx => hbs x (by omega)

theorem MemoryInSpace.markAnys {m : Memory} (h : MemoryInSpace m) {rs : List Region} (d : Nat)
    (hrs : ∀ x, inRegions rs x = true → x < Config.spaceSize) : MemoryInSpace (m.markAnys rs d) := by
  induction rs generalizing m with
  | nil => exact h
  | cons r rs ih =>
    simp only [inRegions_cons, Bool.or_eq_true] at hrs
    exact ih (h.markAny d fun x hx => hrs x (Or.inl hx)) fun x hx => hrs x (Or.inr hx)

/-! ### Memory as written at some addresses alone -/

/-- The memory `m` itself, or `m` after bytes have been stored, or marked as any value, at addresses of `S` alone. -/
inductive WrittenWithin (S : Nat → Prop) (m : Memory) : Memory → Prop where
  | unchanged : WrittenWithin S m m
  | stored (a : Nat) (bs : List Byte) (h : ∀ x, inRegion ⟨a, bs.length⟩ x = true → S x) :
      WrittenWithin S m (m.writeBytes a bs)
  | marked (rs : List Region) (d : Nat) (h : ∀ x, inRegions rs x = true → S x) : WrittenWithin S m (m.markAnys rs d)

section
variable {S T : Nat → Prop} {m m' : Memory}

theorem WrittenWithin.mono (h : WrittenWithin S m m') (hST : ∀ x, S x → T x) : WrittenWithin T m m' := by
  cases h with
  | unchanged => exact .unchanged
  | stored a bs h => exact .stored a bs fun x hx => hST x (h x hx)
  | marked rs d h => exact .marked rs d fun x hx => hST x (h x hx)

/-- Every address that was not written reads as before. -/
theorem WrittenWithin.read_eq (h : WrittenWithin S m m') (hwf : m.wf = true) {x : Nat} (hx : ¬ S x) :
    m'.read x = m.read x := by
  cases h with
  | unchanged => rfl
  | stored a bs h => rw [Memory.read_writeBytes _ _ _ _ (Memory.rising_of_wf _ hwf), if_neg (mt (h x) hx)]
  | marked rs d h => rw [Memory.read_markAnys, if_neg (mt (h x) hx)]

theorem WrittenWithin.inSpace (h : WrittenWithin (· < Config.spaceSize) m m') (hm : MemoryInSpace m) :
    MemoryInSpace m' := by
  cases h with
  | unchanged => exact hm
  | stored a bs h => exact hm.writeBytes h
  | marked rs d h => exact hm.markAnys d h

end

/-! ### The output of a command fits in its destination (R277) -/

/-- Where the static capacity check passes, `f` makes at most `L.DST_CAP` bytes of a source of the latched length. -/
def FitsCapacity (need : Option Nat) (l : Latched) (f : List Byte → Except FaultRecord CommandResult) : Prop :=
  ∀ src r, src.length = l.srcLen.toNat → f src = .ok r → capacityFault need l = none → r.out.length ≤ l.dstCap.toNat

/-- An output whose length the operands tell fits by the static check. -/
theorem FitsCapacity.of_length {l : Latched} {f : List Byte → Except FaultRecord CommandResult} {n : Nat}
    (h : ∀ src r, src.length = l.srcLen.toNat → f src = .ok r → r.out.length = n) : FitsCapacity (some n) l f := by
  intro src r hsrc hr hcap
  rw [h src r hsrc hr]
  exact (capacityFault_eq_none_iff _ _).mp hcap n rfl

/-- A transform that always answers, and keeps the length, fits by the static check. -/
theorem FitsCapacity.of_map (l : Latched) (g : List Byte → List Byte) (hg : ∀ src, (g src).length = src.length) :
    FitsCapacity (some l.srcLen.toNat) l (fun src => .ok ⟨g src, false⟩) := by
  refine .of_length fun src r hsrc hr => ?_
  cases hr
  exact (hg src).trans hsrc

/-- `fitOutput` is the dynamic check. -/
theorem FitsCapacity.of_fitOutput (need : Option Nat) (l : Latched) (g : List Byte → List Byte) :
    FitsCapacity need l (fun src => fitOutput l (g src)) := by
  intro src r _ hr _
  simp only [fitOutput] at hr
  split at hr <;> cases hr
  exact Nat.le_of_not_lt ‹_›

theorem prependOutput_eq_ok {out : List Byte} {x : Except FaultRecord CommandResult} {r : CommandResult}
    (h : prependOutput out x = .ok r) : ∃ r', x = .ok r' ∧ r.out = out ++ r'.out := by
  cases x with
  | ok r' =>
    cases h
    exact ⟨r', rfl, rfl⟩
  | error f => cases h

/-- A decoder that answers has put out exactly the bytes it was to put out (R168). -/
theorem length_spanDecodeFrom {z : ZMode} {fuel i need : Nat} {rest : List Byte} {r : CommandResult}
    (h : spanDecodeFrom z fuel i rest need = .ok r) : r.out.length = need := by
  fun_induction spanDecodeFrom z fuel i rest need generalizing r with
  | case1 =>
    cases h
    rfl
  | case2 | case3 | case4 | case5 | case7 | case8 => cases h
  | case6 fuel i b t need hlit n hfit hlen =>
    rename_i ih
    obtain ⟨r', hr', hout⟩ := prependOutput_eq_ok h
    rw [hout, List.length_append, List.length_take, ih hr']
    omega
  | case9 fuel i b t need hrun k hk hfit ih =>
    obtain ⟨r', hr', hout⟩ := prependOutput_eq_ok h
    rw [hout, List.length_append, List.length_replicate, ih hr']
    omega

theorem length_spanDecode {z : ZMode} {x : Nat} {src : List Byte} {r : CommandResult}
    (h : spanDecode z x src = .ok r) : r.out.length = x := length_spanDecodeFrom h

/-- `|LB(v)|` is the length of `LB(v)` (R201). -/
@[simp] theorem length_lengthBlock (v : Nat) : (lengthBlock v).length = lengthBlockSize v := by
  unfold lengthBlock lengthBlockSize
  split
  · rfl
  · simp only [List.length_cons, List.length_append, List.length_replicate, List.length_nil]
    omega

/-- A decompressed frame has the length of the frame (R204). -/
theorem length_decompressBytes {l : Latched} {src : List Byte} {r : CommandResult}
    (h : decompressBytes l src = .ok r) : r.out.length = frameBytes l := by
  unfold decompressBytes at h
  split at h
  · cases h
  · rename_i r' hr'
    have hlen := length_spanDecode hr'
    unfold rebuildFrame at h
    dsimp only at h
    split at h <;> cases h
    simp only [length_deltaDecode, List.length_drop, length_unrotateBuffer, hlen, length_lengthBlock, bufferBytes]
    omega

/-- As `exec_eq_finishRun`, and the output of the command's transform fits in its destination. -/
theorem exec_eq_finishRun_fitting {i : Instr} (hi : i ≠ .nop) (l : Latched) :
    ∃ f, FitsCapacity (staticNeed i l) l f ∧ ∀ (s : State) (raced : Bool), s.phase = .busy l raced →
      exec i s = .next (finishRun (geometryFault i l) (staticNeed i l) f l raced s) := by
  cases i with
  | nop => exact absurd rfl hi
  | rot => exact ⟨_, .of_map l _ (length_rotateBuffer l.perm l.tailm), fun s => exec_rot s l⟩
  | unrot => exact ⟨_, .of_map l _ (length_unrotateBuffer l.perm l.tailm), fun s => exec_unrot s l⟩
  | fold => exact ⟨_, .of_map l _ fun _ => List.length_map _, fun s => exec_fold s l⟩
  | unfold => exact ⟨_, .of_map l _ fun _ => List.length_map _, fun s => exec_unfold s l⟩
  | denc => exact ⟨_, .of_map l _ (length_deltaEncode l.dseg l.frameW.toNat), fun s => exec_denc s l⟩
  | ddec => exact ⟨_, .of_map l _ (length_deltaDecode l.dseg l.frameW.toNat), fun s => exec_ddec s l⟩
  | spenc => exact ⟨_, .of_fitOutput none l _, fun s => exec_spenc s l⟩
  | spdec => exact ⟨_, .of_length fun _ _ _ => length_spanDecode, fun s => exec_spdec s l⟩
  | compress => exact ⟨_, .of_fitOutput none l _, fun s => exec_compress s l⟩
  | decompress => exact ⟨_, .of_length fun _ _ _ => length_decompressBytes, fun s => exec_decompress s l⟩

/-! ### What the engine writes (R67) -/

/-- The addresses at which the engine may write in a run. -/
abbrev Latched.writable (l : Latched) (a : Nat) : Prop := inRegions l.footprint a = true

/-- Where the checks pass, all of the destination may be written. -/
theorem writable_of_checkFault_eq_none {p : Platform} {g : Option FaultRecord} {need : Option Nat} {l : Latched}
    (h : checkFault p g need l = none) {a : Nat} (ha : inRegion l.destination a = true) : l.writable a := by
  obtain ⟨_, hrange, hoverlap, hbus, _⟩ := (checkFault_eq_none_iff p g need l).mp h
  exact (inRegions_footprint_of_usable ((regionsUsable_iff p l).mpr ⟨hrange, hoverlap, hbus⟩) a).trans ha

theorem lt_spaceSize_of_writable {l : Latched} (a : Nat) (ha : l.writable a) : a < Config.spaceSize :=
  ((inRegions_footprint l a).mp ha).2.2

theorem finishRaced_writesWithin (l : Latched) (s : State) : WrittenWithin l.writable s.mem (finishRaced l s).mem := by
  rcases finishRaced_cases l s with h | h <;> rw [h] <;> exact .marked l.footprint s.draws fun _ => id

/-- However a run ends, the engine writes nowhere but where it may. -/
theorem finishRun_writesWithin {g : Option FaultRecord} {need : Option Nat}
    {f : List Byte → Except FaultRecord CommandResult} {l : Latched} (hfits : FitsCapacity need l f) (raced : Bool)
    (s : State) : WrittenWithin l.writable s.mem (finishRun g need f l raced s).mem := by
  rcases finishRun_cases g need f l raced s with ⟨c, d, _, h⟩ | ⟨_, _, h⟩ | ⟨hc, _, r, hr, h⟩ | ⟨hc, _, c, _, h⟩ <;>
    rw [h]
  · exact .unchanged
  · exact finishRaced_writesWithin l s
  · obtain ⟨_, _, _, _, hcap⟩ := (checkFault_eq_none_iff _ _ _ _).mp hc
    have hlen := hfits _ r (length_sourceBytes s l) hr hcap
    refine .stored l.dstAddr.toNat r.out fun x hx => writable_of_checkFault_eq_none hc ?_
    rw [inRegion_iff] at hx ⊢
    exact ⟨hx.1, hx.2.trans_le (Nat.add_le_add_left hlen _)⟩
  · refine .marked [l.destination] s.draws fun x hx => writable_of_checkFault_eq_none hc ?_
    rwa [inRegions_cons, inRegions_nil, Bool.or_false] at hx

theorem exec_writesWithin {i : Instr} {s t : State} {l : Latched} {raced : Bool} (hp : s.phase = .busy l raced)
    (h : exec i s = .next t) : WrittenWithin l.writable s.mem t.mem := by
  by_cases hi : i = .nop
  · subst hi
    cases (exec_nop s l raced hp).symm.trans h
    exact .unchanged
  · obtain ⟨f, hfits, hf⟩ := exec_eq_finishRun_fitting hi l
    cases (hf s raced hp).symm.trans h
    exact finishRun_writesWithin hfits raced s

/-- Settles O52: what the engine may write is destination and not source. -/
theorem engineWritesOnlyItsDestination : Obligations.EngineWritesOnlyItsDestination := by
  unfold Obligations.EngineWritesOnlyItsDestination
  intro i s l raced t hp hwf ht
  have hwritten := exec_writesWithin hp ht
  refine ⟨fun a ha => hwritten.read_eq hwf ?outside, fun a ha => hwritten.read_eq hwf ?source, fun hi => ?nop⟩
  case outside => simp [inRegions_footprint, ha]
  case source => simp [inRegions_footprint, ha]
  case nop =>
    subst hi
    cases (exec_nop s l raced hp).symm.trans ht
    rfl

/-! ### What a host access, a reset and a step write (R60) -/

theorem regionInRange_iff (r : Region) :
    regionInRange r = true ↔ ∀ a, inRegion r a = true → a < Config.spaceSize := by
  by_cases hr : r.len = 0
  · have hempty : ∀ a, inRegion r a = false := fun a => by
      rw [inRegion_eq_false_iff]
      omega
    simp [regionInRange, hr, hempty]
  · simp only [regionInRange, beq_eq_false_iff_ne.mpr hr, Bool.false_or, decide_eq_true_eq]
    refine ⟨fun h a ha => ?_, regionStop_le_of_forall_lt (Nat.pos_of_ne_zero hr)⟩
    exact ((inRegion_iff r a).mp ha).2.trans_le h

/-- A region is backed exactly if every address of it is in the DMA space and admitted (R5, R60). -/
theorem backed_iff (p : Platform) (r : Region) :
    backed p r = true ↔ ∀ a, inRegion r a = true → a < Config.spaceSize ∧ memAdmit p a = true := by
  rw [backed, Bool.and_eq_true, regionInRange_iff, Option.isNone_iff_eq_none, lowestRejected_eq_none_iff]
  exact ⟨fun h a ha => ⟨h.1 a ha, h.2 a ha⟩, fun h => ⟨fun a ha => (h a ha).1, fun a ha => (h a ha).2⟩⟩

theorem lt_spaceSize_of_backed {p : Platform} {r : Region} (h : backed p r = true) {a : Nat}
    (ha : inRegion r a = true) : a < Config.spaceSize := ((backed_iff p r).mp h a ha).1

theorem hostAccess_writesInSpace {x : HostAccess} {s t : State} (h : hostAccess x s = .next t) :
    WrittenWithin (· < Config.spaceSize) s.mem t.mem := by
  cases x with
  | regRead w addr =>
    obtain ⟨r, _, rfl⟩ := hostRegRead_eq_next _ _ _ _ h
    exact .unchanged
  | regWrite w addr v =>
    obtain ⟨r, _, rfl⟩ := hostRegWrite_eq_next _ _ _ _ _ h
    rw [(writeReg_mem_dirty r v s).1]
    exact .unchanged
  | memRead addr len =>
    obtain ⟨_, rfl⟩ := onBacked_eq_next _ _ _ _ h
    exact .unchanged
  | memWrite addr bs =>
    obtain ⟨hb, rfl⟩ := onBacked_eq_next _ _ _ _ h
    exact .stored addr bs fun a => lt_spaceSize_of_backed hb
  | cacheClean addr len =>
    obtain ⟨hb, rfl⟩ := onBacked_eq_next _ _ _ _ h
    split
    · exact .unchanged
    · refine .marked _ s.draws fun a ha => lt_spaceSize_of_backed hb (a := a) ?_
      simp only [inRegions_flatMap_regionsCommon, inRegions_regionsCommon_eq, Bool.and_eq_true] at ha
      exact ha.1.1
  | cacheInvalidate addr len =>
    obtain ⟨hb, rfl⟩ := onBacked_eq_next _ _ _ _ h
    split
    · exact .unchanged
    · refine .marked _ s.draws fun a ha => lt_spaceSize_of_backed hb (a := a) ?_
      rw [inRegions_regionsCommon_eq, Bool.and_eq_true] at ha
      exact ha.1

theorem hostStep_writesInSpace {x : Option HostAccess} {s t : State} (h : hostStep x s = .next t) :
    WrittenWithin (· < Config.spaceSize) s.mem t.mem := by
  cases x with
  | none =>
    cases h
    exact .unchanged
  | some x => exact hostAccess_writesInSpace h

theorem runLatched_writesInSpace {s t : State} (h : runLatched exec s = .next t) :
    WrittenWithin (· < Config.spaceSize) s.mem t.mem := by
  cases hp : s.phase with
  | idle =>
    cases (runLatched_idle exec s hp).symm.trans h
    exact .unchanged
  | busy l raced =>
    cases hd : decode l.word with
    | ok i =>
      rw [runLatched_busy exec s l raced i hp hd] at h
      exact (exec_writesWithin hp h).mono lt_spaceSize_of_writable
    | error e =>
      simp only [runLatched, hp, hd] at h
      cases h
      exact .unchanged

theorem lt_spaceSize_of_runFootprint (s : State) (a : Nat) (h : inRegions (runFootprint s) a = true) :
    a < Config.spaceSize := by
  unfold runFootprint at h
  split at h
  · cases h
  · split at h
    · exact lt_spaceSize_of_writable a h
    · cases h

theorem resetBlock_writesInSpace (s : State) : WrittenWithin (· < Config.spaceSize) s.mem (resetBlock s).mem := by
  cases hp : s.phase with
  | idle =>
    rw [resetBlock_mem_of_idle hp]
    exact .unchanged
  | busy l raced =>
    have hmem : (resetBlock s).mem = s.mem.markAnys (runFootprint s) s.draws := by
      simp only [resetBlock, (isBusy_eq_true_iff s).mpr ⟨l, raced, hp⟩, if_true, scramble]
    rw [hmem]
    exact .marked _ _ (lt_spaceSize_of_runFootprint s)

/-- Settles O58: a step is a reset, a host access, an engine step, or the last two in that order, and each of them writes
below 2^32 alone. -/
theorem everyStepKeepsMemoryInSpace : Obligations.EveryStepKeepsMemoryInSpace := by
  unfold Obligations.EveryStepKeepsMemoryInSpace
  intro s t hs hstep
  rcases step_cases s t hstep with ⟨_, hrun⟩ | ⟨x, rest, _, ⟨_, rfl⟩ | ⟨_, u, hu, hengine⟩⟩
  · exact (runLatched_writesInSpace hrun).inSpace hs
  · exact (resetBlock_writesInSpace { s with inputs := rest }).inSpace hs
  · have hu_inSpace := (hostStep_writesInSpace hu).inSpace hs
    rcases hengine with ⟨_, _, hrun⟩ | ⟨_, rfl⟩
    · exact (runLatched_writesInSpace hrun).inSpace hu_inSpace
    · exact hu_inSpace

end Sys2Proof.Machine

/-! PROOFS. Family 20_memory.md: the accesses of a host, to the register window and to memory, and the end of a raced
run. -/

namespace Sys2Proof.Machine

/-! ### Which register accesses have a meaning (R61, R63) -/

/-- An access of width `w` at `addr` names a register: it is 32 bits wide and at an aligned offset of the window. -/
def NamesRegister (p : Platform) (w : AccessWidth) (addr : Nat) : Prop :=
  w = .bits32 ∧ ∃ off, off % 4 = 0 ∧ off ≤ 0x7C ∧ addr = regBase p + off

theorem NamesRegister.windowReg_eq_ok {p : Platform} {w : AccessWidth} {addr : Nat} (h : NamesRegister p w addr) :
    ∃ r, windowReg p w addr = .ok r := by
  obtain ⟨rfl, off, haligned, hinside, rfl⟩ := h
  exact ⟨_, windowReg_offset p haligned (by unfold Config.windowBytes; omega)⟩

theorem namesRegister_of_windowReg_eq_ok {p : Platform} {w : AccessWidth} {addr : Nat} {r : Reg}
    (h : windowReg p w addr = .ok r) : NamesRegister p w addr := by
  unfold windowReg at h
  split at h
  · cases h
  · split at h
    · obtain ⟨hwidth, haligned⟩ := ‹_ ∧ _›
      have hinside : regBase p ≤ addr ∧ addr < regBase p + Config.windowBytes := by omega
      unfold Config.windowBytes at hinside
      exact ⟨hwidth, addr - regBase p, haligned, by omega, by omega⟩
    · cases h

/-- Settles O13: `windowReg` finds a register exactly for the accesses that name one. -/
theorem definedRegisterAccesses : Obligations.DefinedRegisterAccesses := by
  unfold Obligations.DefinedRegisterAccesses
  intro s w addr v
  refine ⟨fun h => ?defined, fun h => ?refused⟩
  case defined =>
    obtain ⟨r, hr⟩ := NamesRegister.windowReg_eq_ok h
    simp only [hostAccess, hostRegRead, hostRegWrite, hr]
    exact ⟨⟨_, rfl⟩, _, rfl⟩
  case refused =>
    cases hw : windowReg s.platform w addr with
    | ok r => exact absurd (namesRegister_of_windowReg_eq_ok hw) h
    | error e =>
      simp only [hostAccess, hostRegRead, hostRegWrite, hw]
      exact ⟨e, windowReg_eq_error hw, rfl, rfl⟩

/-! ### The end of a raced run (R77) -/

theorem checkFaultTaken_of_takeFault (f : FaultRecord) (d : Nat) (s : State) :
    CheckFaultTaken f s { takeFault f s with draws := d } :=
  have hended := RunEnded.of_takeFault f d s
  ⟨⟨rfl, rfl, rfl, rfl, rfl, rfl, rfl, hended.registers, hended.outside⟩, rfl, rfl⟩

theorem racedCause_dataDependent (n : Nat) : (racedCause n).dataDependent = true := by
  unfold racedCause
  split <;> rfl

theorem finishRaced_trail (l : Latched) (s : State) :
    (finishRaced l s).status.trail = Config.raceTrail s.draws := by
  rcases finishRaced_cases l s with h | h <;> rw [h]

theorem finishRaced_mem (l : Latched) (s : State) :
    (finishRaced l s).mem = s.mem.markAnys l.footprint s.draws := by
  rcases finishRaced_cases l s with h | h <;> rw [h] <;> rfl

/-- A RESULT_LEN taken modulo `L.DST_CAP` + 1 is at most `L.DST_CAP`, a 32-bit number. -/
theorem toNat_ofNat_mod_succ_le (n : Nat) (cap : Word) :
    (BitVec.ofNat 32 (n % (cap.toNat + 1))).toNat ≤ cap.toNat := by
  rw [BitVec.toNat_ofNat]
  exact (Nat.mod_le _ _).trans (Nat.le_of_lt_succ (Nat.mod_lt _ (Nat.succ_pos _)))

/-- A raced run that fails a check ends in the check's fault where the free value says so; any other ends as
`finishRaced` says. -/
theorem finishRun_raced_cases (g : Option FaultRecord) (need : Option Nat)
    (f : List Byte → Except FaultRecord CommandResult) (l : Latched) (s : State) :
    (∃ c, checkFault s.platform g need l = some c ∧ Config.raceChecked s.draws = true ∧
      finishRun g need f l true s = { takeFault c s with draws := s.draws + 1 }) ∨
    ((checkFault s.platform g need l = none ∨ Config.raceChecked s.draws = false) ∧
      finishRun g need f l true s = finishRaced l s) := by
  unfold finishRun
  cases checkFault s.platform g need l with
  | none => exact Or.inr ⟨Or.inl rfl, rfl⟩
  | some c =>
    cases hd : Config.raceChecked s.draws with
    | true => exact Or.inl ⟨c, rfl, rfl, by simp [finishChecked, hd]⟩
    | false => exact Or.inr ⟨Or.inr rfl, by simp [finishChecked, hd]⟩

section
variable {l : Latched} {s : State}

theorem finishRaced_of_completes (h : Config.raceCompletes s.draws = true) :
    (finishRaced l s).status.done = true ∧ (finishRaced l s).status.err = s.status.err ∧
    (finishRaced l s).resultLen.toNat ≤ l.dstCap.toNat ∧ (finishRaced l s).faultCause = s.faultCause ∧
    (finishRaced l s).faultInfo = s.faultInfo := by
  rw [show finishRaced l s = _ from if_pos h]
  exact ⟨rfl, rfl, toNat_ofNat_mod_succ_le _ _, rfl, rfl⟩

theorem finishRaced_of_faults (h : ¬ Config.raceCompletes s.draws = true) :
    (finishRaced l s).status.done = false ∧ (finishRaced l s).status.err = true ∧ (finishRaced l s).resultLen = 0 ∧
    (finishRaced l s).faultCause.dataDependent = true ∧
    (finishRaced l s).faultInfo = Config.raceInfo s.draws := by
  rw [show finishRaced l s = _ from if_neg h]
  exact ⟨rfl, rfl, rfl, racedCause_dataDependent _, rfl⟩

end

/-- Settles O42: the run takes its check's fault, or ends by `finishRaced`, which marks the footprint. -/
theorem racedRunEndsFreely : Obligations.RacedRunEndsFreely := by
  unfold Obligations.RacedRunEndsFreely
  intro i s l hi hp
  obtain ⟨f, hf⟩ := exec_eq_finishRun hi l
  have hended := RunEnded.of_finishRun (geometryFault i l) (staticNeed i l) f l true s
  refine ⟨_, hf s true hp, hended.idle, hended.registers, hended.outside, ?_⟩
  rcases finishRun_raced_cases (geometryFault i l) (staticNeed i l) f l s with ⟨c, hc, hd, h⟩ | ⟨hfree, h⟩ <;> rw [h]
  · exact Or.inl ⟨c, hc, hd, checkFaultTaken_of_takeFault c _ s⟩
  · have hread : ∀ a, (finishRaced l s).mem.read a =
        if inRegions l.footprint a then Config.anyByte s.draws a else s.mem.read a := fun a => by
      rw [finishRaced_mem, Memory.read_markAnys]
    refine Or.inr ⟨hfree.imp_left (checksPass_iff i s.platform l).mpr, finishRaced_trail l s, ?report,
      fun a ha => ?outside, fun a ha => ?source, fun a hdest hsource hspace => ?destination⟩
    case report =>
      split
      · exact finishRaced_of_completes ‹_›
      · exact finishRaced_of_faults ‹_›
    case outside => rw [hread, if_neg (by simp [inRegions_footprint, ha])]
    case source => rw [hread, if_neg (by simp [inRegions_footprint, ha])]
    case destination => rw [hread, if_pos ((inRegions_footprint l a).mpr ⟨hdest, hsource, hspace⟩)]

/-! ### What a host reads (R68, R70) -/

section
variable {s : State} {addr len : Nat}

theorem onBacked_of_not_backed {r : Region} (t : State) (h : ¬ backed s.platform r = true) :
    onBacked s r t = .fault .unbackedHostAddress := if_neg h

/-- What a host reads of a region. -/
def State.hostBytes (s : State) (addr len : Nat) : List Byte := (List.range len).map (fun k => hostByte s (addr + k))

theorem hostBytes_getElem? (s : State) (addr : Nat) {len k : Nat} (hk : k < len) :
    (s.hostBytes addr len)[k]? = some (hostByte s (addr + k)) := by
  simp [State.hostBytes, hk]

theorem hostAccess_memRead (h : backed s.platform ⟨addr, len⟩ = true) : hostAccess (.memRead addr len) s =
    .next { s with answer := some (.bytes (s.hostBytes addr len)), draws := s.draws + 1 } :=
  onBacked_of_backed _ h

theorem hostByte_of_destination {l : Latched} {raced : Bool} {a : Nat} (hp : s.phase = .busy l raced)
    (hm : l.usesMemory = true) (ha : inRegion l.destination a = true) : hostByte s a = Config.anyByte s.draws a := by
  simp [hostByte, inRunDestination, hp, hm, ha]

theorem hostByte_of_stale {a : Nat} (hc : s.platform.coherent = false) (ha : inRegions s.stale a = true) :
    hostByte s a = Config.anyByte s.draws a := by
  simp [hostByte, hc, ha]

theorem hostByte_eq_read {a : Nat} (hrun : inRunDestination s a = false)
    (hcopy : s.platform.coherent = true ∨ inRegions s.stale a = false) : hostByte s a = s.mem.read a := by
  rcases hcopy with h | h <;> simp [hostByte, hrun, h]

theorem inRunDestination_of_idle (h : s.phase = .idle) (a : Nat) : inRunDestination s a = false := by
  simp only [inRunDestination, h]

theorem inRunDestination_eq_false {a : Nat} (h : ∀ l raced, s.phase = .busy l raced →
    l.usesMemory = false ∨ inRegion l.destination a = false) : inRunDestination s a = false := by
  cases hp : s.phase with
  | idle => exact inRunDestination_of_idle hp a
  | busy l raced => simpa only [inRunDestination, hp, Bool.and_eq_false_iff] using h l raced hp

/-- While IDLE a host reads memory, as far as its copies are not stale. -/
theorem hostBytes_of_idle (hp : s.phase = .idle) (hcopy : s.platform.coherent = true ∨
    ∀ a, inRegion ⟨addr, len⟩ a = true → inRegions s.stale a = false) :
    s.hostBytes addr len = s.mem.readBytes addr len := by
  refine List.map_congr_left fun k hk => hostByte_eq_read (inRunDestination_of_idle hp _) ?_
  exact hcopy.imp_right fun h => h _ (inRegion_add addr len k (List.mem_range.mp hk))

end

/-- Regions that share no address with `r` have no part in it. -/
theorem regionsCommon_eq_nil {rs : List Region} {r : Region}
    (h : ∀ a, inRegion r a = true → inRegions rs a = false) : regionsCommon rs r = [] := by
  refine List.eq_nil_iff_forall_not_mem.mpr fun q hq => ?_
  have hpos : 0 < q.len := by simpa using (List.mem_filter.mp hq).2
  have hbase : inRegions (regionsCommon rs r) q.base = true :=
    (inRegions_iff _ _).mpr ⟨q, hq, (inRegion_iff _ _).mpr ⟨Nat.le_refl _, by omega⟩⟩
  rw [inRegions_regionsCommon_eq, Bool.and_eq_true] at hbase
  exact absurd hbase.2 (by simp [h _ hbase.1])

/-- An invalidate over no uncleaned host write leaves memory as it is, and no copy of its region stale (R70). -/
theorem cacheInvalidate_over_clean {s : State} {addr len : Nat} (hb : backed s.platform ⟨addr, len⟩ = true)
    (hc : s.platform.coherent = false) (hclean : ∀ a, inRegion ⟨addr, len⟩ a = true → inRegions s.dirty a = false) :
    ∃ t, hostAccess (.cacheInvalidate addr len) s = .next t ∧ t.mem = s.mem ∧ t.platform = s.platform ∧
      (s.phase = .idle → t.phase = .idle) ∧ ∀ a, inRegion ⟨addr, len⟩ a = true → inRegions t.stale a = false := by
  refine ⟨_, hostAccess_cacheInvalidate hb hc, ?_, rfl, phaseAfterWrite_of_idle _, fun a ha => ?_⟩
  · rw [State.touched_mem, regionsCommon_eq_nil hclean]
    rfl
  · simp [ha]

/-- Settles O53: an access of memory that is not backed stops; else `hostByte` says what each byte reads. -/
theorem hostReadsSeeMemory : Obligations.HostReadsSeeMemory := by
  unfold Obligations.HostReadsSeeMemory
  intro s addr len
  refine ⟨fun ⟨a, ha, hbad⟩ => ?unbacked, fun hgood => ?backed⟩
  case unbacked =>
    have hb : ¬ backed s.platform ⟨addr, len⟩ = true := fun hb => by
      obtain ⟨hspace, hadmit⟩ := (backed_iff _ _).mp hb a ha
      rcases hbad with hout | hrejected
      · omega
      · simp [hadmit] at hrejected
    refine ⟨onBacked_of_not_backed _ hb, onBacked_of_not_backed _ hb, onBacked_of_not_backed _ hb, ?_⟩
    rintro bs rfl
    exact onBacked_of_not_backed _ hb
  case backed =>
    have hb : backed s.platform ⟨addr, len⟩ = true := (backed_iff _ _).mpr hgood
    refine ⟨fun hp hc => ?coherent, fun hp hc hclean => ?invalidated, _, hostAccess_memRead hb,
      by simp [State.hostBytes], fun k hk => ?_⟩
    case coherent => rw [hostAccess_memRead hb, hostBytes_of_idle hp (Or.inl hc)]
    case invalidated =>
      obtain ⟨t, ht, hmem, hplatform, hidle, hfresh⟩ := cacheInvalidate_over_clean hb hc hclean
      refine ⟨t, _, ht, hostAccess_memRead (hplatform ▸ hb), ?_, hmem⟩
      rw [hostBytes_of_idle (hidle hp) (Or.inr hfresh), hmem]
    rw [hostBytes_getElem? s addr hk]
    refine ⟨fun l raced hp hm ha => ?_, fun hc hstale => ?_, fun hrun hcopy => ?_⟩
    · rw [hostByte_of_destination hp hm ha]
    · rw [hostByte_of_stale hc hstale]
    · rw [hostByte_eq_read (inRunDestination_eq_false hrun) hcopy]

end Sys2Proof.Machine

/-! PROOFS. Family 30_encoding.md: the fields and the bytes of a command word each determine it, so the decoder and the
encoder of one command are inverse. -/

namespace Sys2Proof

/-! ### The fields of a command word (R80) -/

@[simp] theorem rawCommand_rawWord (r : RawCommand) : rawCommand (rawWord r) = r := by
  rw [rawCommand, rawWord, BitVec.extractLsb'_append_eq_right, BitVec.extractLsb'_append_eq_left]

@[simp] theorem rawWord_rawCommand (w : Word) : rawWord (rawCommand w) = w :=
  BitVec.extractLsb'_append_extractLsb'

theorem reservedBitsClear_iff (r : RawCommand) : r.reservedBitsClear = true ↔ r = ⟨r.op, 0⟩ := by
  cases r
  simp [RawCommand.reservedBitsClear]

/-! ### The opcode map (R81) -/

@[simp] theorem commandOf_opcode (i : Instr) : commandOf (opcode i) = some i := by cases i <;> rfl

/-- Each number of the map is some command's OP, and the command found there is that one. -/
theorem commandOf_eq_some_iff (op : Byte) (i : Instr) : commandOf op = some i ↔ op = opcode i := by
  constructor
  · intro h
    unfold commandOf at h
    split at h <;> cases h
    all_goals exact BitVec.eq_of_toNat_eq ‹_›
  · rintro rfl
    exact commandOf_opcode i

/-! ### Decoding a word (R80 to R82) -/

theorem decode_of_reservedBits {w : Word} (h : (rawCommand w).reservedBitsClear = false) :
    decode w = .error (.reservedBits w) := by
  simp [decode, h]

theorem decode_of_commandOf_eq_none {w : Word} (hclear : (rawCommand w).reservedBitsClear = true)
    (h : commandOf (rawCommand w).op = none) : decode w = .error (.reservedOpcode (rawCommand w).op) := by
  simp [decode, hclear, h]

theorem decode_of_commandOf_eq_some {w : Word} {i : Instr} (hclear : (rawCommand w).reservedBitsClear = true)
    (h : commandOf (rawCommand w).op = some i) : decode w = .ok i := by
  simp [decode, hclear, h]

theorem decode_encode (i : Instr) : decode (encode i) = .ok i :=
  decode_of_commandOf_eq_some (by simp [encode, RawCommand.reservedBitsClear]) (by simp [encode])

/-- A word that decodes to a command has the fields of that command's word. -/
theorem eq_encode_of_decode {w : Word} {i : Instr} (h : decode w = .ok i) : w = encode i := by
  cases hclear : (rawCommand w).reservedBitsClear with
  | false => cases (decode_of_reservedBits hclear).symm.trans h
  | true =>
    cases hop : commandOf (rawCommand w).op with
    | none => cases (decode_of_commandOf_eq_none hclear hop).symm.trans h
    | some j =>
      cases (decode_of_commandOf_eq_some hclear hop).symm.trans h
      calc w = rawWord ⟨(rawCommand w).op, 0⟩ := by rw [← (reservedBitsClear_iff _).mp hclear, rawWord_rawCommand]
        _ = encode i := by rw [(commandOf_eq_some_iff _ i).mp hop, encode]

/-! ### The bytes of a word (R62) -/

/-- The word whose bytes, from the least significant on, are `b0` to `b3`. -/
def joinBytes (b0 b1 b2 b3 : Byte) : Word := b3 ++ b2 ++ b1 ++ b0

/-- A join of bytes passes over its low byte to the bytes above it. -/
theorem extractLsb'_append_byte {n : Nat} (hi : BitVec n) (lo : Byte) (k : Nat) :
    (hi ++ lo).extractLsb' (8 + k) 8 = hi.extractLsb' k 8 := by
  rw [BitVec.extractLsb'_append_eq_of_le (Nat.le_add_right 8 k), Nat.add_sub_cancel_left]

@[simp] theorem wordBytes_joinBytes (b0 b1 b2 b3 : Byte) : wordBytes (joinBytes b0 b1 b2 b3) = [b0, b1, b2, b3] := by
  have hlane0 : byteLane (joinBytes b0 b1 b2 b3) 0 = b0 := BitVec.extractLsb'_append_eq_right
  have hlane1 : byteLane (joinBytes b0 b1 b2 b3) 1 = b1 :=
    (extractLsb'_append_byte _ _ 0).trans BitVec.extractLsb'_append_eq_right
  have hlane2 : byteLane (joinBytes b0 b1 b2 b3) 2 = b2 :=
    (extractLsb'_append_byte _ _ 8).trans
      ((extractLsb'_append_byte _ _ 0).trans BitVec.extractLsb'_append_eq_right)
  have hlane3 : byteLane (joinBytes b0 b1 b2 b3) 3 = b3 :=
    (extractLsb'_append_byte _ _ 16).trans
      ((extractLsb'_append_byte _ _ 8).trans BitVec.extractLsb'_append_eq_left)
  rw [wordBytes, hlane0, hlane1, hlane2, hlane3]

@[simp] theorem joinBytes_byteLane (w : Word) :
    joinBytes (byteLane w 0) (byteLane w 1) (byteLane w 2) (byteLane w 3) = w := by
  have htop : byteLane w 3 ++ byteLane w 2 = w.extractLsb' 16 16 :=
    BitVec.extractLsb'_append_extractLsb'_eq_extractLsb' rfl
  have hupper : w.extractLsb' 16 16 ++ byteLane w 1 = w.extractLsb' 8 24 :=
    BitVec.extractLsb'_append_extractLsb'_eq_extractLsb' rfl
  calc joinBytes (byteLane w 0) (byteLane w 1) (byteLane w 2) (byteLane w 3)
    _ = w.extractLsb' 8 24 ++ byteLane w 0 := by rw [← hupper, ← htop, joinBytes]
    _ = w := BitVec.extractLsb'_append_extractLsb'

/-! ### Decoding bytes -/

theorem decodeBytes_four (b0 b1 b2 b3 : Byte) (rest : List Byte) :
    decodeBytes (b0 :: b1 :: b2 :: b3 :: rest) = (decode (joinBytes b0 b1 b2 b3)).map (·, rest) := by
  rw [decodeBytes, joinBytes]
  cases decode (b3 ++ b2 ++ b1 ++ b0) <;> rfl

theorem decodeBytes_wordBytes_append (w : Word) (rest : List Byte) :
    decodeBytes (wordBytes w ++ rest) = (decode w).map (·, rest) :=
  (decodeBytes_four _ _ _ _ rest).trans (by rw [joinBytes_byteLane])

/-- Bytes that decode are the bytes of some word and those left over. -/
theorem eq_wordBytes_append_of_decodeBytes {bs rest : List Byte} {i : Instr} (h : decodeBytes bs = .ok (i, rest)) :
    ∃ w, bs = wordBytes w ++ rest ∧ decode w = .ok i := by
  match bs with
  | b0 :: b1 :: b2 :: b3 :: tail =>
    rw [decodeBytes_four] at h
    cases hw : decode (joinBytes b0 b1 b2 b3) <;> rw [hw] at h <;> cases h
    exact ⟨_, by rw [wordBytes_joinBytes]; rfl, hw⟩
  | [] | [_] | [_, _] | [_, _, _] => cases h

/-- Settles O2: bytes that decode are a word's, and the word that decodes to `i` is the one `encode i` writes. -/
theorem decodeAndEncodeAgree : Obligations.DecodeAndEncodeAgree := by
  unfold Obligations.DecodeAndEncodeAgree
  intro i bs rest
  constructor
  · intro h
    obtain ⟨w, hbs, hw⟩ := eq_wordBytes_append_of_decodeBytes h
    rw [hbs, eq_encode_of_decode hw]
  · rintro rfl
    rw [decodeBytes_wordBytes_append, decode_encode]
    rfl

/-- Settles O1: each word is what `encode` writes for its command; the last two fail one condition of R82 each. -/
theorem decodeOfSpecWords : Obligations.DecodeOfSpecWords :=
  ⟨decode_encode .nop, decode_encode .rot, decode_encode .unrot, decode_encode .fold, decode_encode .unfold,
    decode_encode .denc, decode_encode .ddec, decode_encode .spenc, decode_encode .spdec, decode_encode .compress,
    decode_encode .decompress, decode_of_commandOf_eq_none rfl rfl, decode_of_reservedBits rfl⟩

end Sys2Proof

/-! PROOFS. Family 40_rotator.md: the bits of a rotated group and tail, a buffer's groups and tail, the inverse of a
permutation, and the settled obligations O25, O46 and O47. -/

namespace Sys2Proof.Machine

/-! ### A byte and a bit of a buffer (R6) -/

theorem byteAt_drop (x : List Byte) (n j : Nat) : byteAt (x.drop n) j = byteAt x (n + j) := by
  simp only [byteAt, List.getD_eq_getElem?_getD, List.getElem?_drop]

theorem byteAt_take {x : List Byte} {n j : Nat} (hj : j < n) : byteAt (x.take n) j = byteAt x j := by
  simp only [byteAt, List.getD_eq_getElem?_getD, List.getElem?_take_of_lt hj]

/-- Bit `k` of byte `j` of a buffer given by packing its bits byte by byte. -/
theorem bitOf_byteAt_packed (f : Nat → Nat → Bool) {n j k : Nat} (hj : j < n) (hk : k < 8) :
    bitOf (byteAt ((List.range n).map (fun i => packByte (f i))) j) k = f j k := by
  have hbyte : byteAt ((List.range n).map (fun i => packByte (f i))) j = packByte (f j) := by
    simp [byteAt, List.getD_eq_getElem?_getD, hj]
  rw [hbyte, bitOf, getLsbD_packByte, decide_eq_true hk, Bool.true_and]

/-- Buffers of one length are equal as soon as all their bits are. -/
theorem eq_of_bits {x y : List Byte} (hlen : x.length = y.length)
    (h : ∀ j k, j < y.length → k < 8 → bitOf (byteAt x j) k = bitOf (byteAt y j) k) : x = y := by
  refine List.ext_getElem hlen fun j hx hy => BitVec.eq_of_getLsbD_eq fun k hk => ?_
  have hbit := h j k hy hk
  rwa [byteAt, byteAt, List.getD_eq_getElem _ _ hx, List.getD_eq_getElem _ _ hy] at hbit

/-! ### The bits of a group and of a tail (R101 to R104) -/

section
variable (perm : BitVec 24) (x : List Byte) {j k : Nat}

theorem bitOf_rotateGroup (hj : j < 8) (hk : k < 8) :
    bitOf (byteAt (rotateGroup perm x) j) k = bitOf (byteAt x (permField perm k)) j :=
  bitOf_byteAt_packed (fun j k => bitOf (byteAt x (permField perm k)) j) hj hk

theorem bitOf_unrotateGroup (hj : j < 8) (hk : k < 8) :
    bitOf (byteAt (unrotateGroup perm x) j) k = bitOf (byteAt x k) (permInverse perm j) :=
  bitOf_byteAt_packed (fun j k => bitOf (byteAt x k) (permInverse perm j)) hj hk

theorem bitOf_rotateTail (hj : j < x.length) (hk : k < 8) : bitOf (byteAt (rotateTail false x) j) k =
    bitOf (byteAt x ((8 * j + k) % x.length)) ((8 * j + k) / x.length) :=
  bitOf_byteAt_packed (fun j k => bitOf (byteAt x ((8 * j + k) % x.length)) ((8 * j + k) / x.length)) hj hk

theorem bitOf_unrotateTail (hj : j < x.length) (hk : k < 8) : bitOf (byteAt (unrotateTail false x) j) k =
    bitOf (byteAt x ((k * x.length + j) / 8)) ((k * x.length + j) % 8) :=
  bitOf_byteAt_packed (fun j k => bitOf (byteAt x ((k * x.length + j) / 8)) ((k * x.length + j) % 8)) hj hk

/-- R103 read from the input: bit `k` of byte `j` of a tail of `m` bytes is bit `k·m + j` of the output's bit
string. -/
theorem bitOf_rotateTail_transposed (hj : j < x.length) (hk : k < 8) :
    bitOf (byteAt (rotateTail false x) ((k * x.length + j) / 8)) ((k * x.length + j) % 8) = bitOf (byteAt x j) k := by
  have hindex : k * x.length + j < 8 * x.length := by
    have hrow : (k + 1) * x.length ≤ 8 * x.length := Nat.mul_le_mul_right _ hk
    rw [Nat.add_mul] at hrow
    omega
  have hbyte : (k * x.length + j) % x.length = j := Nat.mul_add_mod_of_lt hj
  have hbit : (k * x.length + j) / x.length = k := by
    rw [Nat.mul_comm, Nat.mul_add_div (Nat.zero_lt_of_lt hj), Nat.div_eq_of_lt hj, Nat.add_zero]
  rw [bitOf_rotateTail x (Nat.div_lt_of_lt_mul hindex) (Nat.mod_lt _ (by decide)), Nat.div_add_mod, hbyte, hbit]

end

theorem unrotateTail_rotateTail (tm : Bool) (x : List Byte) : unrotateTail tm (rotateTail tm x) = x := by
  cases tm with
  | true => rfl
  | false =>
    refine eq_of_bits (by simp) fun j k hj hk => ?_
    have hlen := length_rotateTail false x
    rw [bitOf_unrotateTail _ (by rwa [hlen]) hk, hlen, bitOf_rotateTail_transposed x hj hk]

theorem rotateTail_unrotateTail (tm : Bool) (y : List Byte) : rotateTail tm (unrotateTail tm y) = y := by
  cases tm with
  | true => rfl
  | false =>
    refine eq_of_bits (by simp) fun j k hj hk => ?_
    have hlen := length_unrotateTail false y
    have hbyte : (8 * j + k) % y.length < y.length := Nat.mod_lt _ (Nat.zero_lt_of_lt hj)
    have hbit : (8 * j + k) / y.length < 8 := Nat.div_lt_of_lt_mul (by omega)
    have hindex : (8 * j + k) / y.length * y.length + (8 * j + k) % y.length = 8 * j + k := Nat.div_add_mod' _ _
    rw [bitOf_rotateTail _ (by rwa [hlen]) hk, hlen, bitOf_unrotateTail y hbyte hbit, hindex,
      show (8 * j + k) / 8 = j by omega, show (8 * j + k) % 8 = k by omega]

/-! ### The inverse permutation (R102) -/

theorem permField_lt (perm : BitVec 24) (p : Nat) : permField perm p < 8 := (perm.extractLsb' (3 * p) 3).isLt

@[simp] theorem length_permFields (perm : BitVec 24) : (permFields perm).length = 8 := by simp [permFields]

theorem getElem_permFields (perm : BitVec 24) {p : Nat} (hp : p < (permFields perm).length) :
    (permFields perm)[p] = permField perm p := by simp [permFields]

section
variable {perm : BitVec 24} (h : isPermutation perm = true)
include h

theorem nodup_permFields : (permFields perm).Nodup := of_decide_eq_true h

/-- Eight distinct fields below 8 are all the numbers below 8. -/
theorem mem_permFields {j : Nat} (hj : j < 8) : j ∈ permFields perm := by
  have hsub : permFields perm ⊆ List.range 8 := by
    intro v hv
    obtain ⟨p, _, rfl⟩ := List.mem_map.mp hv
    exact List.mem_range.mpr (permField_lt perm p)
  have hperm : (permFields perm).Perm (List.range 8) :=
    ((nodup_permFields h).subperm hsub).perm_of_length_le (by simp)
  exact hperm.mem_iff.mpr (List.mem_range.mpr hj)

theorem permInverse_lt {j : Nat} (hj : j < 8) : permInverse perm j < 8 :=
  (List.idxOf_lt_length_of_mem (mem_permFields h hj)).trans_eq (length_permFields perm)

theorem permField_permInverse {j : Nat} (hj : j < 8) : permField perm (permInverse perm j) = j := by
  have hindex := List.idxOf_lt_length_of_mem (mem_permFields h hj)
  exact (getElem_permFields perm hindex).symm.trans (List.getElem_idxOf hindex)

theorem permInverse_permField {p : Nat} (hp : p < 8) : permInverse perm (permField perm p) = p := by
  have hp' : p < (permFields perm).length := by simpa using hp
  rw [← getElem_permFields perm hp']
  exact (nodup_permFields h).idxOf_getElem p hp'

theorem unrotateGroup_rotateGroup {x : List Byte} (hx : x.length = 8) :
    unrotateGroup perm (rotateGroup perm x) = x := by
  refine eq_of_bits (by simp [hx]) fun j k hj hk => ?_
  rw [hx] at hj
  rw [bitOf_unrotateGroup _ _ hj hk, bitOf_rotateGroup _ _ hk (permInverse_lt h hj), permField_permInverse h hj]

theorem rotateGroup_unrotateGroup {y : List Byte} (hy : y.length = 8) :
    rotateGroup perm (unrotateGroup perm y) = y := by
  refine eq_of_bits (by simp [hy]) fun j k hj hk => ?_
  rw [hy] at hj
  rw [bitOf_rotateGroup _ _ hj hk, bitOf_unrotateGroup _ _ (permField_lt perm k) hj, permInverse_permField h hk]

end

/-! ### A buffer's groups and its tail (R100, R105) -/

section
variable {group tail : List Byte → List Byte} (hgroup : ∀ x, (group x).length = 8)
include hgroup

theorem drop_mapGroups_succ (n m : Nat) (s : List Byte) : (mapGroups group tail (n + 1) s).drop (8 * (m + 1)) =
    (mapGroups group tail n (s.drop Config.groupBytes)).drop (8 * m) := by
  have hstart : 8 * (m + 1) = (group (s.take Config.groupBytes)).length + 8 * m := by
    rw [hgroup]
    omega
  rw [mapGroups, hstart, List.drop_length_add_append]

/-- Group `g` of the output is the transform of group `g` of the input. -/
theorem take_drop_mapGroups {n g : Nat} (hg : g < n) (s : List Byte) :
    ((mapGroups group tail n s).drop (8 * g)).take 8 = group ((s.drop (8 * g)).take 8) := by
  induction n generalizing g s with
  | zero => exact absurd hg (Nat.not_lt_zero g)
  | succ n ih =>
    cases g with
    | zero => exact List.take_left' (hgroup _)
    | succ g =>
      rw [drop_mapGroups_succ hgroup, ih (Nat.lt_of_succ_lt_succ hg), List.drop_drop, Config.groupBytes,
        Nat.mul_succ, Nat.add_comm]

/-- What follows the groups of the output is the transform of the tail. -/
theorem drop_mapGroups (n : Nat) (s : List Byte) :
    (mapGroups group tail n s).drop (8 * n) = tail (s.drop (8 * n)) := by
  induction n generalizing s with
  | zero => rfl
  | succ n ih =>
    rw [drop_mapGroups_succ hgroup, ih, List.drop_drop, Config.groupBytes, Nat.mul_succ, Nat.add_comm]

/-- Transforms that undo each other on a group and on a tail undo each other on a buffer. -/
theorem mapGroups_mapGroups {group' tail' : List Byte → List Byte}
    (hundo : ∀ x, x.length = 8 → group' (group x) = x) (hundoTail : ∀ x, tail' (tail x) = x)
    {n : Nat} {s : List Byte} (hn : 8 * n ≤ s.length) : mapGroups group' tail' n (mapGroups group tail n s) = s := by
  induction n generalizing s with
  | zero => exact hundoTail s
  | succ n ih =>
    have hfirst : (s.take Config.groupBytes).length = 8 := by
      rw [List.length_take, Config.groupBytes]
      omega
    have hrest : 8 * n ≤ (s.drop Config.groupBytes).length := by
      rw [List.length_drop, Config.groupBytes]
      omega
    rw [mapGroups, mapGroups, List.take_left' (hgroup _), List.drop_left' (hgroup _), hundo _ hfirst, ih hrest,
      List.take_append_drop]

end

/-! ### Rotation of a buffer, bit by bit (R101, R103, R105) -/

section
variable (perm : BitVec 24) (tm : Bool) (bs : List Byte)

theorem bitOf_rotateBuffer_group {g k p : Nat} (hg : g < bs.length / 8) (hk : k < 8) (hp : p < 8) :
    bitOf (byteAt (rotateBuffer perm tm bs) (8 * g + k)) p = bitOf (byteAt bs (8 * g + permField perm p)) k := by
  rw [← byteAt_drop, ← byteAt_take hk, rotateBuffer, take_drop_mapGroups (length_rotateGroup perm) hg,
    bitOf_rotateGroup _ _ hk hp, byteAt_take (permField_lt perm p), byteAt_drop]

theorem drop_rotateBuffer : (rotateBuffer perm tm bs).drop (8 * (bs.length / 8)) =
    rotateTail tm (bs.drop (8 * (bs.length / 8))) :=
  drop_mapGroups (length_rotateGroup perm) _ bs

theorem length_drop_groups : (bs.drop (8 * (bs.length / 8))).length = bs.length % 8 := by
  rw [List.length_drop]
  omega

theorem bitOf_rotateBuffer_tail {j k : Nat} (hj : j < bs.length % 8) (hk : k < 8) :
    bitOf (byteAt (rotateBuffer perm false bs) (8 * (bs.length / 8) + (k * (bs.length % 8) + j) / 8))
        ((k * (bs.length % 8) + j) % 8) =
      bitOf (byteAt bs (8 * (bs.length / 8) + j)) k := by
  have hlen := length_drop_groups bs
  rw [← byteAt_drop, ← byteAt_drop, drop_rotateBuffer, ← hlen]
  exact bitOf_rotateTail_transposed _ (by rwa [hlen]) hk

end

/-- Settles O46: each part reads the group or the tail out of the rotated buffer. -/
theorem rotationBits : Obligations.RotationBits := by
  unfold Obligations.RotationBits
  refine ⟨fun perm tm bs => ⟨length_rotateBuffer perm tm bs, ?groups, ?transposed, ?copied⟩, by decide⟩
  case groups => exact fun g k p hg hk hp => bitOf_rotateBuffer_group perm tm bs hg hk hp
  case transposed =>
    rintro rfl j k hj hk
    exact bitOf_rotateBuffer_tail perm bs hj hk
  case copied =>
    rintro rfl j _
    rw [← List.getElem?_drop, drop_rotateBuffer, ← List.getElem?_drop]
    rfl

/-! ### Round trip (R102, R104, R105) -/

/-- Settles O47: group by group, and on the tail. -/
theorem rotatorRoundTrip : Obligations.RotatorRoundTrip := by
  unfold Obligations.RotatorRoundTrip
  intro perm tm bs h
  have hgroups : 8 * (bs.length / 8) ≤ bs.length := Nat.mul_div_le _ _
  refine ⟨?unrotateRotate, ?rotateUnrotate, length_rotateBuffer perm tm bs, length_unrotateBuffer perm tm bs⟩
  case unrotateRotate =>
    rw [unrotateBuffer, length_rotateBuffer]
    exact mapGroups_mapGroups (length_rotateGroup perm) (fun _ => unrotateGroup_rotateGroup h)
      (unrotateTail_rotateTail tm) hgroups
  case rotateUnrotate =>
    rw [rotateBuffer, length_unrotateBuffer]
    exact mapGroups_mapGroups (length_unrotateGroup perm) (fun _ => rotateGroup_unrotateGroup h)
      (rotateTail_unrotateTail tm) hgroups

/-! ### Completion of a command that keeps the length (R107, R108, R242) -/

/-- A command whose checks pass, and whose transform `g` always answers and keeps the length, completes with `g` of its
source bytes. -/
theorem exec_completed_of_map {i : Instr} {s : State} {l : Latched} (g : List Byte → List Byte)
    (hexec : exec i s =
      .next (finishRun (geometryFault i l) (staticNeed i l) (fun src => .ok ⟨g src, false⟩) l false s))
    (hg : ∀ src, (g src).length = src.length) (hwf : s.mem.wf = true) (hpass : ChecksPass i s.platform l) :
    ∃ t, exec i s = .next t ∧ Completed l (g (s.sourceBytes l)) false s t ∧ t.resultLen = l.srcLen := by
  have hlen : (g (s.sourceBytes l)).length = l.srcLen.toNat := (hg _).trans (length_sourceBytes s l)
  have hcompleted := completed_complete l (g (s.sourceBytes l)) false s hwf (hlen ▸ l.srcLen.isLt)
  rw [finishRun_ok (r := ⟨g (s.sourceBytes l), false⟩) ((checksPass_iff i s.platform l).mp hpass) rfl] at hexec
  exact ⟨_, hexec, hcompleted, BitVec.eq_of_toNat_eq (hcompleted.published.resultLen.trans hlen)⟩

/-- Settles O25: both rotations keep the length, and the capacity check asks for the source's length. -/
theorem rotAndUnrotComplete : Obligations.RotAndUnrotComplete := by
  unfold Obligations.RotAndUnrotComplete
  intro s l hp hwf hregions hcap
  have hcapacity : ∀ n, some l.srcLen.toNat = some n → n ≤ l.dstCap.toNat :=
    fun n hn => Option.some.inj hn ▸ hcap
  exact ⟨exec_completed_of_map _ (exec_rot s l false hp) (length_rotateBuffer l.perm l.tailm) hwf
      ⟨rfl, hregions, hcapacity⟩,
    exec_completed_of_map _ (exec_unrot s l false hp) (length_unrotateBuffer l.perm l.tailm) hwf
      ⟨rfl, hregions, hcapacity⟩⟩

end Sys2Proof.Machine

/-! PROOFS. Family 41_delta_sign.md: the sign-fold tables, the bytes of the delta encoder and decoder and their round
trip, and the completion of the four commands: the settled obligations O26, O27, O43, O44 and O45. -/

namespace Sys2Proof.Machine

/-! ### The sign-fold tables (R130 to R132) -/

theorem toNat_foldByte_of_nonneg {x : Byte} (h : x.toNat < 128) : (foldByte x).toNat = 2 * x.toNat := by
  have hbit : x.getLsbD 7 = false := Nat.testBit_lt_two_pow (show x.toNat < 2 ^ 7 from h)
  rw [foldByte, hbit, if_neg Bool.false_ne_true, BitVec.toNat_shiftLeft, Nat.shiftLeft_eq]
  omega

/-- FOLD of a negative byte, at each of the 128: twice its one's complement, plus 1. -/
theorem toNat_foldByte_of_neg : ∀ x : Byte, 128 ≤ x.toNat → (foldByte x).toNat = 2 * (255 - x.toNat) + 1 := by decide

theorem foldByte_zigzag (x : Byte) :
    ((foldByte x).toNat : Int) = if 0 ≤ x.toInt then 2 * x.toInt else -2 * x.toInt - 1 := by
  have hx : x.toNat < 256 := x.isLt
  by_cases h : x.toNat < 128
  · have hsigned : x.toInt = x.toNat := by rw [BitVec.toInt_eq_toNat_cond, if_pos (by omega)]
    rw [toNat_foldByte_of_nonneg h, hsigned, if_pos (by omega)]
    omega
  · have hsigned : x.toInt = (x.toNat : Int) - 256 := by
      rw [BitVec.toInt_eq_toNat_cond, if_neg (by omega)]
      rfl
    rw [toNat_foldByte_of_neg x (by omega), hsigned, if_neg (by omega)]
    omega

/-- FOLD has a left inverse, so on the finite type of bytes it is onto, and that inverse is two-sided. -/
theorem foldByte_unfoldByte (x : Byte) : foldByte (unfoldByte x) = x := by
  have hinj : Function.Injective foldByte := Function.LeftInverse.injective unfoldByte_foldByte
  obtain ⟨y, rfl⟩ := Finite.surjective_of_injective hinj x
  rw [unfoldByte_foldByte]

/-- Settles O43: FOLD by the sign of its byte, UNFOLD as its inverse; R132's closed form is how UNFOLD is defined. -/
theorem foldTables : Obligations.FoldTables := by
  unfold Obligations.FoldTables
  exact fun x => ⟨foldByte_zigzag x, unfoldByte_foldByte x, foldByte_unfoldByte x, rfl⟩

/-! ### The bytes of DeltaEncode and DeltaDecode (R133, R134) -/

section
variable (dseg : Bool) (w : Nat)

/-- The byte before index `k` of the buffer `bs` stands at index `k` of `prev :: bs`. -/
theorem getElem?_deltaEncodeFrom (i : Nat) (prev : Byte) (bs : List Byte) {k : Nat} (hk : k < bs.length) :
    (deltaEncodeFrom dseg w i prev bs)[k]? =
      some (foldByte (bs[k] - chainPrev dseg w (i + k) ((prev :: bs).getD k 0))) := by
  induction bs generalizing i prev k with
  | nil => exact absurd hk (Nat.not_lt_zero k)
  | cons b t ih =>
    cases k with
    | zero => rfl
    | succ k =>
      have htail := ih (i + 1) b (Nat.lt_of_succ_lt_succ hk)
      rw [show i + 1 + k = i + (k + 1) by omega] at htail
      exact htail

/-- As for the encoder, but the byte before is one of the output. -/
theorem getElem?_deltaDecodeFrom (i : Nat) (prev : Byte) (es : List Byte) {k : Nat} (hk : k < es.length) :
    (deltaDecodeFrom dseg w i prev es)[k]? = some
      (chainPrev dseg w (i + k) ((prev :: deltaDecodeFrom dseg w i prev es).getD k 0) + unfoldByte es[k]) := by
  induction es generalizing i prev k with
  | nil => exact absurd hk (Nat.not_lt_zero k)
  | cons e t ih =>
    cases k with
    | zero => rfl
    | succ k =>
      have htail := ih (i + 1) (chainPrev dseg w i prev + unfoldByte e) (Nat.lt_of_succ_lt_succ hk)
      rw [show i + 1 + k = i + (k + 1) by omega] at htail
      exact htail

/-- The predecessor of byte `k` of a buffer, where the loops start with the predecessor 0. -/
theorem chainPrev_zero_cons (bs : List Byte) (k : Nat) : chainPrev dseg w k (((0 : Byte) :: bs).getD k 0) =
    if k = 0 ∨ (dseg = false ∧ k % w = 0) then 0 else bs.getD (k - 1) 0 := by
  cases k with
  | zero => simp [chainPrev]
  | succ k => simp [chainPrev]

end

/-- Settles O44, from the loop at index 0. -/
theorem deltaEncodeBytes : Obligations.DeltaEncodeBytes := by
  unfold Obligations.DeltaEncodeBytes
  refine fun dseg w bs => ⟨length_deltaEncode dseg w bs, fun i h => ?_⟩
  rw [deltaEncode, getElem?_deltaEncodeFrom dseg w 0 0 bs h, Nat.zero_add, chainPrev_zero_cons]

/-! ### Round trip (R134) -/

section
variable (dseg : Bool) (w : Nat)

theorem deltaDecodeFrom_deltaEncodeFrom (i : Nat) (prev : Byte) (bs : List Byte) :
    deltaDecodeFrom dseg w i prev (deltaEncodeFrom dseg w i prev bs) = bs := by
  induction bs generalizing i prev with
  | nil => rfl
  | cons b t ih =>
    have hhead : chainPrev dseg w i prev + unfoldByte (foldByte (b - chainPrev dseg w i prev)) = b := by
      rw [unfoldByte_foldByte, add_sub_cancel]
    simp only [deltaEncodeFrom, deltaDecodeFrom, hhead, ih]

theorem deltaEncodeFrom_deltaDecodeFrom (i : Nat) (prev : Byte) (es : List Byte) :
    deltaEncodeFrom dseg w i prev (deltaDecodeFrom dseg w i prev es) = es := by
  induction es generalizing i prev with
  | nil => rfl
  | cons e t ih => simp only [deltaDecodeFrom, deltaEncodeFrom, add_sub_cancel_left, foldByte_unfoldByte, ih]

end

/-- Settles O45: the recurrence from the loop at index 0, and both round trips of the loops. -/
theorem deltaDecodeBytes : Obligations.DeltaDecodeBytes := by
  unfold Obligations.DeltaDecodeBytes
  refine fun dseg w es => ⟨length_deltaDecode dseg w es, fun i h => ?recurrence,
    deltaDecodeFrom_deltaEncodeFrom dseg w 0 0 es, deltaEncodeFrom_deltaDecodeFrom dseg w 0 0 es⟩
  case recurrence =>
    rw [deltaDecode, getElem?_deltaDecodeFrom dseg w 0 0 es h, Nat.zero_add, chainPrev_zero_cons]

/-! ### Completion (R135 to R138, R242) -/

theorem rowFault_eq_none_iff (l : Latched) : rowFault l = none ↔ RowsUsable l := by
  unfold rowFault RowsUsable
  cases l.dseg <;> simp [Nat.pos_iff_ne_zero]

/-- The checks of a command whose capacity check asks for the source's length. -/
theorem ChecksPass.of_srcLen {i : Instr} {p : Platform} {l : Latched} (hgeometry : geometryFault i l = none)
    (hneed : staticNeed i l = some l.srcLen.toNat) (hregions : RegionsUsable p l)
    (hcap : l.srcLen.toNat ≤ l.dstCap.toNat) : ChecksPass i p l :=
  ⟨hgeometry, hregions, fun _ hn => Option.some.inj (hneed.symm.trans hn) ▸ hcap⟩

/-- Settles O26: a table applied to each byte keeps the length. -/
theorem foldAndUnfoldComplete : Obligations.FoldAndUnfoldComplete := by
  unfold Obligations.FoldAndUnfoldComplete
  intro s l hp hwf hregions hcap
  exact ⟨exec_completed_of_map _ (exec_fold s l false hp) (fun _ => List.length_map _) hwf
      (.of_srcLen rfl rfl hregions hcap),
    exec_completed_of_map _ (exec_unfold s l false hp) (fun _ => List.length_map _) hwf
      (.of_srcLen rfl rfl hregions hcap)⟩

/-- Settles O27: both delta transforms keep the length, and the geometry check asks for usable rows. -/
theorem dencAndDdecComplete : Obligations.DencAndDdecComplete := by
  unfold Obligations.DencAndDdecComplete
  intro s l hp hwf hregions hrows hcap
  have hgeometry : rowFault l = none := (rowFault_eq_none_iff l).mpr hrows
  exact ⟨exec_completed_of_map _ (exec_denc s l false hp) (length_deltaEncode l.dseg l.frameW.toNat) hwf
      (.of_srcLen hgeometry rfl hregions hcap),
    exec_completed_of_map _ (exec_ddec s l false hp) (length_deltaDecode l.dseg l.frameW.toNat) hwf
      (.of_srcLen hgeometry rfl hregions hcap)⟩

end Sys2Proof.Machine

/-! PROOFS. Family 42_span.md: the bytes of a token, the decoder on a token sequence, the tokens the encoder chooses, and
the ends of SPENC, SPDEC and DECOMPRESS: the settled obligations O28, O29, O38, O41, O48 and O49. -/

namespace Sys2Proof.Machine

/-! ### The bytes of a token (R161 to R165) -/

theorem toNat_byteOf {n : Nat} (h : n < 256) : (byteOf n).toNat = n :=
  (BitVec.toNat_ofNat n 8).trans (Nat.mod_eq_of_lt h)

theorem getLsbD_seven (b : Byte) : b.getLsbD 7 = decide (128 ≤ b.toNat) :=
  (BitVec.msb_eq_getLsbD_last b).symm.trans (BitVec.msb_eq_decide b)

theorem getLsbD_seven_of_lt {b : Byte} (h : b.toNat < 128) : b.getLsbD 7 = false := by
  rw [getLsbD_seven]
  exact decide_eq_false (Nat.not_le.mpr h)

theorem ne_of_toNat_lt {b c : Byte} (h : b.toNat < c.toNat) : b ≠ c :=
  fun hbc => (Nat.ne_of_lt h) (congrArg BitVec.toNat hbc)

/-- The header of a literal (R161). -/
theorem literalHeader_bits {n : Nat} (hpos : 1 ≤ n) (hmax : n ≤ 128) : (byteOf (0x80 + (n - 1))).getLsbD 7 = true ∧
    ((byteOf (0x80 + (n - 1))).extractLsb' 0 7).toNat + 1 = n := by
  have hval : (byteOf (0x80 + (n - 1))).toNat = 0x80 + (n - 1) := toNat_byteOf (by omega)
  refine ⟨?_, ?_⟩
  · rw [getLsbD_seven, hval]
    exact decide_eq_true (Nat.le_add_right _ _)
  · rw [BitVec.extractLsb'_toNat, hval, Nat.shiftRight_zero]
    omega

theorem zeroRunCode_chain (n : Nat) : ∃ (q : Nat) (b : Byte),
    zeroRunCode .chain n = List.replicate q 0x7F ++ [b] ∧ b.toNat ≤ 0x7E ∧ 0x7F * q + b.toNat = n - 1 ∧
      (zeroRunCode .chain n).length = 1 + (n - 1) / 127 := by
  have hlast : (byteOf ((n - 1) % 127)).toNat = (n - 1) % 127 := toNat_byteOf (by omega)
  refine ⟨(n - 1) / 127, byteOf ((n - 1) % 127), rfl, by omega, by omega, ?_⟩
  simp [zeroRunCode, Nat.add_comm]

theorem zeroRunCode_cont {n : Nat} (hn : 1 ≤ n) : ∃ (q : Nat) (b : Byte),
    ((zeroRunCode .cont n = [b] ∧ b.toNat < 0x7F ∧ b.toNat = n - 1) ∨
      (zeroRunCode .cont n = 0x7F :: (List.replicate q 0xFF ++ [b]) ∧ b ≠ 0xFF ∧ 0x7F + 0xFF * q + b.toNat = n - 1)) ∧
    (zeroRunCode .cont n).length = if n ≤ 127 then 1 else 2 + (n - 128) / 255 := by
  by_cases hshort : n ≤ 127
  · have hcode : zeroRunCode .cont n = [byteOf (n - 1)] := if_pos (show n - 1 < 127 by omega)
    have hb : (byteOf (n - 1)).toNat = n - 1 := toNat_byteOf (by omega)
    exact ⟨0, byteOf (n - 1), Or.inl ⟨hcode, by omega, hb⟩, by rw [hcode, if_pos hshort]; rfl⟩
  · have hcode : zeroRunCode .cont n =
        0x7F :: (List.replicate ((n - 1 - 127) / 255) 0xFF ++ [byteOf ((n - 1 - 127) % 255)]) :=
      if_neg (show ¬ n - 1 < 127 by omega)
    have hlast : (byteOf ((n - 1 - 127) % 255)).toNat = (n - 1 - 127) % 255 := toNat_byteOf (by omega)
    refine ⟨_, _, Or.inr ⟨hcode, ?_, by omega⟩, ?_⟩
    · intro h
      have h255 : (byteOf ((n - 1 - 127) % 255)).toNat = 255 := congrArg BitVec.toNat h
      omega
    · rw [hcode, if_neg hshort]
      simp only [List.length_cons, List.length_append, List.length_replicate, List.length_nil]
      omega

theorem zeroRunCode_split_of_mod_eq_zero {n : Nat} (h : n % 128 = 0) :
    zeroRunCode .split n = List.replicate (n / 128) 0x7F := by
  simp [zeroRunCode, h]

theorem zeroRunCode_split_of_mod_ne_zero {n : Nat} (h : n % 128 ≠ 0) : ∃ b : Byte,
    zeroRunCode .split n = List.replicate (n / 128) 0x7F ++ [b] ∧ b.toNat + 1 = n % 128 := by
  have hlast : (byteOf (n % 128 - 1)).toNat = n % 128 - 1 := toNat_byteOf (by omega)
  exact ⟨byteOf (n % 128 - 1), by simp [zeroRunCode, h], by omega⟩

theorem length_zeroRunCode_split (n : Nat) : (zeroRunCode .split n).length = (n + 127) / 128 := by
  by_cases h : n % 128 = 0
  · rw [zeroRunCode_split_of_mod_eq_zero h, List.length_replicate]
    omega
  · obtain ⟨b, hcode, _⟩ := zeroRunCode_split_of_mod_ne_zero h
    rw [hcode, List.length_append, List.length_replicate, List.length_singleton]
    omega

/-- A run of up to 128 zeros is one SPLIT header (R164). -/
theorem zeroRunCode_split_single {n : Nat} (hn : 1 ≤ n) (hmax : n ≤ 128) : ∃ b : Byte,
    zeroRunCode .split n = [b] ∧ b.toNat + 1 = n := by
  by_cases h : n % 128 = 0
  · obtain rfl : n = 128 := by omega
    exact ⟨0x7F, rfl, rfl⟩
  · obtain ⟨b, hcode, hb⟩ := zeroRunCode_split_of_mod_ne_zero h
    rw [Nat.div_eq_of_lt (by omega)] at hcode
    exact ⟨b, hcode, by omega⟩

theorem length_zeroRunCode_le (z : ZMode) {n : Nat} (hn : 1 ≤ n) : (zeroRunCode z n).length ≤ n := by
  cases z with
  | chain =>
    obtain ⟨_, _, _, _, _, hlen⟩ := zeroRunCode_chain n
    omega
  | cont =>
    obtain ⟨_, _, _, hlen⟩ := zeroRunCode_cont hn
    split at hlen <;> omega
  | split =>
    have hlen := length_zeroRunCode_split n
    omega

/-! ### Reading one zero run (R162 to R164, R168) -/

theorem chainRest_replicate (ho i v q : Nat) (t : List Byte) :
    chainRest ho i v (List.replicate q 0x7F ++ t) = chainRest ho (i + q) (v + 127 * q) t := by
  induction q generalizing i v with
  | zero => rfl
  | succ q ih =>
    rw [List.replicate_succ, List.cons_append]
    show chainRest ho (i + 1) (v + 127) (List.replicate q 0x7F ++ t) = _
    rw [ih, show i + 1 + q = i + (q + 1) by omega, show v + 127 + 127 * q = v + 127 * (q + 1) by omega]

theorem contRest_replicate (ho i v q : Nat) (t : List Byte) :
    contRest ho i v (List.replicate q 0xFF ++ t) = contRest ho (i + q) (v + 255 * q) t := by
  induction q generalizing i v with
  | zero => rfl
  | succ q ih =>
    rw [List.replicate_succ, List.cons_append]
    show contRest ho (i + 1) (v + 255) (List.replicate q 0xFF ++ t) = _
    rw [ih, show i + 1 + q = i + (q + 1) by omega, show v + 255 + 255 * q = v + 255 * (q + 1) by omega]

theorem chainRest_last (ho i v : Nat) {b : Byte} (hb : b.toNat ≤ 0x7E) (t : List Byte) :
    chainRest ho i v (b :: t) = .ok ⟨v + b.toNat, i + 1, t⟩ := by
  have hne : b ≠ 0x7F := ne_of_toNat_lt (Nat.lt_succ_of_le hb)
  rw [chainRest, if_neg (Bool.eq_false_iff.mp (getLsbD_seven_of_lt (by omega))), if_neg hne]

theorem contRest_last (ho i v : Nat) {b : Byte} (hb : b ≠ 0xFF) (t : List Byte) :
    contRest ho i v (b :: t) = .ok ⟨v + b.toNat, i + 1, t⟩ := if_neg hb

/-- At offset `i` the bytes begin with the header of a zero run, and reading the token gives `result`. -/
def ReadsRun (z : ZMode) (i : Nat) (bs : List Byte) (result : Except FaultRecord RunToken) : Prop :=
  ∃ h t, bs = h :: t ∧ h.getLsbD 7 = false ∧ runToken z i h t = result

theorem readsRun_chain (i q : Nat) {b : Byte} (hb : b.toNat ≤ 0x7E) (rest : List Byte) :
    ReadsRun .chain i (List.replicate q 0x7F ++ b :: rest) (.ok ⟨127 * q + b.toNat, i + (q + 1), rest⟩) := by
  cases q with
  | zero =>
    refine ⟨b, rest, rfl, getLsbD_seven_of_lt (by omega), (if_neg (ne_of_toNat_lt (Nat.lt_succ_of_le hb))).trans ?_⟩
    rw [Nat.mul_zero, Nat.zero_add, Nat.zero_add]
  | succ q =>
    refine ⟨0x7F, List.replicate q 0x7F ++ b :: rest, rfl, rfl, ?_⟩
    show chainRest i (i + 1) 127 _ = _
    rw [chainRest_replicate, chainRest_last _ _ _ hb, show 127 + 127 * q = 127 * (q + 1) by omega,
      show i + 1 + q + 1 = i + (q + 1 + 1) by omega]

theorem readsRun_chain_cut (i : Nat) {q : Nat} (hq : 0 < q) :
    ReadsRun .chain i (List.replicate q 0x7F) (.error ⟨.srcTruncated, infoWord i⟩) := by
  obtain ⟨q, rfl⟩ := Nat.exists_eq_add_one.mpr hq
  refine ⟨0x7F, List.replicate q 0x7F, rfl, rfl, ?_⟩
  have hread := chainRest_replicate i (i + 1) 127 q []
  rw [List.append_nil] at hread
  exact hread

theorem readsRun_cont_short (i : Nat) {b : Byte} (hb : b.toNat < 0x7F) (rest : List Byte) :
    ReadsRun .cont i (b :: rest) (.ok ⟨b.toNat, i + 1, rest⟩) :=
  ⟨b, rest, rfl, getLsbD_seven_of_lt (by omega), if_neg (ne_of_toNat_lt hb)⟩

theorem readsRun_cont_long (i q : Nat) {b : Byte} (hb : b ≠ 0xFF) (rest : List Byte) :
    ReadsRun .cont i (0x7F :: (List.replicate q 0xFF ++ b :: rest))
      (.ok ⟨127 + 255 * q + b.toNat, i + (q + 2), rest⟩) := by
  refine ⟨0x7F, _, rfl, rfl, ?_⟩
  show contRest i (i + 1) 127 _ = _
  rw [contRest_replicate, contRest_last _ _ _ hb, show i + 1 + q + 1 = i + (q + 2) by omega]

theorem readsRun_cont_cut (i q : Nat) :
    ReadsRun .cont i (0x7F :: List.replicate q 0xFF) (.error ⟨.srcTruncated, infoWord i⟩) := by
  refine ⟨0x7F, List.replicate q 0xFF, rfl, rfl, ?_⟩
  have hread := contRest_replicate i (i + 1) 127 q []
  rw [List.append_nil] at hread
  exact hread

theorem readsRun_split (i : Nat) {b : Byte} (hb : b.toNat < 128) (rest : List Byte) :
    ReadsRun .split i (b :: rest) (.ok ⟨b.toNat, i + 1, rest⟩) :=
  ⟨b, rest, rfl, getLsbD_seven_of_lt hb, rfl⟩

theorem valid_literal_iff (z : ZMode) (bs : List Byte) :
    (SpanToken.literal bs).valid z = true ↔ 1 ≤ bs.length ∧ bs.length ≤ 128 := by
  simp [SpanToken.valid]

theorem valid_zeros_iff (z : ZMode) (n : Nat) :
    (SpanToken.zeros n).valid z = true ↔ 1 ≤ n ∧ (z = .split → n ≤ 128) := by
  cases z <;> simp [SpanToken.valid]

/-- The decoder reads the code of a valid run back as that run, whatever follows. -/
theorem readsRun_zeroRunCode {z : ZMode} {n : Nat} (hv : (SpanToken.zeros n).valid z = true) (i : Nat)
    (rest : List Byte) :
    ReadsRun z i (zeroRunCode z n ++ rest) (.ok ⟨n - 1, i + (zeroRunCode z n).length, rest⟩) := by
  obtain ⟨hn, hsplit⟩ := (valid_zeros_iff z n).mp hv
  cases z with
  | chain =>
    obtain ⟨q, b, hcode, hb, hsum, _⟩ := zeroRunCode_chain n
    have hread := readsRun_chain i q hb rest
    rw [hsum] at hread
    simpa [hcode] using hread
  | cont =>
    obtain ⟨q, b, ⟨hcode, hb, hsum⟩ | ⟨hcode, hb, hsum⟩, _⟩ := zeroRunCode_cont hn
    · rw [hcode, ← hsum]
      exact readsRun_cont_short i hb rest
    · have hread := readsRun_cont_long i q hb rest
      rw [hsum] at hread
      simpa [hcode] using hread
  | split =>
    obtain ⟨b, hcode, hb⟩ := zeroRunCode_split_single hn (hsplit rfl)
    rw [hcode, show n - 1 = b.toNat by omega]
    exact readsRun_split i (by have := hsplit rfl; omega) rest

/-- A run cut off after its header is truncated at the header (R278). -/
theorem readsRun_zeroRunCode_cut {z : ZMode} {n m : Nat} (hv : (SpanToken.zeros n).valid z = true) (i : Nat)
    (hm : 0 < m) (hcut : m < (zeroRunCode z n).length) :
    ReadsRun z i ((zeroRunCode z n).take m) (.error ⟨.srcTruncated, infoWord i⟩) := by
  obtain ⟨hn, hsplit⟩ := (valid_zeros_iff z n).mp hv
  cases z with
  | chain =>
    obtain ⟨q, b, hcode, _, _, _⟩ := zeroRunCode_chain n
    have hmq : m ≤ q := by simpa [hcode, Nat.lt_succ_iff] using hcut
    rw [hcode, List.take_append_of_le_length (by simpa using hmq), List.take_replicate, Nat.min_eq_left hmq]
    exact readsRun_chain_cut i hm
  | cont =>
    obtain ⟨q, b, ⟨hcode, _, _⟩ | ⟨hcode, _, _⟩, _⟩ := zeroRunCode_cont hn
    · rw [hcode, List.length_singleton] at hcut
      omega
    · obtain ⟨m, rfl⟩ := Nat.exists_eq_add_one.mpr hm
      have hmq : m ≤ q := by simpa [hcode, Nat.lt_succ_iff] using hcut
      rw [hcode, List.take_succ_cons, List.take_append_of_le_length (by simpa using hmq), List.take_replicate,
        Nat.min_eq_left hmq]
      exact readsRun_cont_cut i m
  | split =>
    obtain ⟨b, hcode, _⟩ := zeroRunCode_split_single hn (hsplit rfl)
    rw [hcode, List.length_singleton] at hcut
    omega

/-! ### The loop of SpanDecode without its fuel (R168) -/

theorem length_rest_of_chainRest {ho i v : Nat} {t : List Byte} {k : RunToken} (h : chainRest ho i v t = .ok k) :
    k.rest.length ≤ t.length := by
  induction t generalizing i v with
  | nil => cases h
  | cons b t ih =>
    simp only [chainRest] at h
    split at h
    · cases h
    · split at h
      · exact (ih h).trans (Nat.le_succ _)
      · cases h
        exact Nat.le_succ _

theorem length_rest_of_contRest {ho i v : Nat} {t : List Byte} {k : RunToken} (h : contRest ho i v t = .ok k) :
    k.rest.length ≤ t.length := by
  induction t generalizing i v with
  | nil => cases h
  | cons b t ih =>
    simp only [contRest] at h
    split at h
    · exact (ih h).trans (Nat.le_succ _)
    · cases h
      exact Nat.le_succ _

theorem length_rest_of_runToken {z : ZMode} {ho : Nat} {b : Byte} {t : List Byte} {k : RunToken}
    (h : runToken z ho b t = .ok k) : k.rest.length ≤ t.length := by
  cases z with
  | chain =>
    simp only [runToken] at h
    split at h
    · exact length_rest_of_chainRest h
    · cases h
      exact Nat.le_refl _
  | cont =>
    simp only [runToken] at h
    split at h
    · exact length_rest_of_contRest h
    · cases h
      exact Nat.le_refl _
  | split =>
    cases h
    exact Nat.le_refl _

/-- The fuel does not matter where it covers the bytes left. -/
theorem spanDecodeFrom_fuel_irrelevant {z : ZMode} {fuel fuel' i need : Nat} {rest : List Byte}
    (h : rest.length ≤ fuel) (h' : rest.length ≤ fuel') :
    spanDecodeFrom z fuel i rest need = spanDecodeFrom z fuel' i rest need := by
  induction fuel generalizing fuel' i rest need with
  | zero =>
    obtain rfl := List.eq_nil_of_length_eq_zero (Nat.le_zero.mp h)
    cases need <;> cases fuel' <;> rfl
  | succ fuel ih =>
    cases need with
    | zero => simp only [spanDecodeFrom]
    | succ need =>
      cases rest with
      | nil => cases fuel' <;> rfl
      | cons b t =>
        obtain ⟨fuel', rfl⟩ := Nat.exists_eq_add_one.mpr (Nat.zero_lt_of_lt h')
        have ht : t.length ≤ fuel := Nat.le_of_succ_le_succ h
        have ht' : t.length ≤ fuel' := Nat.le_of_succ_le_succ h'
        have hdrop : ∀ n j m, spanDecodeFrom z fuel j (t.drop n) m = spanDecodeFrom z fuel' j (t.drop n) m :=
          fun n j m => ih (((t.drop_sublist n).length_le).trans ht) (((t.drop_sublist n).length_le).trans ht')
        simp only [spanDecodeFrom, hdrop]
        cases hk : runToken z i b t with
        | error f => rfl
        | ok k =>
          have hrest := length_rest_of_runToken hk
          simp only [ih (hrest.trans ht) (hrest.trans ht')]

/-- The loop of R168 at offset `i`, with the bytes `rest` of the stream left and `need` output bytes to go. -/
def decodeAt (z : ZMode) (i : Nat) (rest : List Byte) (need : Nat) : Except FaultRecord CommandResult :=
  spanDecodeFrom z rest.length i rest need

theorem spanDecode_eq_decodeAt (z : ZMode) (x : Nat) (s : List Byte) : spanDecode z x s = decodeAt z 0 s x := rfl

theorem spanDecodeFrom_eq_decodeAt {z : ZMode} {fuel i need : Nat} {rest : List Byte} (h : rest.length ≤ fuel) :
    spanDecodeFrom z fuel i rest need = decodeAt z i rest need :=
  spanDecodeFrom_fuel_irrelevant h (Nat.le_refl _)

@[simp] theorem decodeAt_zero (z : ZMode) (i : Nat) (rest : List Byte) :
    decodeAt z i rest 0 = .ok ⟨[], !rest.isEmpty⟩ := by
  rw [decodeAt, spanDecodeFrom]

section
variable {z : ZMode} {i need n : Nat} {h : Byte} {t bs : List Byte}

theorem decodeAt_nil (hneed : 0 < need) : decodeAt z i [] need = .error ⟨.srcTruncated, infoWord i⟩ := by
  obtain ⟨need, rfl⟩ := Nat.exists_eq_add_one.mpr hneed
  rfl

/-- At a literal's header the expected length is looked at first, then the bytes left. -/
theorem decodeAt_literalHeader (hneed : 0 < need) (hbit : h.getLsbD 7 = true)
    (hn : (h.extractLsb' 0 7).toNat + 1 = n) : decodeAt z i (h :: t) need =
      if need < n then .error ⟨.decOverrun, infoWord i⟩
      else if t.length < n then .error ⟨.srcTruncated, infoWord i⟩
      else prependOutput (t.take n) (decodeAt z (i + 1 + n) (t.drop n) (need - n)) := by
  obtain ⟨need, rfl⟩ := Nat.exists_eq_add_one.mpr hneed
  rw [decodeAt, List.length_cons, spanDecodeFrom, if_pos hbit]
  simp only [hn, spanDecodeFrom_eq_decodeAt (t.drop_sublist n).length_le]

theorem decodeAt_of_readsRun_error {f : FaultRecord} (hread : ReadsRun z i bs (.error f)) (hneed : 0 < need) :
    decodeAt z i bs need = .error f := by
  obtain ⟨h, t, rfl, hbit, hk⟩ := hread
  obtain ⟨need, rfl⟩ := Nat.exists_eq_add_one.mpr hneed
  rw [decodeAt, List.length_cons, spanDecodeFrom, if_neg (Bool.eq_false_iff.mp hbit)]
  simp only [hk]

theorem decodeAt_of_readsRun_ok {k : RunToken} (hread : ReadsRun z i bs (.ok k)) (hneed : 0 < need) :
    decodeAt z i bs need =
      if need < k.v + 1 then .error ⟨.decOverrun, infoWord i⟩
      else prependOutput (List.replicate (k.v + 1) 0) (decodeAt z k.next k.rest (need - (k.v + 1))) := by
  obtain ⟨h, t, rfl, hbit, hk⟩ := hread
  obtain ⟨need, rfl⟩ := Nat.exists_eq_add_one.mpr hneed
  rw [decodeAt, List.length_cons, spanDecodeFrom, if_neg (Bool.eq_false_iff.mp hbit)]
  simp only [hk, spanDecodeFrom_eq_decodeAt (length_rest_of_runToken hk)]

end

/-! ### The decoder at one token -/

section
variable {z : ZMode} {k : SpanToken} {i need : Nat}

theorem SpanToken.output_pos (hv : k.valid z = true) : 0 < k.output.length := by
  cases k with
  | literal bs => exact ((valid_literal_iff z bs).mp hv).1
  | zeros n =>
    rw [SpanToken.output, List.length_replicate]
    exact ((valid_zeros_iff z n).mp hv).1

/-- A valid token whose output fits the expected length is read whole. -/
theorem decodeAt_code_append (hv : k.valid z = true) (hfit : k.output.length ≤ need) (rest : List Byte) :
    decodeAt z i (k.code z ++ rest) need =
      prependOutput k.output (decodeAt z (i + (k.code z).length) rest (need - k.output.length)) := by
  have hneed : 0 < need := (SpanToken.output_pos hv).trans_le hfit
  cases k with
  | literal bs =>
    obtain ⟨hpos, hmax⟩ := (valid_literal_iff z bs).mp hv
    obtain ⟨hbit, hn⟩ := literalHeader_bits hpos hmax
    simp only [SpanToken.output] at hfit ⊢
    rw [SpanToken.code, List.cons_append, decodeAt_literalHeader hneed hbit hn, if_neg (Nat.not_lt.mpr hfit),
      if_neg (by simp), List.take_left, List.drop_left, List.length_cons, Nat.add_assoc, Nat.add_comm 1]
  | zeros n =>
    obtain ⟨hpos, _⟩ := (valid_zeros_iff z n).mp hv
    simp only [SpanToken.output, List.length_replicate] at hfit ⊢
    rw [SpanToken.code, decodeAt_of_readsRun_ok (readsRun_zeroRunCode hv i rest) hneed]
    simp only [Nat.sub_add_cancel hpos, if_neg (Nat.not_lt.mpr hfit)]

/-- A token that would exceed the expected length overruns it at its header (R279). -/
theorem decodeAt_code_overrun (hv : k.valid z = true) (hneed : 0 < need) (hover : need < k.output.length)
    (rest : List Byte) : decodeAt z i (k.code z ++ rest) need = .error ⟨.decOverrun, infoWord i⟩ := by
  cases k with
  | literal bs =>
    obtain ⟨hpos, hmax⟩ := (valid_literal_iff z bs).mp hv
    obtain ⟨hbit, hn⟩ := literalHeader_bits hpos hmax
    rw [SpanToken.code, List.cons_append, decodeAt_literalHeader hneed hbit hn]
    exact if_pos hover
  | zeros n =>
    obtain ⟨hpos, _⟩ := (valid_zeros_iff z n).mp hv
    rw [SpanToken.output, List.length_replicate] at hover
    rw [SpanToken.code, decodeAt_of_readsRun_ok (readsRun_zeroRunCode hv i rest) hneed]
    simp only [Nat.sub_add_cancel hpos, if_pos hover]

/-- What is left of a literal cut off after its header. -/
theorem take_code_literal (bs : List Byte) {m : Nat} (hm : 0 < m) :
    ((SpanToken.literal bs).code z).take m = byteOf (0x80 + (bs.length - 1)) :: bs.take (m - 1) := by
  obtain ⟨m, rfl⟩ := Nat.exists_eq_add_one.mpr hm
  rfl

/-- For a literal that would exceed the expected length too the overrun comes first, also where it is cut off. -/
theorem decodeAt_literal_cut_overrun {bs : List Byte} {m : Nat} (hv : (SpanToken.literal bs).valid z = true)
    (hneed : 0 < need) (hover : need < bs.length) (hm : 0 < m) :
    decodeAt z i (((SpanToken.literal bs).code z).take m) need = .error ⟨.decOverrun, infoWord i⟩ := by
  obtain ⟨hpos, hmax⟩ := (valid_literal_iff z bs).mp hv
  obtain ⟨hbit, hn⟩ := literalHeader_bits hpos hmax
  rw [take_code_literal bs hm, decodeAt_literalHeader hneed hbit hn, if_pos hover]

/-- A token cut off after its header is truncated there (R278): a literal if it would fit, a run of any length. -/
theorem decodeAt_code_cut {m : Nat} (hv : k.valid z = true) (hneed : 0 < need)
    (hfit : ∀ bs, k = .literal bs → bs.length ≤ need) (hm : 0 < m) (hcut : m < (k.code z).length) :
    decodeAt z i ((k.code z).take m) need = .error ⟨.srcTruncated, infoWord i⟩ := by
  cases k with
  | literal bs =>
    obtain ⟨hpos, hmax⟩ := (valid_literal_iff z bs).mp hv
    obtain ⟨hbit, hn⟩ := literalHeader_bits hpos hmax
    rw [SpanToken.code, List.length_cons] at hcut
    have hshort : (bs.take (m - 1)).length < bs.length := by
      rw [List.length_take]
      omega
    rw [take_code_literal bs hm, decodeAt_literalHeader hneed hbit hn, if_neg (Nat.not_lt.mpr (hfit bs rfl)),
      if_pos hshort]
  | zeros n => exact decodeAt_of_readsRun_error (readsRun_zeroRunCode_cut hv i hm hcut) hneed

end

/-! ### The decoder on a token sequence (R160, R168) -/

@[simp] theorem prependOutput_nil (x : Except FaultRecord CommandResult) : prependOutput [] x = x := by
  cases x <;> rfl

theorem prependOutput_append (a b : List Byte) (x : Except FaultRecord CommandResult) :
    prependOutput (a ++ b) x = prependOutput a (prependOutput b x) := by
  cases x <;> simp [prependOutput]

@[simp] theorem streamOf_nil (z : ZMode) : streamOf z [] = [] := rfl

@[simp] theorem streamOf_cons (z : ZMode) (k : SpanToken) (ks : List SpanToken) :
    streamOf z (k :: ks) = k.code z ++ streamOf z ks := rfl

@[simp] theorem outputOf_nil : outputOf [] = [] := rfl

@[simp] theorem outputOf_cons (k : SpanToken) (ks : List SpanToken) : outputOf (k :: ks) = k.output ++ outputOf ks := rfl

section
variable {z : ZMode} {ks : List SpanToken} {x : Nat}

/-- The stream of valid tokens whose output fits the expected length is read whole. -/
theorem decodeAt_streamOf_append (hv : ∀ k ∈ ks, k.valid z = true) (hfit : (outputOf ks).length ≤ x) (i : Nat)
    (rest : List Byte) : decodeAt z i (streamOf z ks ++ rest) x =
      prependOutput (outputOf ks) (decodeAt z (i + (streamOf z ks).length) rest (x - (outputOf ks).length)) := by
  induction ks generalizing i x with
  | nil => simp
  | cons k ks ih =>
    obtain ⟨hk, hks⟩ := List.forall_mem_cons.mp hv
    rw [outputOf_cons, List.length_append] at hfit
    rw [streamOf_cons, List.append_assoc, decodeAt_code_append hk (by omega), ih hks (by omega), outputOf_cons,
      prependOutput_append, List.length_append, List.length_append, Nat.add_assoc, Nat.sub_sub]

theorem spanDecode_streamOf_append (hv : ∀ k ∈ ks, k.valid z = true) (rest : List Byte) :
    spanDecode z (outputOf ks).length (streamOf z ks ++ rest) = .ok ⟨outputOf ks, !rest.isEmpty⟩ := by
  rw [spanDecode_eq_decodeAt, decodeAt_streamOf_append hv (Nat.le_refl _), Nat.sub_self, decodeAt_zero]
  simp [prependOutput]

/-- A fault after the stream of valid tokens is the decoder's fault. -/
theorem spanDecode_streamOf_append_error {tail : List Byte} {f : FaultRecord} (hv : ∀ k ∈ ks, k.valid z = true)
    (hx : (outputOf ks).length < x)
    (htail : decodeAt z (streamOf z ks).length tail (x - (outputOf ks).length) = .error f) :
    spanDecode z x (streamOf z ks ++ tail) = .error f := by
  rw [spanDecode_eq_decodeAt, decodeAt_streamOf_append hv hx.le, Nat.zero_add, htail]
  rfl

end

/-- Settles O41: the codes by the arithmetic of their bytes; then the tokens before are read whole, and what follows them
is nothing, a token too long, or a token cut off. -/
theorem decoderReadsEveryTokenSequence : Obligations.DecoderReadsEveryTokenSequence := by
  unfold Obligations.DecoderReadsEveryTokenSequence
  refine ⟨fun bs hpos hmax z => ⟨_, rfl, literalHeader_bits hpos hmax⟩, fun n hn =>
    ⟨zeroRunCode_chain n, zeroRunCode_cont hn, zeroRunCode_split_of_mod_eq_zero, zeroRunCode_split_of_mod_ne_zero,
      length_zeroRunCode_split n, fun z => length_zeroRunCode_le z hn⟩, fun z ks rest hv =>
    ⟨spanDecode_streamOf_append hv rest, fun x hx => ?short, fun k x hk hx hover => ?overrun,
      fun k x m hk hx hfit hm hcut => ?cut, fun bs x m hk hx hover hm => ?cutOverrun⟩⟩
  case short =>
    have hread := spanDecode_streamOf_append_error hv hx (decodeAt_nil (Nat.sub_pos_of_lt hx))
    rwa [List.append_nil] at hread
  case overrun =>
    exact spanDecode_streamOf_append_error hv hx
      (decodeAt_code_overrun hk (Nat.sub_pos_of_lt hx) (Nat.sub_lt_left_of_lt_add hx.le hover) rest)
  case cut =>
    exact spanDecode_streamOf_append_error hv hx
      (decodeAt_code_cut hk (Nat.sub_pos_of_lt hx) (fun bs hbs => Nat.le_sub_of_add_le' (hfit bs hbs)) hm hcut)
  case cutOverrun =>
    exact spanDecode_streamOf_append_error hv hx
      (decodeAt_literal_cut_overrun hk (Nat.sub_pos_of_lt hx) (Nat.sub_lt_left_of_lt_add hx.le hover) hm)

/-! ### Where the encoder ends a token (R166) -/

/-- Whether the bytes begin with a byte that is not zero. -/
def beginsNonzero : List Byte → Bool
  | [] => false
  | b :: _ => b != 0

/-- Whether no two zeros stand in a row. -/
def noZeroPair (bs : List Byte) : Bool := (bs.zip bs.tail).all (fun p => p.1 != 0 || p.2 != 0)

theorem beginsNonzero_append {bs : List Byte} (h : beginsNonzero bs = true) (out : List Byte) :
    beginsNonzero (bs ++ out) = true := by
  cases bs with
  | nil => cases h
  | cons b t => exact h

theorem beginsNonzero_iff (bs : List Byte) : beginsNonzero bs = true ↔ 1 ≤ bs.length ∧ bs.head? ≠ some 0 := by
  cases bs <;> simp [beginsNonzero]

theorem literalEnds_cons (b : Byte) (t : List Byte) : literalEnds (b :: t) = (b == 0 && !beginsNonzero t) := by
  cases t with
  | nil => rfl
  | cons c t => rw [literalEnds, beginsNonzero, bne, Bool.not_not]

theorem literalEnds_of_beginsNonzero {out : List Byte} (h : beginsNonzero out = true) : literalEnds out = false := by
  cases out with
  | nil => cases h
  | cons c t => rw [literalEnds_cons, beq_eq_false_iff_ne.mpr (bne_iff_ne.mp h), Bool.false_and]

theorem zeroRunLength_replicate_append (n : Nat) (out : List Byte) :
    zeroRunLength (List.replicate n 0 ++ out) = n + zeroRunLength out := by
  induction n with
  | zero => simp
  | succ n ih =>
    rw [List.replicate_succ, List.cons_append, zeroRunLength, if_pos rfl, ih]
    omega

/-- The zeros counted, then the rest, are the bytes. -/
theorem replicate_zeroRunLength_append_drop (bs : List Byte) :
    List.replicate (zeroRunLength bs) 0 ++ bs.drop (zeroRunLength bs) = bs := by
  induction bs with
  | nil => rfl
  | cons b t ih =>
    by_cases h : b = 0
    · rw [zeroRunLength, if_pos h, List.replicate_succ, List.drop_succ_cons, List.cons_append, ih, h]
    · rw [zeroRunLength, if_neg h]
      rfl

/-- The whole maximal run is counted. -/
theorem zeroRunLength_drop_zeroRunLength (bs : List Byte) : zeroRunLength (bs.drop (zeroRunLength bs)) = 0 := by
  have hlen := zeroRunLength_replicate_append (zeroRunLength bs) (bs.drop (zeroRunLength bs))
  rw [replicate_zeroRunLength_append_drop] at hlen
  omega

theorem zeroRunLength_of_beginsNonzero {out : List Byte} (h : beginsNonzero out = true) : zeroRunLength out = 0 := by
  cases out with
  | nil => cases h
  | cons c t => exact if_neg (bne_iff_ne.mp h)

theorem literalLength_le_length (limit : Nat) (bs : List Byte) : literalLength limit bs ≤ bs.length := by
  induction bs generalizing limit with
  | nil => cases limit <;> simp [literalLength]
  | cons b t ih =>
    cases limit with
    | zero => exact Nat.zero_le _
    | succ limit =>
      rw [literalLength]
      split
      · exact Nat.zero_le _
      · exact Nat.succ_le_succ (ih limit)

theorem literalLength_pos {limit : Nat} {bs : List Byte} (hlimit : 0 < limit) (h : beginsNonzero bs = true) :
    0 < literalLength limit bs := by
  obtain ⟨limit, rfl⟩ := Nat.exists_eq_add_one.mpr hlimit
  have hends := literalEnds_of_beginsNonzero h
  cases bs with
  | nil => cases h
  | cons b t =>
    rw [literalLength, if_neg (Bool.eq_false_iff.mp hends)]
    exact Nat.succ_pos _

/-- The conditions on `b :: t` before `out` are: the literal does not end at `b`, and the conditions on `t`. -/
theorem noZeroPair_getLast_cons_iff (b : Byte) (t out : List Byte) :
    (noZeroPair (b :: t) = true ∧ ((b :: t).getLast? = some 0 → beginsNonzero out = true)) ↔
      literalEnds (b :: (t ++ out)) = false ∧
        (noZeroPair t = true ∧ (t.getLast? = some 0 → beginsNonzero out = true)) := by
  cases t with
  | nil => by_cases hb : b = 0 <;> simp [noZeroPair, literalEnds_cons, hb]
  | cons c t =>
    have hpair : noZeroPair (b :: c :: t) = ((b != 0 || c != 0) && noZeroPair (c :: t)) := rfl
    have hends : literalEnds (b :: (c :: t ++ out)) = !(b != 0 || c != 0) := by
      rw [literalEnds_cons, Bool.not_or, bne, Bool.not_not]
      rfl
    rw [hpair, hends, Bool.and_eq_true, Bool.not_eq_false', List.getLast?_cons_cons, and_assoc]

/-- The encoder takes all of `bs`, and no more, as a literal exactly if it may go as far and must end there. -/
theorem literalLength_append_eq_length_iff (limit : Nat) (bs out : List Byte) :
    literalLength limit (bs ++ out) = bs.length ↔
      (noZeroPair bs = true ∧ (bs.getLast? = some 0 → beginsNonzero out = true)) ∧
        bs.length ≤ limit ∧ (bs.length = limit ∨ literalEnds out = true) := by
  induction bs generalizing limit with
  | nil =>
    cases limit with
    | zero => simp [noZeroPair, literalLength]
    | succ limit => cases out <;> simp [noZeroPair, literalLength, literalEnds]
  | cons b t ih =>
    cases limit with
    | zero => simp [literalLength]
    | succ limit =>
      rw [noZeroPair_getLast_cons_iff, List.cons_append, literalLength]
      cases hends : literalEnds (b :: (t ++ out)) with
      | true => simp
      | false =>
        have htail := ih limit
        simp only [Bool.false_eq_true, if_false, List.length_cons, Nat.add_right_cancel_iff, htail, true_and,
          Nat.add_le_add_iff_right]

/-! ### The tokens that R166 chooses, by the two lengths the encoder takes -/

section
variable {rest : List SpanToken}

theorem beginsNonzero_of_literalChosen {bs : List Byte} (h : literalChosen bs rest = true) : beginsNonzero bs = true := by
  rw [beginsNonzero_iff]
  simp only [literalChosen, Bool.and_eq_true, decide_eq_true_eq, bne_iff_ne] at h
  obtain ⟨⟨⟨⟨hpos, _⟩, hhead⟩, _⟩, _⟩ := h
  exact ⟨hpos, hhead⟩

theorem pos_of_zerosChosen {n : Nat} (h : zerosChosen n rest = true) : 1 ≤ n := by
  simp only [zerosChosen, Bool.and_eq_true, decide_eq_true_eq] at h
  exact h.1

theorem encoderChoice_literal {bs : List Byte} : encoderChoice (.literal bs :: rest) = true ↔
    literalChosen bs rest = true ∧ encoderChoice rest = true := by
  rw [encoderChoice, Bool.and_eq_true]

theorem encoderChoice_zeros {n : Nat} : encoderChoice (.zeros n :: rest) = true ↔
    zerosChosen n rest = true ∧ encoderChoice rest = true := by
  rw [encoderChoice, Bool.and_eq_true]

theorem beginsNonzero_outputOf_literal {bs : List Byte} (h : encoderChoice (.literal bs :: rest) = true) :
    beginsNonzero (outputOf (.literal bs :: rest)) = true :=
  beginsNonzero_append (beginsNonzero_of_literalChosen (encoderChoice_literal.mp h).1) _

theorem outputOf_zeros {n : Nat} (h : 1 ≤ n) :
    outputOf (.zeros n :: rest) = 0 :: (List.replicate (n - 1) 0 ++ outputOf rest) := by
  obtain ⟨n, rfl⟩ := Nat.exists_eq_add_one.mpr h
  rfl

/-- A zero run is chosen exactly where it is the whole maximal run. -/
theorem zerosChosen_iff (n : Nat) (hrest : encoderChoice rest = true) :
    zerosChosen n rest = true ↔ 1 ≤ n ∧ zeroRunLength (outputOf rest) = 0 := by
  cases rest with
  | nil => simp [zerosChosen, zeroRunLength]
  | cons k after =>
    cases k with
    | literal bs => simp only [zerosChosen, zeroRunLength_of_beginsNonzero (beginsNonzero_outputOf_literal hrest),
        Bool.and_true, decide_eq_true_eq, and_true]
    | zeros m =>
      have hm := pos_of_zerosChosen (encoderChoice_zeros.mp hrest).1
      simp [zerosChosen, outputOf_zeros hm, zeroRunLength]

/-- A literal ends before a chosen zero run of two zeros or more, or of a last zero. -/
theorem literalEnds_outputOf_zeros {n : Nat} (h : encoderChoice (.zeros n :: rest) = true) :
    literalEnds (outputOf (.zeros n :: rest)) = (decide (2 ≤ n) || rest.isEmpty) := by
  obtain ⟨hchosen, hrest⟩ := encoderChoice_zeros.mp h
  have hn := pos_of_zerosChosen hchosen
  rw [outputOf_zeros hn, literalEnds_cons]
  by_cases h2 : 2 ≤ n
  · obtain ⟨m, hm⟩ : ∃ m, n - 1 = m + 1 := ⟨n - 2, by omega⟩
    simp [hm, List.replicate_succ, beginsNonzero, h2]
  · obtain rfl : n = 1 := by omega
    cases rest with
    | nil => rfl
    | cons k after =>
      cases k with
      | literal bs =>
        rw [Nat.sub_self, List.replicate_zero, List.nil_append, beginsNonzero_outputOf_literal hrest]
        rfl
      | zeros m => simp [zerosChosen] at hchosen

/-- A literal is chosen exactly where the encoder takes it. -/
theorem literalChosen_iff (bs : List Byte) (hrest : encoderChoice rest = true) : literalChosen bs rest = true ↔
    beginsNonzero bs = true ∧ literalLength Config.literalLimit (bs ++ outputOf rest) = bs.length := by
  rw [beginsNonzero_iff, literalLength_append_eq_length_iff]
  cases rest with
  | nil =>
    have hend : beginsNonzero (outputOf []) = false ∧ literalEnds (outputOf []) = true := ⟨rfl, rfl⟩
    simp only [literalChosen, noZeroPair, hend, Bool.and_eq_true, decide_eq_true_eq, bne_iff_ne, ne_eq]
    tauto
  | cons k after =>
    cases k with
    | literal cs =>
      have hhead := beginsNonzero_outputOf_literal hrest
      simp only [literalChosen, noZeroPair, hhead, literalEnds_of_beginsNonzero hhead, Bool.and_eq_true,
        decide_eq_true_eq, bne_iff_ne, ne_eq, beq_iff_eq]
      tauto
    | zeros m =>
      have hhead : beginsNonzero (outputOf (.zeros m :: after)) = false := by
        rw [outputOf_zeros (pos_of_zerosChosen (encoderChoice_zeros.mp hrest).1)]
        rfl
      simp only [literalChosen, noZeroPair, hhead, literalEnds_outputOf_zeros hrest, Bool.and_eq_true, Bool.or_eq_true,
        decide_eq_true_eq, bne_iff_ne, ne_eq, beq_iff_eq]
      tauto

end

/-! ### The encoder on the chosen tokens (R166) -/

section
variable {z : ZMode} {fuel : Nat} {out : List Byte}

@[simp] theorem spanEncodeFrom_nil (z : ZMode) (fuel : Nat) : spanEncodeFrom z fuel [] = [] := by
  cases fuel <;> rfl

theorem spanEncodeFrom_zeros {n : Nat} (hn : 1 ≤ n) (hout : zeroRunLength out = 0) :
    spanEncodeFrom z (fuel + 1) (List.replicate n 0 ++ out) =
      (SpanToken.zeros n).code z ++ spanEncodeFrom z fuel out := by
  have hrun := zeroRunLength_replicate_append n out
  rw [hout, Nat.add_zero] at hrun
  have hdrop : (List.replicate n 0 ++ out).drop n = out := List.drop_left' (List.length_replicate ..)
  obtain ⟨n, rfl⟩ := Nat.exists_eq_add_one.mpr hn
  rw [List.replicate_succ, List.cons_append] at hrun hdrop ⊢
  rw [spanEncodeFrom, if_pos rfl]
  simp only [hrun, hdrop]
  rfl

theorem spanEncodeFrom_literal {bs : List Byte} (hhead : beginsNonzero bs = true)
    (hlen : literalLength Config.literalLimit (bs ++ out) = bs.length) :
    spanEncodeFrom z (fuel + 1) (bs ++ out) = (SpanToken.literal bs).code z ++ spanEncodeFrom z fuel out := by
  have htake : (bs ++ out).take bs.length = bs := List.take_left
  have hdrop : (bs ++ out).drop bs.length = out := List.drop_left
  cases bs with
  | nil => cases hhead
  | cons b t =>
    have hb : b ≠ 0 := bne_iff_ne.mp hhead
    rw [List.cons_append] at hlen htake hdrop ⊢
    rw [spanEncodeFrom, if_neg hb]
    simp only [hlen, htake, hdrop]
    rfl

/-- The encoder writes the stream of any tokens chosen as R166 says. -/
theorem spanEncodeFrom_outputOf (ks : List SpanToken) (hks : encoderChoice ks = true)
    (hfuel : (outputOf ks).length ≤ fuel) : spanEncodeFrom z fuel (outputOf ks) = streamOf z ks := by
  induction ks generalizing fuel with
  | nil => exact spanEncodeFrom_nil z fuel
  | cons k rest ih =>
    rw [outputOf_cons, List.length_append] at hfuel
    cases k with
    | literal bs =>
      obtain ⟨hchosen, hrest⟩ := encoderChoice_literal.mp hks
      obtain ⟨hhead, hlen⟩ := (literalChosen_iff bs hrest).mp hchosen
      have hpos := ((beginsNonzero_iff bs).mp hhead).1
      rw [SpanToken.output] at hfuel
      obtain ⟨fuel, rfl⟩ := Nat.exists_eq_add_one.mpr (show 0 < fuel by omega)
      exact (spanEncodeFrom_literal hhead hlen).trans (congrArg _ (ih hrest (by omega)))
    | zeros n =>
      obtain ⟨hchosen, hrest⟩ := encoderChoice_zeros.mp hks
      obtain ⟨hn, hout⟩ := (zerosChosen_iff n hrest).mp hchosen
      rw [SpanToken.output, List.length_replicate] at hfuel
      obtain ⟨fuel, rfl⟩ := Nat.exists_eq_add_one.mpr (show 0 < fuel by omega)
      exact (spanEncodeFrom_zeros hn hout).trans (congrArg _ (ih hrest (by omega)))

end

theorem spanEncode_outputOf (z : ZMode) {ks : List SpanToken} (hks : encoderChoice ks = true) :
    spanEncode z (outputOf ks) = streamOf z ks := spanEncodeFrom_outputOf ks hks (Nat.le_refl _)

/-- Every input is what some tokens chosen as R166 says stand for. -/
theorem exists_encoderChoice (bs : List Byte) : ∃ ks, encoderChoice ks = true ∧ outputOf ks = bs := by
  by_cases hhead : beginsNonzero bs = true
  · have hpos := literalLength_pos (show 0 < Config.literalLimit by decide) hhead
    have hle := literalLength_le_length Config.literalLimit bs
    generalize hn : literalLength Config.literalLimit bs = n at hpos hle
    obtain ⟨ks, hks, hout⟩ := exists_encoderChoice (bs.drop n)
    have hbs : bs.take n ++ outputOf ks = bs := by rw [hout, List.take_append_drop]
    refine ⟨.literal (bs.take n) :: ks, encoderChoice_literal.mpr ⟨(literalChosen_iff _ hks).mpr ⟨?_, ?_⟩, hks⟩, hbs⟩
    · obtain ⟨n, rfl⟩ := Nat.exists_eq_add_one.mpr hpos
      cases bs with
      | nil => cases hhead
      | cons b t => exact hhead
    · rw [hbs, hn, List.length_take, Nat.min_eq_left hle]
  · cases bs with
    | nil => exact ⟨[], rfl, rfl⟩
    | cons b t =>
      obtain rfl : b = 0 := by simpa [beginsNonzero] using hhead
      have hn : 1 ≤ zeroRunLength (0 :: t) := Nat.succ_le_succ (Nat.zero_le _)
      obtain ⟨ks, hks, hout⟩ := exists_encoderChoice ((0 :: t).drop (zeroRunLength (0 :: t)))
      refine ⟨.zeros (zeroRunLength (0 :: t)) :: ks,
        encoderChoice_zeros.mpr ⟨(zerosChosen_iff _ hks).mpr ⟨hn, ?_⟩, hks⟩, ?_⟩
      · rw [hout, zeroRunLength_drop_zeroRunLength]
      · rw [outputOf_cons, hout]
        exact replicate_zeroRunLength_append_drop _
termination_by bs.length
decreasing_by
  · rw [List.length_drop]
    omega
  · rw [List.length_drop]
    simp only [List.length_cons]
    omega

/-! ### Round trip (R168, R171) -/

/-- Tokens chosen as R166 says are tokens of the modes that do not bound a zero run. -/
theorem valid_of_encoderChoice {ks : List SpanToken} (h : encoderChoice ks = true) : ∀ k ∈ ks, k.valid .chain = true := by
  induction ks with
  | nil => simp
  | cons k rest ih =>
    rw [List.forall_mem_cons]
    cases k with
    | literal bs =>
      obtain ⟨hchosen, hrest⟩ := encoderChoice_literal.mp h
      obtain ⟨hhead, hlen⟩ := (literalChosen_iff bs hrest).mp hchosen
      obtain ⟨_, hmax, _⟩ := (literalLength_append_eq_length_iff _ _ _).mp hlen
      exact ⟨(valid_literal_iff _ _).mpr ⟨((beginsNonzero_iff bs).mp hhead).1, hmax⟩, ih hrest⟩
    | zeros n =>
      obtain ⟨hchosen, hrest⟩ := encoderChoice_zeros.mp h
      exact ⟨(valid_zeros_iff _ _).mpr ⟨pos_of_zerosChosen hchosen, nofun⟩, ih hrest⟩

theorem zeroRunCode_split_add (n : Nat) : zeroRunCode .split (n + 128) = 0x7F :: zeroRunCode .split n := by
  simp [zeroRunCode, List.replicate_succ]

/-- The bytes `code` are a stream of valid tokens that stand for `out`. -/
def Tokenizes (z : ZMode) (code out : List Byte) : Prop :=
  ∃ ks : List SpanToken, (∀ k ∈ ks, k.valid z = true) ∧ streamOf z ks = code ∧ outputOf ks = out

section
variable {z : ZMode}

theorem Tokenizes.of_valid {k : SpanToken} (h : k.valid z = true) : Tokenizes z (k.code z) k.output :=
  ⟨[k], List.forall_mem_singleton.mpr h, List.append_nil _, List.append_nil _⟩

theorem Tokenizes.append {code out code' out' : List Byte} (h : Tokenizes z code out) (h' : Tokenizes z code' out') :
    Tokenizes z (code ++ code') (out ++ out') := by
  obtain ⟨ks, hv, rfl, rfl⟩ := h
  obtain ⟨ks', hv', rfl, rfl⟩ := h'
  exact ⟨ks ++ ks', List.forall_mem_append.mpr ⟨hv, hv'⟩, List.flatMap_append, List.flatMap_append⟩

theorem Tokenizes.spanDecode_eq {code out : List Byte} (h : Tokenizes z code out) :
    spanDecode z out.length code = .ok ⟨out, false⟩ := by
  obtain ⟨ks, hv, rfl, rfl⟩ := h
  have hread := spanDecode_streamOf_append hv []
  rwa [List.append_nil] at hread

/-- In SPLIT mode a run of any length is the tokens of its headers (R164). -/
theorem tokenizes_split {n : Nat} (hn : 1 ≤ n) : Tokenizes .split (zeroRunCode .split n) (List.replicate n 0) := by
  by_cases hmax : n ≤ 128
  · exact .of_valid ((valid_zeros_iff .split n).mpr ⟨hn, fun _ => hmax⟩)
  · obtain ⟨m, rfl⟩ := Nat.exists_eq_add_of_le' (Nat.le_of_not_le hmax)
    have hhead : Tokenizes .split [0x7F] (List.replicate 128 0) :=
      .of_valid (k := .zeros 128) ((valid_zeros_iff .split 128).mpr ⟨by decide, fun _ => Nat.le_refl _⟩)
    rw [zeroRunCode_split_add, Nat.add_comm m, ← List.replicate_append_replicate]
    exact hhead.append (tokenizes_split (by omega))

/-- A token that is valid but for SPLIT's bound on a zero run is, in each mode, a stream of valid tokens. -/
theorem tokenizes_code (z : ZMode) {k : SpanToken} (hk : k.valid .chain = true) : Tokenizes z (k.code z) k.output := by
  cases k with
  | literal bs => exact .of_valid hk
  | zeros n =>
    obtain ⟨hn, _⟩ := (valid_zeros_iff _ _).mp hk
    cases z with
    | chain => exact .of_valid hk
    | cont => exact .of_valid ((valid_zeros_iff _ _).mpr ⟨hn, nofun⟩)
    | split => exact tokenizes_split hn

theorem tokenizes_streamOf (z : ZMode) {ks : List SpanToken} (h : ∀ k ∈ ks, k.valid .chain = true) :
    Tokenizes z (streamOf z ks) (outputOf ks) := by
  induction ks with
  | nil => exact ⟨[], List.forall_mem_nil _, rfl, rfl⟩
  | cons k rest ih =>
    obtain ⟨hk, hrest⟩ := List.forall_mem_cons.mp h
    exact (tokenizes_code z hk).append (ih hrest)

end

theorem spanDecode_spanEncode (z : ZMode) (bs : List Byte) :
    spanDecode z bs.length (spanEncode z bs) = .ok ⟨bs, false⟩ := by
  obtain ⟨ks, hks, rfl⟩ := exists_encoderChoice bs
  rw [spanEncode_outputOf z hks]
  exact (tokenizes_streamOf z (valid_of_encoderChoice hks)).spanDecode_eq

/-- Settles O49: the two lengths the encoder takes are the conditions of R166, and its tokens read back. -/
theorem spanRoundTrip : Obligations.SpanRoundTrip := by
  unfold Obligations.SpanRoundTrip
  refine ⟨fun bs => ?_, fun z ks hks => spanEncode_outputOf z hks, spanDecode_spanEncode⟩
  obtain ⟨ks, hks, rfl⟩ := exists_encoderChoice bs
  exact ⟨ks, hks, rfl, fun z => spanEncode_outputOf z hks⟩

/-! ### The size of an encoding (R170) -/

theorem length_code_le (z : ZMode) {k : SpanToken} (hk : k.valid .chain = true) :
    (k.code z).length ≤ 2 * k.output.length := by
  have hpos := SpanToken.output_pos hk
  cases k with
  | literal bs =>
    simp only [SpanToken.output, SpanToken.code, List.length_cons] at hpos ⊢
    omega
  | zeros n =>
    simp only [SpanToken.output, SpanToken.code, List.length_replicate] at hpos ⊢
    have := length_zeroRunCode_le z hpos
    omega

theorem length_streamOf_le (z : ZMode) {ks : List SpanToken} (h : ∀ k ∈ ks, k.valid .chain = true) :
    (streamOf z ks).length ≤ 2 * (outputOf ks).length := by
  induction ks with
  | nil => exact Nat.le_refl _
  | cons k rest ih =>
    obtain ⟨hk, hrest⟩ := List.forall_mem_cons.mp h
    have htail := ih hrest
    have hcode := length_code_le z hk
    rw [streamOf_cons, outputOf_cons, List.length_append, List.length_append]
    omega

theorem literalLength_of_forall_ne_zero (limit : Nat) {bs : List Byte} (h : ∀ b ∈ bs, b ≠ 0) :
    literalLength limit bs = min limit bs.length := by
  induction bs generalizing limit with
  | nil => cases limit <;> simp [literalLength]
  | cons b t ih =>
    obtain ⟨hb, ht⟩ := List.forall_mem_cons.mp h
    cases limit with
    | zero => simp [literalLength]
    | succ limit =>
      have hends : literalEnds (b :: t) = false := literalEnds_of_beginsNonzero (bne_iff_ne.mpr hb)
      rw [literalLength, if_neg (Bool.eq_false_iff.mp hends), ih limit ht, List.length_cons, Nat.add_min_add_right]

/-- Without a zero byte every literal but the last has 128 bytes. -/
theorem length_spanEncodeFrom_of_forall_ne_zero (z : ZMode) {fuel : Nat} {bs : List Byte} (h : ∀ b ∈ bs, b ≠ 0)
    (hfuel : bs.length ≤ fuel) : (spanEncodeFrom z fuel bs).length = bs.length + (bs.length + 127) / 128 := by
  induction fuel generalizing bs with
  | zero =>
    obtain rfl := List.eq_nil_of_length_eq_zero (Nat.le_zero.mp hfuel)
    rfl
  | succ fuel ih =>
    cases bs with
    | nil => rfl
    | cons b t =>
      have hhead : beginsNonzero ((b :: t).take 128) = true := bne_iff_ne.mpr (List.forall_mem_cons.mp h).1
      have hlit : literalLength Config.literalLimit ((b :: t).take 128 ++ (b :: t).drop 128) =
          ((b :: t).take 128).length := by
        rw [List.take_append_drop, List.length_take]
        exact literalLength_of_forall_ne_zero Config.literalLimit h
      have htail := ih (bs := (b :: t).drop 128) (fun c hc => h c (List.mem_of_mem_drop hc))
        (by simp only [List.length_drop, List.length_cons] at hfuel ⊢; omega)
      have hcode := congrArg List.length (spanEncodeFrom_literal (z := z) (fuel := fuel) hhead hlit)
      rw [List.take_append_drop] at hcode
      rw [hcode, List.length_append, htail, SpanToken.code]
      simp only [List.length_cons, List.length_take, List.length_drop]
      omega

/-- Settles O48: token by token; without a zero byte, literal by literal. -/
theorem spanEncodeSizeBound : Obligations.SpanEncodeSizeBound := by
  unfold Obligations.SpanEncodeSizeBound
  refine fun z bs => ⟨?_, fun h => length_spanEncodeFrom_of_forall_ne_zero z h (Nat.le_refl _)⟩
  obtain ⟨ks, hks, rfl⟩ := exists_encoderChoice bs
  rw [spanEncode_outputOf z hks]
  exact length_streamOf_le z (valid_of_encoderChoice hks)

/-! ### The ends of SPENC, SPDEC and DECOMPRESS (R172, R173, R204, R242, R283) -/

section
variable {i : Instr} {s : State} {l : Latched} {g : List Byte → Except FaultRecord CommandResult}

/-- A command whose checks pass, and whose transform answers what fits, completes with that answer. -/
theorem exec_completed_of_ok {r : CommandResult}
    (hexec : exec i s = .next (finishRun (geometryFault i l) (staticNeed i l) g l false s)) (hwf : s.mem.wf = true)
    (hpass : ChecksPass i s.platform l) (hr : g (s.sourceBytes l) = .ok r)
    (hfits : r.out.length ≤ l.dstCap.toNat) : ∃ t, exec i s = .next t ∧ Completed l r.out r.trail s t := by
  rw [finishRun_ok ((checksPass_iff i s.platform l).mp hpass) hr] at hexec
  exact ⟨_, hexec, completed_complete l r.out r.trail s hwf (hfits.trans_lt l.dstCap.isLt)⟩

/-- A command whose checks pass and whose transform faults ends in that fault (R283). -/
theorem exec_dataFault_of_error {f : FaultRecord}
    (hexec : exec i s = .next (finishRun (geometryFault i l) (staticNeed i l) g l false s))
    (hpass : ChecksPass i s.platform l) (hf : g (s.sourceBytes l) = .error f) : EndsInDataFault i l f s := by
  rw [finishRun_error ((checksPass_iff i s.platform l).mp hpass) hf] at hexec
  exact ⟨_, hexec, dataFaultTaken_takeDataFault l f s⟩

end

theorem fitOutput_of_le {l : Latched} {out : List Byte} (h : out.length ≤ l.dstCap.toNat) :
    fitOutput l out = .ok ⟨out, false⟩ := if_neg (Nat.not_lt.mpr h)

/-- Settles O28: the encoding passes the dynamic capacity check. -/
theorem spencCompletes : Obligations.SpencCompletes := by
  unfold Obligations.SpencCompletes
  intro s l hp hwf hregions hfits
  exact exec_completed_of_ok (exec_spenc s l false hp) hwf ⟨rfl, hregions, nofun⟩ (fitOutput_of_le hfits) hfits

/-- Settles O29: the output has EXP_LEN bytes, which the static capacity check has let through. -/
theorem spdecCompletes : Obligations.SpdecCompletes := by
  unfold Obligations.SpdecCompletes
  intro s l r hp hwf hregions hcap hr
  have hlen := length_spanDecode hr
  have hpass : ChecksPass .spdec s.platform l := ⟨rfl, hregions, fun _ hn => Option.some.inj hn ▸ hcap⟩
  obtain ⟨t, ht, hcompleted⟩ := exec_completed_of_ok (exec_spdec s l false hp) hwf hpass hr (hlen.trans_le hcap)
  exact ⟨t, ht, hcompleted, BitVec.eq_of_toNat_eq (hcompleted.published.resultLen.trans hlen)⟩

/-! ### The causes of a decoder's fault (R278 to R280) -/

theorem cause_of_chainRest {ho i v : Nat} {t : List Byte} {f : FaultRecord} (h : chainRest ho i v t = .error f) :
    f.cause = .srcTruncated ∨ f.cause = .malformed := by
  induction t generalizing i v with
  | nil =>
    cases h
    exact Or.inl rfl
  | cons b t ih =>
    simp only [chainRest] at h
    split at h
    · cases h
      exact Or.inr rfl
    · split at h
      · exact ih h
      · cases h

theorem cause_of_contRest {ho i v : Nat} {t : List Byte} {f : FaultRecord} (h : contRest ho i v t = .error f) :
    f.cause = .srcTruncated := by
  induction t generalizing i v with
  | nil =>
    cases h
    rfl
  | cons b t ih =>
    simp only [contRest] at h
    split at h
    · exact ih h
    · cases h

theorem cause_of_runToken {z : ZMode} {ho : Nat} {b : Byte} {t : List Byte} {f : FaultRecord}
    (h : runToken z ho b t = .error f) : f.cause = .srcTruncated ∨ f.cause = .malformed := by
  cases z with
  | chain =>
    simp only [runToken] at h
    split at h
    · exact cause_of_chainRest h
    · cases h
  | cont =>
    simp only [runToken] at h
    split at h
    · exact Or.inl (cause_of_contRest h)
    · cases h
  | split => cases h

theorem prependOutput_eq_error {out : List Byte} {x : Except FaultRecord CommandResult} {f : FaultRecord}
    (h : prependOutput out x = .error f) : x = .error f := by
  cases x with
  | ok r => cases h
  | error e => exact h

theorem cause_of_spanDecodeFrom {z : ZMode} {fuel i need : Nat} {rest : List Byte} {f : FaultRecord}
    (h : spanDecodeFrom z fuel i rest need = .error f) :
    f.cause = .srcTruncated ∨ f.cause = .decOverrun ∨ f.cause = .malformed := by
  fun_induction spanDecodeFrom z fuel i rest need with
  | case1 => cases h
  | case2 | case3 | case5 =>
    cases h
    exact Or.inl rfl
  | case4 | case8 =>
    cases h
    exact Or.inr (Or.inl rfl)
  | case6 | case9 =>
    rename_i ih
    exact ih (prependOutput_eq_error h)
  | case7 fuel i b t need hrun e hk =>
    cases h
    exact (cause_of_runToken hk).imp_right Or.inr

theorem cause_of_spanDecode {z : ZMode} {x : Nat} {src : List Byte} {f : FaultRecord}
    (h : spanDecode z x src = .error f) : f.cause = .srcTruncated ∨ f.cause = .decOverrun ∨ f.cause = .malformed :=
  cause_of_spanDecodeFrom h

theorem decompressBytes_eq_error {l : Latched} {src : List Byte} {f : FaultRecord}
    (h : spanDecode l.zmode (bufferBytes l) src = .error f) : decompressBytes l src = .error f := by
  simp [decompressBytes, h]

/-- Settles O38: the decoder's fault is the transform's, of SPDEC directly and of DECOMPRESS as its first step. -/
theorem spanDecodeFaultsEndTheCommand : Obligations.SpanDecodeFaultsEndTheCommand := by
  unfold Obligations.SpanDecodeFaultsEndTheCommand
  rintro i s l f hp hpass (⟨rfl, hf⟩ | ⟨rfl, hf⟩)
  · exact ⟨exec_dataFault_of_error (exec_spdec s l false hp) hpass hf, cause_of_spanDecode hf⟩
  · exact ⟨exec_dataFault_of_error (exec_decompress s l false hp) hpass (decompressBytes_eq_error hf),
      cause_of_spanDecode hf⟩

end Sys2Proof.Machine

/-! PROOFS. Family 43_frame.md: the length block's bytes and that no block begins another, the geometry checks of the
frame commands, what DECOMPRESS answers, and that it undoes COMPRESS: the settled obligations O30, O31, O50 and O51. -/

namespace Sys2Proof.Machine

/-! ### The length block (R200, R201) -/

theorem lengthBlock_of_lt {v : Nat} (h : v < 127) : lengthBlock v = [byteOf v] := if_pos h

theorem lengthBlock_of_le {v : Nat} (h : 127 ≤ v) : lengthBlock v =
    0x7F :: (List.replicate ((v - 127) / 255) 0xFF ++ [byteOf ((v - 127) % 255)]) := if_neg (Nat.not_lt.mpr h)

theorem sum_lengthBlock (v : Nat) : ((lengthBlock v).map BitVec.toNat).sum = v := by
  by_cases h : v < 127
  · have hval : (byteOf v).toNat = v := toNat_byteOf (by omega)
    simp [lengthBlock_of_lt h, hval]
  · have hlast : (byteOf ((v - 127) % 255)).toNat = (v - 127) % 255 := toNat_byteOf (by omega)
    simp [lengthBlock_of_le (Nat.le_of_not_lt h), hlast]
    omega

/-- Runs of `c` that are each followed by another byte agree in their length and in what follows. -/
theorem replicate_append_cons_inj {c x y : Byte} (hx : x ≠ c) (hy : y ≠ c) {m n : Nat} {s t : List Byte}
    (h : List.replicate m c ++ x :: s = List.replicate n c ++ y :: t) : m = n ∧ x = y ∧ s = t := by
  induction m generalizing n with
  | zero =>
    cases n with
    | zero => exact ⟨rfl, List.cons.inj h⟩
    | succ n => exact absurd (List.cons.inj h).1 hx
  | succ m ih =>
    cases n with
    | zero => exact absurd (List.cons.inj h).1.symm hy
    | succ n => exact (ih (List.cons.inj h).2).imp_left (congrArg Nat.succ)

/-- The last byte of a long block ends its run of 0xFF. -/
theorem byteOf_mod_ne (n : Nat) : byteOf (n % 255) ≠ 0xFF := by
  have hval : (byteOf (n % 255)).toNat = n % 255 := toNat_byteOf (by omega)
  intro h
  have h255 : n % 255 = 255 := hval.symm.trans (congrArg BitVec.toNat h)
  omega

/-- The first byte of a block says whether it is the only one. -/
theorem head?_lengthBlock (v : Nat) : (lengthBlock v).head? = some (byteOf (min v 127)) := by
  by_cases h : v < 127
  · rw [lengthBlock_of_lt h, Nat.min_eq_left (Nat.le_of_lt h)]
    rfl
  · rw [lengthBlock_of_le (Nat.le_of_not_lt h), Nat.min_eq_right (Nat.le_of_not_lt h)]
    rfl

/-- The first byte of a block tells a short one from a long one, and the first byte after it that is not 0xFF is the
last of a long one. -/
theorem eq_nil_of_lengthBlock_eq_append {v w : Nat} {t : List Byte} (h : lengthBlock w = lengthBlock v ++ t) :
    t = [] := by
  have hmin : min w 127 = min v 127 := by
    have hw : (byteOf (min w 127)).toNat = min w 127 := toNat_byteOf (by omega)
    have hv : (byteOf (min v 127)).toNat = min v 127 := toNat_byteOf (by omega)
    have hhead := congrArg List.head? h
    rw [List.head?_append, head?_lengthBlock, head?_lengthBlock, Option.some_or] at hhead
    rw [← hw, ← hv, Option.some.inj hhead]
  by_cases hshort : v < 127
  · rw [lengthBlock_of_lt hshort, lengthBlock_of_lt (show w < 127 by omega)] at h
    exact (List.cons.inj h).2.symm
  · rw [lengthBlock_of_le (Nat.le_of_not_lt hshort), lengthBlock_of_le (show 127 ≤ w by omega), List.cons_append,
      List.append_assoc] at h
    obtain ⟨_, _, ht⟩ := replicate_append_cons_inj (byteOf_mod_ne _) (byteOf_mod_ne _) (List.cons.inj h).2
    exact ht.symm

/-- Settles O50: a block that another begins with has nothing after it, so both have the same bytes and the same sum. -/
theorem lengthBlockFacts : Obligations.LengthBlockFacts := by
  unfold Obligations.LengthBlockFacts
  refine ⟨fun v => ⟨lengthBlock_of_lt, lengthBlock_of_le, length_lengthBlock v, sum_lengthBlock v, ?beginning⟩,
    length_lengthBlock 518400, length_lengthBlock 2073600⟩
  case beginning =>
    rintro w ⟨t, h⟩
    rw [eq_nil_of_lengthBlock_eq_append h, List.append_nil] at h
    rw [← sum_lengthBlock w, h, sum_lengthBlock]

/-! ### The geometry checks (R203, R204, R273) -/

/-- The checks of the geometry in R273's order: each raises where its condition fails and else leaves it to the next. -/
theorem frameFault_eq_none_iff (withSource : Bool) (l : Latched) : frameFault withSource l = none ↔
    FrameUsable l ∧ (withSource = true → l.srcLen.toNat = frameBytes l) := by
  have husable : FrameUsable l ↔ 0 < l.frameW.toNat ∧ 0 < l.frameH.toNat ∧ frameBytes l < Config.spaceSize ∧
      bufferBytes l < Config.spaceSize :=
    ⟨fun ⟨hw, hh, hn, ht⟩ => ⟨hw, hh, hn, ht⟩, fun ⟨hw, hh, hn, ht⟩ => ⟨hw, hh, hn, ht⟩⟩
  simp only [husable, frameFault, ite_eq_iff, reduceCtorEq, and_false, false_or, and_true, Bool.and_eq_true, bne_iff_ne,
    not_and, not_not, Nat.not_le, Nat.pos_iff_ne_zero]
  tauto

/-! ### Completion (R203, R204, R242) -/

/-- COMPRESS completes with its transform of its source where that fits (R203, R277). -/
theorem execCompress_completed {s : State} {l : Latched} (hp : s.phase = .busy l false) (hwf : s.mem.wf = true)
    (hpass : ChecksPass .compress s.platform l)
    (hfits : (compressBytes l (s.sourceBytes l)).length ≤ l.dstCap.toNat) :
    ∃ t, exec .compress s = .next t ∧ Completed l (compressBytes l (s.sourceBytes l)) false s t :=
  exec_completed_of_ok (exec_compress s l false hp) hwf hpass (fitOutput_of_le hfits) hfits

/-- Settles O30: the geometry check asks for a usable frame and its whole length as the source. -/
theorem compressCompletes : Obligations.CompressCompletes := by
  unfold Obligations.CompressCompletes
  intro s l hp hwf hregions hframe hsource hfits
  have hgeometry : frameFault true l = none := (frameFault_eq_none_iff true l).mpr ⟨hframe, fun _ => hsource⟩
  exact execCompress_completed hp hwf ⟨hgeometry, hregions, nofun⟩ hfits

/-- A buffer that begins with the block has no byte that differs from it. -/
theorem firstMismatch_append (k : Nat) (b codes : List Byte) : firstMismatch k (b ++ codes) b = none := by
  induction b generalizing k with
  | nil => cases codes <;> rfl
  | cons x b ih => exact (if_pos rfl).trans (ih (k + 1))

theorem rebuildFrame_of_block {l : Latched} {r : CommandResult} {codes : List Byte}
    (h : unrotateBuffer l.perm l.tailm r.out = lengthBlock (frameBytes l) ++ codes) :
    rebuildFrame l r = .ok ⟨deltaDecode l.dseg l.frameW.toNat codes, r.trail⟩ := by
  simp only [rebuildFrame, h, firstMismatch_append, List.drop_left]

theorem decompressBytes_of_decoded {l : Latched} {src : List Byte} {r : CommandResult}
    (h : spanDecode l.zmode (bufferBytes l) src = .ok r) : decompressBytes l src = rebuildFrame l r := by
  simp only [decompressBytes, h]

/-- DECOMPRESS completes with what its transform answers (R204); the static capacity check has let its length in. -/
theorem execDecompress_completed {s : State} {l : Latched} {r : CommandResult} (hp : s.phase = .busy l false)
    (hwf : s.mem.wf = true) (hpass : ChecksPass .decompress s.platform l)
    (hr : decompressBytes l (s.sourceBytes l) = .ok r) :
    ∃ t, exec .decompress s = .next t ∧ Completed l r.out r.trail s t ∧ t.resultLen.toNat = frameBytes l := by
  have hlen := length_decompressBytes hr
  obtain ⟨t, ht, hcompleted⟩ := exec_completed_of_ok (exec_decompress s l false hp) hwf hpass hr
    (hlen.trans_le (hpass.capacity _ rfl))
  exact ⟨t, ht, hcompleted, hcompleted.published.resultLen.trans hlen⟩

/-- Settles O31: the decoded stream unrotates to the block and the codes, so the transform answers the decoded codes. -/
theorem decompressCompletes : Obligations.DecompressCompletes := by
  unfold Obligations.DecompressCompletes
  intro s l r codes hp hwf hregions hframe hcap hr hblock
  have hgeometry : frameFault false l = none := (frameFault_eq_none_iff false l).mpr ⟨hframe, nofun⟩
  exact execDecompress_completed hp hwf ⟨hgeometry, hregions, fun _ hn => Option.some.inj hn ▸ hcap⟩
    ((decompressBytes_of_decoded hr).trans (rebuildFrame_of_block hblock))

/-! ### Round trip (R206) -/

theorem length_frameBuffer {l : Latched} {frame : List Byte} (h : frame.length = frameBytes l) :
    (frameBuffer l frame).length = bufferBytes l := by
  rw [frameBuffer, List.length_append, length_lengthBlock, length_deltaEncode, h, bufferBytes]

/-- Each stage of the pipeline is undone in turn: the span code, the rotation, the length block, the deltas. -/
theorem decompressBytes_compressBytes {l : Latched} {frame : List Byte} (hperm : isPermutation l.perm = true)
    (hlen : frame.length = frameBytes l) : decompressBytes l (compressBytes l frame) = .ok ⟨frame, false⟩ := by
  have hspan : spanDecode l.zmode (bufferBytes l) (compressBytes l frame) =
      .ok ⟨rotateBuffer l.perm l.tailm (frameBuffer l frame), false⟩ := by
    rw [← length_frameBuffer hlen, ← length_rotateBuffer l.perm l.tailm]
    exact spanDecode_spanEncode l.zmode _
  have hrotate : unrotateBuffer l.perm l.tailm (rotateBuffer l.perm l.tailm (frameBuffer l frame)) =
      lengthBlock (frameBytes l) ++ deltaEncode l.dseg l.frameW.toNat frame :=
    (rotatorRoundTrip l.perm l.tailm _ hperm).1
  have hdelta : deltaDecode l.dseg l.frameW.toNat (deltaEncode l.dseg l.frameW.toNat frame) = frame :=
    deltaDecodeFrom_deltaEncodeFrom l.dseg l.frameW.toNat 0 0 frame
  rw [decompressBytes_of_decoded hspan, rebuildFrame_of_block hrotate, hdelta]

/-- DECOMPRESS's transform reads the geometry, the modes and the permutation of its operand set alone. -/
theorem decompressBytes_congr {l m : Latched} (hw : m.frameW = l.frameW) (hh : m.frameH = l.frameH)
    (hdseg : m.dseg = l.dseg) (hzmode : m.zmode = l.zmode) (htailm : m.tailm = l.tailm) (hperm : m.perm = l.perm)
    (src : List Byte) : decompressBytes m src = decompressBytes l src := by
  simp only [decompressBytes, rebuildFrame, bufferBytes, frameBytes, hw, hh, hdseg, hzmode, htailm, hperm]

/-- The RESULT_LEN bytes at the destination are the result (R67). -/
theorem Published.readBytes_eq {l : Latched} {out : List Byte} {trail : Bool} {s t : State}
    (h : Published l out trail s t) : t.mem.readBytes l.dstAddr.toNat t.resultLen.toNat = out := by
  rw [h.resultLen]
  refine List.ext_getElem (Memory.length_readBytes _ _ _) fun k hread hout => ?_
  rw [Memory.getElem_readBytes _ _ _ _ hread, h.result k hout]

/-- Settles O51: COMPRESS leaves its transform of the frame, of which DECOMPRESS's transform answers the frame. -/
theorem decompressUndoesCompress : Obligations.DecompressUndoesCompress := by
  unfold Obligations.DecompressUndoesCompress
  intro s t u l m hp hwf hpass hfits hperm ht hpu hwfu hpassu hw hh hdseg hzmode htailm hpermEq hsource
  obtain ⟨_, hlenSource⟩ := (frameFault_eq_none_iff true l).mp hpass.geometry
  have hlen : (s.sourceBytes l).length = frameBytes l := (length_sourceBytes s l).trans (hlenSource rfl)
  have hstream : u.sourceBytes m = compressBytes l (s.sourceBytes l) := by
    obtain ⟨t', ht', hcompressed⟩ := execCompress_completed hp hwf hpass hfits
    cases ht'.symm.trans ht
    exact hsource.trans hcompressed.published.readBytes_eq
  have hframe : decompressBytes m (u.sourceBytes m) = .ok ⟨s.sourceBytes l, false⟩ := by
    rw [decompressBytes_congr hw hh hdseg hzmode htailm hpermEq, hstream]
    exact decompressBytes_compressBytes hperm hlen
  obtain ⟨v, hv, hcompleted, _⟩ := execDecompress_completed hpu hwfu hpassu hframe
  exact ⟨v, hv, hcompleted, hcompleted.published.resultLen.trans hlen, hcompleted.published.trail⟩

end Sys2Proof.Machine

/-! PROOFS. Family 44_control.md: what a CMD write does, what the host sees of a run before its end, the report that the
engine's step leaves, and that every run ends: the settled obligations O15, O17, O18, O20, O21, O24 and O60. -/

namespace Sys2Proof.Machine

/-! ### A CMD write (R240, R241) -/

theorem hostAccess_cmdWrite (s : State) (w : Word) :
    hostAccess (windowWrite s.platform 0x0C w) s = .next (offerCommand w s) :=
  hostAccess_windowWrite s w rfl (by decide)

theorem offerCommand_of_dropped {s : State} (w : Word) (h : s.isBusy = true ∨ s.status.err = true) :
    offerCommand w s = dropCommand s := if_pos ((Bool.or_eq_true _ _).mpr h)

theorem offerCommand_of_legal {s : State} {w : Word} {i : Instr} (hp : s.phase = .idle) (herr : s.status.err = false)
    (hd : decode w = .ok i) : offerCommand w s = beginRun w s := by
  simp [offerCommand, acceptCommand, (isBusy_eq_false_iff s).mpr hp, herr, hd]

/-- Settles O15: the write begins the run, which leaves ERR at the 0 it has. -/
theorem commandAccepted : Obligations.CommandAccepted := by
  unfold Obligations.CommandAccepted
  intro s w i hp herr hd
  have hbegun : beginRun w s = { s with
      status := ⟨false, s.status.err, false, s.status.skip⟩
      phase := .busy (s.latch w) false } := rfl
  rw [hostAccess_cmdWrite, offerCommand_of_legal hp herr hd, hbegun, herr]
  rfl

/-- SKIP_CNT's next value, by the numbers (R41, R241). -/
theorem word_add_one_eq (v : Word) : v + 1 = BitVec.ofNat 32 ((v.toNat + 1) % 4294967296) :=
  BitVec.eq_of_toNat_eq (by simp)

/-- Settles O17: the write is dropped, which counts it. -/
theorem commandDropped : Obligations.CommandDropped := by
  unfold Obligations.CommandDropped
  intro s w h
  rw [hostAccess_cmdWrite, offerCommand_of_dropped w h, ← word_add_one_eq]
  rfl

/-! ### What a host access leaves of what a run publishes (R71, R244 to R246) -/

/-- From `s` to `t` nothing of a run's end shows: DONE and ERR are not set, the other result fields are the same. -/
structure NothingPublished (s t : State) : Prop where
  done : s.status.done = false → t.status.done = false
  err : s.status.err = false → t.status.err = false
  trail : t.status.trail = s.status.trail
  resultLen : t.resultLen = s.resultLen
  faultCause : t.faultCause = s.faultCause
  faultInfo : t.faultInfo = s.faultInfo

theorem NothingPublished.of_eq {s t : State} (hstatus : t.status = s.status) (hlen : t.resultLen = s.resultLen)
    (hcause : t.faultCause = s.faultCause) (hinfo : t.faultInfo = s.faultInfo) : NothingPublished s t :=
  ⟨fun h => by rw [hstatus, h], fun h => by rw [hstatus, h], by rw [hstatus], hlen, hcause, hinfo⟩

theorem NothingPublished.of_acknowledge (v : Word) (s : State) : NothingPublished s (acknowledge v s) :=
  ⟨fun h => by simp [h], fun h => by simp [h], rfl, rfl, rfl, rfl⟩

/-- A write to STATUS can clear DONE and ERR, a CMD write is dropped, any other write reaches neither. -/
theorem writeReg_publishes_nothing {s : State} (r : Reg) (v : Word) (hb : s.isBusy = true) :
    NothingPublished s (writeReg r v s) := by
  cases r with
  | status => exact .of_acknowledge v s
  | cmd =>
    show NothingPublished s (offerCommand v s)
    rw [offerCommand_of_dropped v (Or.inl hb)]
    exact ⟨id, id, rfl, rfl, rfl, rfl⟩
  | _ => exact .of_eq rfl rfl rfl rfl

theorem hostAccess_publishes_nothing {a : HostAccess} {s t : State} (hb : s.isBusy = true)
    (h : hostAccess a s = .next t) : NothingPublished s t := by
  rcases hostAccess_cases h with ⟨r, v, rfl⟩ | ⟨_, _, rfl⟩ | ⟨_, _, _, _, _, _, rfl⟩
  · exact writeReg_publishes_nothing r v hb
  · exact .of_eq rfl rfl rfl rfl
  · exact .of_eq rfl rfl rfl rfl

theorem hostStep_publishes_nothing {a : Option HostAccess} {s t : State} (hb : s.isBusy = true)
    (h : hostStep a s = .next t) : NothingPublished s t := by
  cases a with
  | none =>
    cases h
    exact .of_eq rfl rfl rfl rfl
  | some a => exact hostAccess_publishes_nothing hb h

/-- Settles O20: such a step is the host access of its instant, which keeps the run open and publishes nothing. -/
theorem nothingPublishedBeforeTheEnd : Obligations.NothingPublishedBeforeTheEnd := by
  unfold Obligations.NothingPublishedBeforeTheEnd
  intro s l raced x rest t hp hdone herr htrail hi hr he hstep
  have hb : State.isBusy { s with inputs := rest } = true := (isBusy_eq_true_iff _).mpr ⟨l, raced, hp⟩
  have hhost : hostStep x.access { s with inputs := rest } = .next t := by
    rcases step_cases s t hstep with ⟨hnil, _⟩ | ⟨x', rest', hi', hinstant⟩
    · cases hnil.symm.trans hi
    · cases hi'.symm.trans hi
      rcases hinstant with ⟨hreset, _⟩ | ⟨_, u, hu, ⟨hengine, _⟩ | ⟨_, rfl⟩⟩
      · cases hreset.symm.trans hr
      · cases hengine.symm.trans he
      · exact hu
  have hkept := hostStep_publishes_nothing hb hhost
  exact ⟨hostStep_keeps_run (s := { s with inputs := rest }) hp hhost, hkept.done hdone, hkept.err herr,
    hkept.trail.trans htrail, hkept.resultLen, hkept.faultCause, hkept.faultInfo⟩

/-! ### The report of a run's end (R242, R283) -/

/-- `t` reports a completion of the run of `l`: a result within its capacity, and the fault registers of `s`. -/
structure ReportsCompletion (l : Latched) (s t : State) : Prop where
  done : t.status.done = true
  err : t.status.err = s.status.err
  resultLen : t.resultLen.toNat ≤ l.dstCap.toNat
  faultCause : t.faultCause = s.faultCause
  faultInfo : t.faultInfo = s.faultInfo

/-- `t` reports a fault, with no result. -/
structure ReportsFault (t : State) : Prop where
  done : t.status.done = false
  err : t.status.err = true
  resultLen : t.resultLen = 0

theorem ReportsCompletion.of_complete {l : Latched} {out : List Byte} (trail : Bool) (s : State)
    (h : out.length ≤ l.dstCap.toNat) : ReportsCompletion l s (complete l out trail s) :=
  ⟨rfl, rfl, (BitVec.toNat_ofNat out.length 32).trans_le ((Nat.mod_le _ _).trans h), rfl, rfl⟩

theorem finishRaced_reports (l : Latched) (s : State) :
    ReportsCompletion l s (finishRaced l s) ∨ ReportsFault (finishRaced l s) := by
  by_cases h : Config.raceCompletes s.draws = true
  · obtain ⟨hdone, herr, hlen, hcause, hinfo⟩ := finishRaced_of_completes (l := l) h
    exact Or.inl ⟨hdone, herr, hlen, hcause, hinfo⟩
  · obtain ⟨hdone, herr, hlen, _⟩ := finishRaced_of_faults (l := l) h
    exact Or.inr ⟨hdone, herr, hlen⟩

theorem finishRun_reports {g : Option FaultRecord} {need : Option Nat}
    {f : List Byte → Except FaultRecord CommandResult} {l : Latched} (hfits : FitsCapacity need l f) (raced : Bool)
    (s : State) : ReportsCompletion l s (finishRun g need f l raced s) ∨ ReportsFault (finishRun g need f l raced s) := by
  rcases finishRun_cases g need f l raced s with ⟨c, d, _, h⟩ | ⟨_, _, h⟩ | ⟨hc, _, r, hr, h⟩ | ⟨_, _, c, _, h⟩ <;>
    rw [h]
  · exact Or.inr ⟨rfl, rfl, rfl⟩
  · exact finishRaced_reports l s
  · obtain ⟨_, _, _, _, hcap⟩ := (checkFault_eq_none_iff _ _ _ _).mp hc
    obtain ⟨hdone, herr, hlen, hcause, hinfo⟩ := ReportsCompletion.of_complete r.trail (exposeDestination l s)
      (hfits _ r (length_sourceBytes s l) hr hcap)
    exact Or.inl ⟨hdone, herr, hlen, hcause, hinfo⟩
  · exact Or.inr ⟨rfl, rfl, rfl⟩

/-- While BUSY every command ends in the report of a completion or of a fault. -/
theorem exec_reports {i : Instr} {s t : State} {l : Latched} {raced : Bool} (hp : s.phase = .busy l raced)
    (h : exec i s = .next t) : ReportsCompletion l s t ∨ ReportsFault t := by
  by_cases hi : i = .nop
  · subst hi
    cases (exec_nop s l raced hp).symm.trans h
    exact Or.inl (.of_complete false s (Nat.zero_le _))
  · obtain ⟨f, hfits, hf⟩ := exec_eq_finishRun_fitting hi l
    cases (hf s raced hp).symm.trans h
    exact finishRun_reports hfits raced s

/-- Settles O21: `exec_ends_run` gives the end of the run and its frame, `exec_reports` its two kinds. -/
theorem engineStepEndsTheRun : Obligations.EngineStepEndsTheRun := by
  unfold Obligations.EngineStepEndsTheRun
  refine fun i s => ⟨fun l raced hp herr => ?busy, fun hp => ⟨exec_idle i s hp, fun hi => ?idle⟩⟩
  case busy =>
    obtain ⟨t, ht, hended⟩ := exec_ends_run i hp
    refine ⟨t, ht, hended.idle, ?_, hended.registers, hended.outside⟩
    rcases exec_reports hp ht with hreport | hreport
    · exact Or.inl ⟨hreport.done, hreport.err.trans herr, hreport.resultLen⟩
    · exact Or.inr ⟨hreport.done, hreport.err, hreport.resultLen⟩
  case idle => rw [step_of_no_inputs hi, runLatched_idle exec s hp]

/-- Settles O24: the completion of NOP writes no byte. -/
theorem nopCompletes : Obligations.NopCompletes := by
  unfold Obligations.NopCompletes
  intro s l raced hp
  have hended := RunEnded.of_complete l [] false s
  exact ⟨_, exec_nop s l raced hp,
    ⟨nofun, fun _ _ => rfl, rfl, rfl, rfl, rfl, rfl, rfl, rfl, hended.registers, hended.outside⟩, rfl, rfl, rfl⟩

/-! ### A register write during a run (R44, R244, R314) -/

/-- A register write during a run reaches nothing that the engine reads besides the latched operands. -/
theorem SameForEngine.of_writeReg {s : State} (r : Reg) (v : Word) (hb : s.isBusy = true) :
    SameForEngine s (writeReg r v s) := by
  cases r with
  | cmd =>
    show SameForEngine s (offerCommand v s)
    rw [offerCommand_of_dropped v (Or.inl hb)]
    exact ⟨rfl, rfl, rfl, rfl⟩
  | _ => exact ⟨rfl, rfl, rfl, rfl⟩

/-- Settles O18: the write reaches neither the operand set nor what else the engine reads, so both ends report the same
kind of end; a completion keeps the fault registers, which the write has kept too. -/
theorem registerWritesDuringRunDoNotReachTheCommand : Obligations.RegisterWritesDuringRunDoNotReachTheCommand := by
  unfold Obligations.RegisterWritesDuringRunDoNotReachTheCommand
  intro i s l raced w addr v t s' t' hp herr ht hs' ht'
  have hb : s.isBusy = true := (isBusy_eq_true_iff s).mpr ⟨l, raced, hp⟩
  have hpublished : NothingPublished s t := hostAccess_publishes_nothing hb ht
  obtain ⟨r, _, rfl⟩ := hostRegWrite_eq_next _ _ _ _ _ ht
  have hphase := writeReg_phase_of_busy r v hb
  have hsame := SameForEngine.of_writeReg r v hb
  obtain ⟨hmem, hlen, hdone, htrail, hfault⟩ := hsame.exec i hp (hphase.trans hp) hs' ht'
  suffices hrest : t'.faultCause = s'.faultCause ∧ t'.faultInfo = s'.faultInfo ∧ t'.status.err = s'.status.err by
    obtain ⟨hcause, hinfo, herr'⟩ := hrest
    exact ⟨hphase, hsame.mem, hmem, hlen, hcause, hinfo, hdone, herr', htrail⟩
  rcases exec_reports hp hs' with hwithout | hwithout <;>
    rcases exec_reports (hphase.trans hp) ht' with hwith | hwith
  · exact ⟨by rw [hwith.faultCause, hpublished.faultCause, hwithout.faultCause],
      by rw [hwith.faultInfo, hpublished.faultInfo, hwithout.faultInfo],
      by rw [hwith.err, hpublished.err herr, hwithout.err, herr]⟩
  · cases hwith.done.symm.trans (hdone.trans hwithout.done)
  · cases hwithout.done.symm.trans (hdone.symm.trans hwith.done)
  · obtain ⟨hcause, hinfo⟩ := hfault hwithout.done
    exact ⟨hcause, hinfo, hwith.err.trans hwithout.err.symm⟩

/-! ### Every run ends (R248, R315) -/

section
variable {M : Host.Core} {s t : M.State}

theorem run_succ_of_next (n : Nat) (h : M.step s = .next t) : M.run (n + 1) s = M.run n t := by
  rw [Host.Core.run, h]

theorem run_one_of_fault {f : M.Fault} (h : M.step s = .fault f) : M.run 1 s = .fault f := by
  rw [Host.Core.run, h]

theorem run_one_of_refused {e : M.Refusal} (h : M.step s = .refused e) : M.run 1 s = .refused e := by
  rw [Host.Core.run, h]

end

/-- After `n` steps from `s` the machine is IDLE, or one of them has stopped it. -/
def EndedAfter (n : Nat) (s : State) : Prop :=
  (∃ t : State, Host.Core.run Sys2Proof.core n s = .next t ∧ t.phase = .idle) ∨
  (∃ f, Host.Core.run Sys2Proof.core n s = .fault f) ∨ (∃ e, Host.Core.run Sys2Proof.core n s = .refused e)

theorem EndedAfter.zero_of_idle {s : State} (hp : s.phase = .idle) : EndedAfter 0 s := Or.inl ⟨s, rfl, hp⟩

theorem EndedAfter.succ {s t : State} {n : Nat} (h : step s = .next t) (ht : EndedAfter n t) : EndedAfter (n + 1) s := by
  have hrun : Host.Core.run Sys2Proof.core (n + 1) s = Host.Core.run Sys2Proof.core n t := run_succ_of_next n h
  unfold EndedAfter
  rwa [hrun]

/-- Each instant to come is used up by one step, and where none is left one engine step ends the run. -/
theorem exists_endedAfter (is : List Instant) (s : State) (hi : s.inputs = is) :
    ∃ n, n ≤ is.length + 1 ∧ EndedAfter n s := by
  induction is generalizing s with
  | nil =>
    obtain ⟨t, ht⟩ := runLatched_answers s
    have hidle : EndedAfter 0 t := .zero_of_idle (runLatched_next_idle s t ht)
    exact ⟨1, Nat.le_refl 1, hidle.succ ((step_of_no_inputs hi).trans ht)⟩
  | cons x rest ih =>
    cases hstep : step s with
    | next t =>
      obtain ⟨_, hinputs⟩ := step_frame hstep
      rw [hi] at hinputs
      obtain ⟨n, hn, hended⟩ := ih t hinputs
      exact ⟨n + 1, Nat.succ_le_succ hn, hended.succ hstep⟩
    | fault f => exact ⟨1, Nat.le_add_left 1 _, Or.inr (Or.inl ⟨f, run_one_of_fault hstep⟩)⟩
    | refused e => exact ⟨1, Nat.le_add_left 1 _, Or.inr (Or.inr ⟨e, run_one_of_refused hstep⟩)⟩

/-- Settles O60, by induction on the instants still to come. -/
theorem everyRunEnds : Obligations.EveryRunEnds := fun s => exists_endedAfter s.inputs s rfl

end Sys2Proof.Machine

/-! PROOFS. Family 60_exceptions.md: the faults of an illegal word and of each check in the order of R282, the faults that
the data raises, the acknowledgement of a fault, and what falls at one instant: the settled obligations O16, O22, O23,
O33 to O37, O39 and O40. -/

namespace Sys2Proof.Machine

/-! ### An illegal word (R82, R272, R283) -/

theorem toNat_opcode_le (i : Instr) : (opcode i).toNat ≤ 0x0A := by cases i <;> decide

/-- A word whose OP is reserved, or which has a bit of RSVD set, is no command: that of a command is neither. -/
theorem decode_eq_error_of_illegal {w : Word} (h : 0x0B ≤ (w.extractLsb' 0 8).toNat ∨ w.extractLsb' 8 24 ≠ 0) :
    ∃ e, decode w = .error e := by
  cases hd : decode w with
  | error e => exact ⟨e, rfl⟩
  | ok i =>
    have hfields : rawCommand w = ⟨opcode i, 0⟩ := by rw [eq_encode_of_decode hd, encode, rawCommand_rawWord]
    obtain ⟨hop, hrsvd⟩ := RawCommand.mk.inj hfields
    have hle := toNat_opcode_le i
    rw [← hop] at hle
    rcases h with h | h
    · omega
    · exact absurd hrsvd h

theorem offerCommand_of_illegal {s : State} {w : Word} {e : Reject} (hp : s.phase = .idle)
    (herr : s.status.err = false) (hd : decode w = .error e) :
    offerCommand w s = takeFault (illegalRecord w) (beginRun w s) := by
  simp [offerCommand, acceptCommand, (isBusy_eq_false_iff s).mpr hp, herr, hd]

/-- A fault taken at once after acceptance is a fault of the state before: acceptance changes only what the fault sets. -/
theorem checkFaultTaken_takeFault_beginRun (f : FaultRecord) (w : Word) (s : State) :
    CheckFaultTaken f s (takeFault f (beginRun w s)) :=
  ⟨⟨rfl, rfl, rfl, rfl, rfl, rfl, rfl, by constructor <;> rfl, by constructor <;> rfl⟩, rfl, rfl⟩

/-- Settles O16: the write is accepted, and the word takes its fault in the same step. -/
theorem illegalCommandFaults : Obligations.IllegalCommandFaults := by
  unfold Obligations.IllegalCommandFaults
  intro s w hp herr hillegal
  obtain ⟨e, hd⟩ := decode_eq_error_of_illegal hillegal
  refine ⟨_, hostAccess_cmdWrite s w, ?_⟩
  rw [offerCommand_of_illegal hp herr hd]
  exact ⟨checkFaultTaken_takeFault_beginRun _ w s, rfl, rfl⟩

/-! ### The acknowledgement of a fault (R27, R284) -/

theorem hostAccess_statusWrite (s : State) (v : Word) :
    hostAccess (windowWrite s.platform 0x08 v) s = .next (acknowledge v s) :=
  hostAccess_windowWrite s v rfl (by decide)

/-- Settles O23: with ERR cleared in the IDLE phase, a legal word begins a run. -/
theorem errorAcknowledged : Obligations.ErrorAcknowledged := by
  unfold Obligations.ErrorAcknowledged
  intro s v w i hp hv hd
  have herr : (acknowledge v s).status.err = false := by simp [hv]
  refine ⟨_, hostAccess_statusWrite s v, herr, rfl, rfl, fun hdone => ?irqLow, _, hostAccess_cmdWrite _ w, ?accepted⟩
  case irqLow => rw [State.irq, hdone, herr, Bool.or_false, Bool.and_false]
  case accepted =>
    rw [offerCommand_of_legal (s := acknowledge v s) hp herr hd]
    rfl

/-! ### What falls at one instant (R289) -/

/-- Settles O22: the CMD write finds the run still open and is dropped; the engine step after it keeps SKIP and
SKIP_CNT. -/
theorem simultaneousEvents : Obligations.SimultaneousEvents := by
  unfold Obligations.SimultaneousEvents
  refine fun s x rest hi => ⟨fun hr => ?reset, fun l raced i w hp hd hr he ha => ?dropped⟩
  case reset => rw [step_of_inputs hi, instantStep_reset hr]
  case dropped =>
    have hb : State.isBusy { s with inputs := rest } = true := (isBusy_eq_true_iff _).mpr ⟨l, raced, hp⟩
    have hwrite : hostStep x.access { s with inputs := rest } = .next (dropCommand { s with inputs := rest }) := by
      rw [ha, ← offerCommand_of_dropped w (Or.inl hb)]
      exact hostAccess_cmdWrite { s with inputs := rest } w
    obtain ⟨_, hrun, _⟩ := (stepRunsTheLatchedCommand.2 s l raced i hp hd).2 x rest _ hi hr hwrite
    obtain ⟨t, ht, hended⟩ := exec_ends_run i (s := dropCommand { s with inputs := rest }) hp
    exact ⟨t, (hrun he).trans ht, hended.idle, hended.registers.skip, hended.registers.skipCnt⟩

/-! ### The lowest common and the lowest rejected address (R275, R276) -/

/-- Where some address lies in both regions the larger base is the lowest that does. -/
theorem max_base_is_lowest_common {r q : Region} {a : Nat} (hr : inRegion r a = true) (hq : inRegion q a = true) :
    inRegion r (max r.base q.base) = true ∧ inRegion q (max r.base q.base) = true ∧ max r.base q.base ≤ a := by
  rw [inRegion_iff] at hr hq
  exact ⟨(inRegion_iff _ _).mpr (by omega), (inRegion_iff _ _).mpr (by omega), by omega⟩

/-- The lowest rejected address of a region is what `lowestRejected` finds (R276). -/
theorem lowestRejected_of_lowest {p : Platform} {r : Region} {a : Nat} (hin : inRegion r a = true)
    (hrejected : memAdmit p a = false) (hlowest : ∀ x, inRegion r x = true → x < a → memAdmit p x = true) :
    lowestRejected p r = some a := by
  cases hfound : lowestRejected p r with
  | none => cases hrejected.symm.trans ((lowestRejected_eq_none_iff p r).mp hfound a hin)
  | some b =>
    obtain ⟨hb, hbrejected, hblowest⟩ := lowestRejected_eq_some p r b hfound
    rcases Nat.lt_trichotomy a b with h | rfl | h
    · cases hrejected.symm.trans (hblowest a hin h)
    · rfl
    · cases hbrejected.symm.trans (hlowest b hb h)

/-! ### Each check by the condition that fails (R274 to R277) -/

section
variable {l : Latched}

theorem rangeFault_of_source (h : Config.spaceSize < l.srcAddr.toNat + l.srcLen.toNat) :
    rangeFault l = some ⟨.addrRange, 0⟩ := if_pos h

theorem rangeFault_of_destination (hsource : l.srcAddr.toNat + l.srcLen.toNat ≤ Config.spaceSize)
    (h : Config.spaceSize < l.dstAddr.toNat + l.dstCap.toNat) : rangeFault l = some ⟨.addrRange, 1⟩ := by
  rw [rangeFault, if_neg (Nat.not_lt.mpr hsource), if_pos h]

theorem overlapFault_of_common {a : Nat} (hsource : inRegion l.source a = true)
    (hdestination : inRegion l.destination a = true) :
    overlapFault l = some ⟨.overlap, infoWord (max l.srcAddr.toNat l.dstAddr.toNat)⟩ :=
  if_pos ((regionsOverlap_iff_common _ _).mpr ⟨a, hsource, hdestination⟩)

theorem overlapFault_of_apart (h : ∀ a, inRegion l.source a = true → inRegion l.destination a = false) :
    overlapFault l = none := by
  rw [overlapFault_eq_none_iff, ← Bool.not_eq_true, regionsOverlap_iff_common]
  rintro ⟨a, hsource, hdestination⟩
  cases (h a hsource).symm.trans hdestination

theorem busFault_of_source {p : Platform} {a : Nat} (h : lowestRejected p l.source = some a) :
    busFault p l = some ⟨.busError, infoWord a⟩ := by
  simp only [busFault, h]

theorem busFault_of_destination {p : Platform} {a : Nat} (hsource : lowestRejected p l.source = none)
    (h : lowestRejected p l.destination = some a) : busFault p l = some ⟨.busError, infoWord a⟩ := by
  simp only [busFault, hsource, h]

/-! ### The first check that fails is the one reported (R282) -/

variable {p : Platform} {need : Option Nat} {f : FaultRecord}

theorem checkFault_of_rangeFault (h : rangeFault l = some f) : checkFault p none need l = some f := by
  simp only [checkFault, h]

theorem checkFault_of_overlapFault (hrange : rangeFault l = none) (h : overlapFault l = some f) :
    checkFault p none need l = some f := by
  simp only [checkFault, hrange, h]

theorem checkFault_of_busFault (hrange : rangeFault l = none) (hoverlap : overlapFault l = none)
    (h : busFault p l = some f) : checkFault p none need l = some f := by
  simp only [checkFault, hrange, hoverlap, h]

theorem checkFault_of_capacity {n : Nat} (hregions : RegionsUsable p l) (h : l.dstCap.toNat < n) :
    checkFault p none (some n) l = some ⟨.dstOverflow, l.dstCap⟩ := by
  obtain ⟨hrange, hoverlap, hbus⟩ := (regionsUsable_iff p l).mp hregions
  simp only [checkFault, hrange, hoverlap, hbus, capacityFault, if_pos h, overflowRecord]

end

section
variable {i : Instr} {s : State} {l : Latched} {f : FaultRecord}

/-- A command that uses memory, is not raced and fails a check ends in that check's fault, with no memory accessed. -/
theorem endsInCheckFault_of_checkFault (hi : i ≠ .nop) (hp : s.phase = .busy l false)
    (h : checkFault s.platform (geometryFault i l) (staticNeed i l) l = some f) : EndsInCheckFault i f s :=
  ⟨_, exec_of_checkFault hi hp h, checkFaultTaken_takeFault f s⟩

/-- The geometry check comes before the others. -/
theorem endsInCheckFault_of_geometryFault (hi : i ≠ .nop) (hp : s.phase = .busy l false)
    (h : geometryFault i l = some f) : EndsInCheckFault i f s :=
  endsInCheckFault_of_checkFault hi hp (by rw [h]; rfl)

/-- Where the geometry check passes, the fault is that of the checks after it. -/
theorem endsInCheckFault_of_later_check (hi : i ≠ .nop) (hp : s.phase = .busy l false)
    (hgeometry : geometryFault i l = none) (h : checkFault s.platform none (staticNeed i l) l = some f) :
    EndsInCheckFault i f s :=
  endsInCheckFault_of_checkFault hi hp (hgeometry ▸ h)

/-- A command whose output length is known from the operands faults before memory is touched where it does not fit. -/
theorem endsInCheckFault_of_staticNeed {n : Nat} (hi : i ≠ .nop) (hp : s.phase = .busy l false)
    (hgeometry : geometryFault i l = none) (hregions : RegionsUsable s.platform l) (hneed : staticNeed i l = some n)
    (h : l.dstCap.toNat < n) : EndsInCheckFault i ⟨.dstOverflow, l.dstCap⟩ s :=
  endsInCheckFault_of_later_check hi hp hgeometry (hneed ▸ checkFault_of_capacity hregions h)

end

/-- Settles O33: the range check, source first; NOP has none. -/
theorem addrRangeFaults : Obligations.AddrRangeFaults := by
  unfold Obligations.AddrRangeFaults
  refine fun i s l hp hgeometry => ⟨fun hi hsource => ?source, fun hi hsource hdestination => ?destination, ?nop⟩
  case source =>
    exact endsInCheckFault_of_later_check hi hp hgeometry (checkFault_of_rangeFault (rangeFault_of_source hsource))
  case destination =>
    exact endsInCheckFault_of_later_check hi hp hgeometry
      (checkFault_of_rangeFault (rangeFault_of_destination hsource hdestination))
  case nop =>
    rintro rfl
    exact ⟨_, exec_nop s l false hp, rfl, rfl, rfl⟩

/-- Settles O34: the larger base, which the range check keeps below 2^32. -/
theorem overlapFaults : Obligations.OverlapFaults := by
  unfold Obligations.OverlapFaults
  intro i s l a hi hp hgeometry hsource hdestination ha ha'
  have hrange : rangeFault l = none := (rangeFault_eq_none_iff l).mpr ⟨hsource, hdestination⟩
  have hlow : (infoWord (max l.srcAddr.toNat l.dstAddr.toNat)).toNat = max l.srcAddr.toNat l.dstAddr.toNat :=
    Nat.mod_eq_of_lt (Nat.max_lt.mpr ⟨l.srcAddr.isLt, l.dstAddr.isLt⟩)
  refine ⟨_, endsInCheckFault_of_later_check hi hp hgeometry
    (checkFault_of_overlapFault hrange (overlapFault_of_common ha ha')), hlow, ?_⟩
  rw [hlow]
  exact max_base_is_lowest_common ha ha'

/-- Settles O35: the lowest rejected address of the first region that has one. -/
theorem busErrorFaults : Obligations.BusErrorFaults := by
  unfold Obligations.BusErrorFaults
  intro i s l a hi hp hgeometry hsource hdestination hapart hrejected
  have hrange : rangeFault l = none := (rangeFault_eq_none_iff l).mpr ⟨hsource, hdestination⟩
  have hends : busFault s.platform l = some ⟨.busError, infoWord a⟩ → EndsInCheckFault i ⟨.busError, infoWord a⟩ s :=
    fun h => endsInCheckFault_of_later_check hi hp hgeometry
      (checkFault_of_busFault hrange (overlapFault_of_apart hapart) h)
  refine ⟨fun hin hlowest => hends (busFault_of_source (lowestRejected_of_lowest hin hrejected hlowest)),
    fun hadmitted hin hlowest => hends (busFault_of_destination ?_ (lowestRejected_of_lowest hin hrejected hlowest))⟩
  exact (lowestRejected_eq_none_iff _ _).mpr hadmitted

/-! ### The capacity checks (R277) -/

theorem fitOutput_of_lt {l : Latched} {out : List Byte} (h : l.dstCap.toNat < out.length) :
    fitOutput l out = .error ⟨.dstOverflow, l.dstCap⟩ := if_pos h

/-- Settles O36: by the static check where the operands tell the length, else by the transform's last step. -/
theorem dstOverflowFaults : Obligations.DstOverflowFaults := by
  unfold Obligations.DstOverflowFaults
  refine fun i s l hp hgeometry hregions => ⟨fun hi hcap => ?sameLength, ?spdec, ?decompress, ?spenc, ?compress⟩
  case sameLength =>
    obtain ⟨hne, hneed⟩ : i ≠ .nop ∧ staticNeed i l = some l.srcLen.toNat := by
      rcases hi with rfl | rfl | rfl | rfl | rfl | rfl <;> exact ⟨nofun, rfl⟩
    exact endsInCheckFault_of_staticNeed hne hp hgeometry hregions hneed hcap
  case spdec =>
    rintro rfl hcap
    exact endsInCheckFault_of_staticNeed nofun hp hgeometry hregions rfl hcap
  case decompress =>
    rintro rfl hcap
    exact endsInCheckFault_of_staticNeed nofun hp hgeometry hregions rfl hcap
  case spenc =>
    rintro rfl hcap
    exact exec_dataFault_of_error (exec_spenc s l false hp) ⟨hgeometry, hregions, nofun⟩ (fitOutput_of_lt hcap)
  case compress =>
    rintro rfl hcap
    exact exec_dataFault_of_error (exec_compress s l false hp) ⟨hgeometry, hregions, nofun⟩ (fitOutput_of_lt hcap)

/-! ### The geometry checks (R273) -/

theorem rowFault_of_width_zero {l : Latched} (hdseg : l.dseg = false) (hw : l.frameW = 0) :
    rowFault l = some ⟨.badGeometry, 1⟩ := by
  simp [rowFault, hdseg, hw]

/-- The geometry check of COMPRESS and DECOMPRESS, which the source's length concerns in COMPRESS alone. -/
theorem geometryFault_of_frame_command {i : Instr} (hi : i = .compress ∨ i = .decompress) (l : Latched) :
    geometryFault i l =
      if l.frameW = 0 then some ⟨.badGeometry, 1⟩
      else if l.frameH = 0 then some ⟨.badGeometry, 2⟩
      else if 4294967296 ≤ l.frameW.toNat * l.frameH.toNat then some ⟨.badGeometry, 3⟩
      else if i = .compress ∧ l.srcLen.toNat ≠ l.frameW.toNat * l.frameH.toNat then some ⟨.badGeometry, 4⟩
      else if 4294967296 ≤ (lengthBlock (l.frameW.toNat * l.frameH.toNat)).length + l.frameW.toNat * l.frameH.toNat then
        some ⟨.badGeometry, 5⟩
      else none := by
  have hzero : ∀ w : Word, w.toNat = 0 ↔ w = 0 := fun w => (BitVec.toNat_eq (y := 0)).symm
  have hframe : geometryFault i l = frameFault (decide (i = .compress)) l := by rcases hi with rfl | rfl <;> rfl
  simp only [hframe, frameFault, hzero, Bool.and_eq_true, decide_eq_true_eq, bne_iff_ne, length_lengthBlock, bufferBytes,
    frameBytes, Config.spaceSize]
  congr

/-- Settles O37: the sub-code is that of the first condition in R273's order that fails. -/
theorem badGeometryFaults : Obligations.BadGeometryFaults := by
  unfold Obligations.BadGeometryFaults
  refine fun s l hp => ⟨fun i hi hdseg hw => ?rows, fun i hi => ?frame⟩
  case rows =>
    obtain ⟨hne, hgeometry⟩ : i ≠ .nop ∧ geometryFault i l = rowFault l := by
      rcases hi with rfl | rfl <;> exact ⟨nofun, rfl⟩
    exact endsInCheckFault_of_geometryFault hne hp (hgeometry.trans (rowFault_of_width_zero hdseg hw))
  case frame =>
    have hne : i ≠ .nop := by rcases hi with rfl | rfl <;> nofun
    have hends : ∀ f, geometryFault i l = some f → EndsInCheckFault i f s :=
      fun f h => endsInCheckFault_of_geometryFault hne hp h
    rw [geometryFault_of_frame_command hi l] at hends
    split_ifs with hw hh hn hsource
    · exact hends _ (if_pos hw)
    · exact hends _ (by rw [if_neg hw, if_pos hh])
    · exact hends _ (by rw [if_neg hw, if_neg hh, if_pos hn])
    · exact hends _ (by rw [if_neg hw, if_neg hh, if_neg hn, if_pos hsource])
    · exact fun hbuffer => hends _ (by rw [if_neg hw, if_neg hh, if_neg hn, if_neg hsource, if_pos hbuffer])

/-! ### The length block's comparison (R204, R281) -/

/-- The comparison finds the first byte of the block that the buffer does not have. -/
theorem firstMismatch_of_first {p b : List Byte} {k : Nat} (j : Nat) (hk : k < b.length) (hne : p[k]? ≠ b[k]?)
    (hfirst : ∀ m, m < k → p[m]? = b[m]?) : firstMismatch j p b = some (j + k) := by
  induction b generalizing p j k with
  | nil => cases hk
  | cons y b ih =>
    cases k with
    | zero =>
      cases p with
      | nil => rfl
      | cons x p => exact if_neg (by simpa using hne)
    | succ k =>
      have hhead := hfirst 0 (Nat.succ_pos k)
      cases p with
      | nil => cases hhead
      | cons x p =>
        rw [firstMismatch, if_pos (Option.some.inj hhead), ih (j + 1) (Nat.lt_of_succ_lt_succ hk) hne
          fun m hm => hfirst (m + 1) (Nat.succ_lt_succ hm), Nat.add_assoc, Nat.add_comm 1]

/-- Settles O39: the transform's comparison with the length block raises the fault. -/
theorem lenMismatchFaults : Obligations.LenMismatchFaults := by
  unfold Obligations.LenMismatchFaults
  intro s l r k hp hpass hr hk hne hfirst
  have hmismatch : firstMismatch 0 (unrotateBuffer l.perm l.tailm r.out) (lengthBlock (frameBytes l)) = some k := by
    have h := firstMismatch_of_first 0 hk hne hfirst
    rwa [Nat.zero_add] at h
  have hfault : decompressBytes l (s.sourceBytes l) = .error ⟨.lenMismatch, infoWord k⟩ := by
    rw [decompressBytes_of_decoded hr]
    simp only [rebuildFrame, hmismatch]
  exact exec_dataFault_of_error (exec_decompress s l false hp) hpass hfault

/-! ### MALFORMED (R280) -/

/-- The record names a byte of the stream that has bit 7 set and stands right after a byte 0x7F. -/
def NamesBadContinuation (bs : List Byte) (f : FaultRecord) : Prop :=
  ∃ k b, f.info = infoWord (k + 1) ∧ bs[k]? = some 0x7F ∧ bs[k + 1]? = some b ∧ b.getLsbD 7 = true

section
variable {bs t : List Byte} {i : Nat} {b : Byte}

theorem getElem?_of_drop_eq_cons (h : bs.drop i = b :: t) : bs[i]? = some b := by
  rw [← List.head?_drop, h, List.head?_cons]

theorem drop_succ_of_drop_eq_cons (h : bs.drop i = b :: t) : bs.drop (i + 1) = t := by
  rw [← List.tail_drop, h, List.tail_cons]

/-- After a byte 0x7F the reader of a CHAIN run raises MALFORMED only at such a byte. -/
theorem namesBadContinuation_of_chainRest {ho v : Nat} {f : FaultRecord} (hprev : bs[i]? = some 0x7F)
    (ht : bs.drop (i + 1) = t) (h : chainRest ho (i + 1) v t = .error f) (hf : f.cause = .malformed) :
    NamesBadContinuation bs f := by
  induction t generalizing i v with
  | nil =>
    cases h
    cases hf
  | cons b t ih =>
    have hb := getElem?_of_drop_eq_cons ht
    rw [chainRest] at h
    split at h
    · cases h
      exact ⟨i, b, rfl, hprev, hb, ‹_›⟩
    · split at h
      · subst b
        exact ih hb (drop_succ_of_drop_eq_cons ht) h
      · cases h

variable {z : ZMode} {k : RunToken}

theorem drop_next_of_chainRest {ho v : Nat} (ht : bs.drop i = t) (h : chainRest ho i v t = .ok k) :
    bs.drop k.next = k.rest := by
  induction t generalizing i v with
  | nil => cases h
  | cons b t ih =>
    simp only [chainRest] at h
    split at h
    · cases h
    · split at h
      · exact ih (drop_succ_of_drop_eq_cons ht) h
      · cases h
        exact drop_succ_of_drop_eq_cons ht

theorem drop_next_of_contRest {ho v : Nat} (ht : bs.drop i = t) (h : contRest ho i v t = .ok k) :
    bs.drop k.next = k.rest := by
  induction t generalizing i v with
  | nil => cases h
  | cons b t ih =>
    simp only [contRest] at h
    split at h
    · exact ih (drop_succ_of_drop_eq_cons ht) h
    · cases h
      exact drop_succ_of_drop_eq_cons ht

/-- The token read ends at its `next`: what is left of the stream stands from there on. -/
theorem drop_next_of_runToken (ht : bs.drop i = b :: t) (h : runToken z i b t = .ok k) : bs.drop k.next = k.rest := by
  have hrest := drop_succ_of_drop_eq_cons ht
  cases z with
  | chain =>
    simp only [runToken] at h
    split at h
    · exact drop_next_of_chainRest hrest h
    · cases h
      exact hrest
  | cont =>
    simp only [runToken] at h
    split at h
    · exact drop_next_of_contRest hrest h
    · cases h
      exact hrest
  | split =>
    cases h
    exact hrest

/-- Of the three modes only CHAIN has continuation bytes that are malformed. -/
theorem malformed_of_runToken {f : FaultRecord} (ht : bs.drop i = b :: t) (h : runToken z i b t = .error f)
    (hf : f.cause = .malformed) : z = .chain ∧ NamesBadContinuation bs f := by
  cases z with
  | chain =>
    simp only [runToken] at h
    split at h
    · subst b
      exact ⟨rfl, namesBadContinuation_of_chainRest (getElem?_of_drop_eq_cons ht) (drop_succ_of_drop_eq_cons ht) h hf⟩
    · cases h
  | cont =>
    simp only [runToken] at h
    split at h
    · cases (cause_of_contRest h).symm.trans hf
    · cases h
  | split => cases h

/-- The decoder's loop, at the offset from which `rest` is left of the stream. -/
theorem malformed_of_spanDecodeFrom {fuel need : Nat} {rest : List Byte} {f : FaultRecord} (hrest : bs.drop i = rest)
    (h : spanDecodeFrom z fuel i rest need = .error f) (hf : f.cause = .malformed) :
    z = .chain ∧ NamesBadContinuation bs f := by
  fun_induction spanDecodeFrom z fuel i rest need with
  | case1 => cases h
  | case2 | case3 | case4 | case5 | case8 =>
    cases h
    cases hf
  | case6 fuel i b t need hlit n hfit hlen ih =>
    refine ih ?_ (prependOutput_eq_error h)
    rw [← List.drop_drop, drop_succ_of_drop_eq_cons hrest]
  | case7 fuel i b t need hrun e hk =>
    cases h
    exact malformed_of_runToken hrest hk hf
  | case9 fuel i b t need hrun k hk hfit ih => exact ih (drop_next_of_runToken hrest hk) (prependOutput_eq_error h)

end

/-- A CHAIN run whose continuation has bit 7 set is malformed there, whatever follows (R280). -/
theorem readsRun_chain_malformed (i j : Nat) {b : Byte} (hb : b.getLsbD 7 = true) (rest : List Byte) :
    ReadsRun .chain i (List.replicate (j + 1) 0x7F ++ b :: rest) (.error ⟨.malformed, infoWord (i + (j + 1))⟩) := by
  refine ⟨0x7F, List.replicate j 0x7F ++ b :: rest, rfl, rfl, ?_⟩
  show chainRest i (i + 1) 127 _ = _
  rw [chainRest_replicate, chainRest, if_pos hb, Nat.add_assoc, Nat.add_comm 1]

/-- Settles O40: the reader of a zero run is the only one that raises MALFORMED; after the tokens before it, which are
read whole, it finds every such byte. -/
theorem malformedOnlyInChain : Obligations.MalformedOnlyInChain := by
  unfold Obligations.MalformedOnlyInChain
  refine ⟨fun z x bs f h hf => malformed_of_spanDecodeFrom rfl h hf, fun ks x j b rest hv hx hb => ?_⟩
  exact spanDecode_streamOf_append_error hv hx
    (decodeAt_of_readsRun_error (readsRun_chain_malformed _ j hb rest) (Nat.sub_pos_of_lt hx))

end Sys2Proof.Machine

/-! PROOFS. Family 70_reset_and_hazards.md: the memory that a reset in a run leaves: the settled obligation O5. -/

namespace Sys2Proof.Machine

/-! ### Memory after a reset in a run (R67, R311) -/

section
variable {s : State} {l : Latched} {raced : Bool} (hp : s.phase = .busy l raced)
include hp

theorem runFootprint_of_busy : runFootprint s = if l.usesMemory then l.footprint else [] := by
  simp only [runFootprint, hp]

theorem resetBlock_mem_of_busy : (resetBlock s).mem = s.mem.markAnys (runFootprint s) s.draws := by
  simp only [resetBlock, (isBusy_eq_true_iff s).mpr ⟨l, raced, hp⟩, if_true, scramble_mem]

/-- A run that uses no region leaves reset nothing to mark. -/
theorem resetBlock_mem_of_no_memory (hu : l.usesMemory = false) : (resetBlock s).mem = s.mem := by
  rw [resetBlock_mem_of_busy hp, runFootprint_of_busy hp, hu]
  rfl

theorem resetBlock_mem_of_memory (hu : l.usesMemory = true) :
    (resetBlock s).mem = s.mem.markAnys l.footprint s.draws := by
  rw [resetBlock_mem_of_busy hp, runFootprint_of_busy hp, if_pos hu]

theorem read_resetBlock_of_writable (hu : l.usesMemory = true) {a : Nat} (ha : l.writable a) :
    (resetBlock s).mem.read a = Config.anyByte s.draws a := by
  rw [resetBlock_mem_of_memory hp hu, Memory.read_markAnys, if_pos ha]

/-- What the engine may not write, reset keeps, whether the run uses memory or not. -/
theorem read_resetBlock_of_not_writable {a : Nat} (ha : ¬ l.writable a) :
    (resetBlock s).mem.read a = s.mem.read a := by
  cases hu : l.usesMemory with
  | false => rw [resetBlock_mem_of_no_memory hp hu]
  | true => rw [resetBlock_mem_of_memory hp hu, Memory.read_markAnys, if_neg ha]

end

/-- Settles O5: the registers hold reset's values, and of memory reset marks what the engine may have written: destination
and not source. -/
theorem resetDuringRun : Obligations.ResetDuringRun := by
  unfold Obligations.ResetDuringRun
  intro s l raced hp
  refine ⟨rfl, rfl, readReg_resetBlock .resultLen s, readReg_resetBlock .faultCause s, readReg_resetBlock .faultInfo s,
    fun a ha => read_resetBlock_of_not_writable hp ?outside, fun a ha => read_resetBlock_of_not_writable hp ?source,
    fun a hu hdest hsource hspace => read_resetBlock_of_writable hp hu ?destination, resetBlock_mem_of_no_memory hp⟩
  case outside => simp [inRegions_footprint, ha]
  case source => simp [inRegions_footprint, ha]
  case destination => exact (inRegions_footprint l a).mpr ⟨hdest, hsource, hspace⟩

end Sys2Proof.Machine
